-- ==== Sys2Proof/Word.lean ====
section
/-! DEFINITION. The word types of CRYPTOCORE (spec/00_scope.md R9, R11). Every bit pattern holds a
non-negative integer of a fixed width; there is no two's-complement reading of one. The integer
registers are Lean's `Int` (44_nt_arith.md R190) and have no width here. -/

namespace Sys2Proof

/-- A byte of a payload, a response or the round-key memory. -/
abbrev Byte := BitVec 8

/-- A hash word, a command word or a status word. -/
abbrev Word32 := BitVec 32

/-- A register image, a key word, a round-key entry. -/
abbrev Word64 := BitVec 64

end Sys2Proof
end

