-- ==== Sys2Proof/Syntax.lean ====
section
/-! DEFINITION. The commands of CRYPTOCORE, one constructor per row of spec/opcode_table.json
(30_encoding.md R76), with the operands of R77 already named. Operands come in the order of R75:
destinations first, then sources. -/

namespace Sys2Proof

/-- An LFSR selector: one of the three shift registers (10_state.md R22, 30_encoding.md R74). -/
inductive LfsrSel where
  | l0 | l1 | l2
deriving DecidableEq, Repr

/-- The number of an integer register, 0..15 (10_state.md R33, 30_encoding.md R74). -/
abbrev NReg := Fin 16

/-- The mapped registers of the REG space, by name (10_state.md R42). -/
inductive Reg where
  | status
  | lastErr
  | retryLimit
  | lfsrLen (r : LfsrSel)
  | lfsrTaps (r : LfsrSel)
  | lfsrClkidx (r : LfsrSel)
  | lfsrOutidx (r : LfsrSel)
  | lfsrState (r : LfsrSel)
  | key
  | h (j : Fin 5)
  | hlen
  | tweak0
  | tweak1
  | tweak2
  | kw (j : Fin 17)
deriving DecidableEq, Repr

/-- A command with its operands. The payload is not part of it: it is the address space PAY of the
running command (20_memory.md R50). -/
inductive Instr where
  -- SYS (46_sys.md)
  | sysNop
  | sysReset
  | sysRdreg (num : Reg)
  | sysWrreg (num : Reg)
  -- LFSR (40_lfsr.md)
  | lfsrConf (r : LfsrSel)
  | lfsrLoad (r : LfsrSel)
  | lfsrRead (r : LfsrSel)
  | lfsrShift (r : LfsrSel)
  | lfsrShifto (r : LfsrSel) (b : Bool)
  | lfsrFb (r : LfsrSel)
  | lfsrOut (r : LfsrSel)
  | lfsrClk (r : LfsrSel)
  -- SC (41_stream_cipher.md)
  | scSetkey
  | scInit
  | scStep
  | scGen (n : BitVec 16)
  | scRun (n : BitVec 16)
  -- SHA (42_hasher.md)
  | shaInit
  | shaBlock
  | shaFinal (n : Fin 64)
  | shaDigest
  | shaHash (n : BitVec 16)
  -- KS (43_key_schedule.md)
  | ksSettweak
  | ksSched (bs : BitVec 16)
  | ksRdrk (i : Fin 20)
  -- NT, deterministic arithmetic (44_nt_arith.md)
  | ntLd (rd : NReg) (n : BitVec 16)
  | ntSt (rs : NReg)
  | ntXgcd (rg rx ry ra rb : NReg)
  | ntModinv (rd rn rm : NReg)
  | ntCrt (rd : NReg) (k : BitVec 16)
  | ntModpow (rd rb re rm : NReg)
  -- NT, primality and generation (45_nt_primes.md)
  | ntFermat (rn : NReg) (rounds : BitVec 16)
  | ntMr (rn : NReg) (rounds : BitVec 16)
  | ntGenprime (rd : NReg) (bits : BitVec 16)
  | ntGensafe (rp rq : NReg) (bits : BitVec 16)
  | ntFindgen (rd rp rq : NReg)
deriving DecidableEq, Repr

end Sys2Proof
end

