-- ==== Sys2Proof/WellFormed.lean ====
section
/-! DEFINITION. Which commands are legal encodings, beyond what the operand types already say
(30_encoding.md R88 (g), (h), (i)). The conditions (a) to (f) of R88 cannot be broken by an `Instr`
term: the operand types hold legal values only. -/

namespace Sys2Proof

/-- The registers SYS.WRREG may name (46_sys.md R254, first line of its operands). -/
def Reg.rw : Reg → Bool
  | .retryLimit | .h _ | .hlen | .tweak0 | .tweak1 => true
  | .status | .lastErr | .lfsrLen _ | .lfsrTaps _ | .lfsrClkidx _ | .lfsrOutidx _ | .lfsrState _
  | .key | .tweak2 | .kw _ => false

/-- The command is a legal encoding (30_encoding.md R76, column "legal when"; R88). -/
def Instr.wf : Instr → Bool
  | .sysWrreg num => num.rw
  | .ntXgcd rg rx ry _ _ => rg != rx && rg != ry && rx != ry
  | .ntCrt _ k => decide (1 ≤ k.toNat) && decide (k.toNat ≤ 8)
  | .ntGensafe rp rq _ => rp != rq
  | .sysNop | .sysReset | .sysRdreg _
  | .lfsrConf _ | .lfsrLoad _ | .lfsrRead _ | .lfsrShift _ | .lfsrShifto _ _ | .lfsrFb _
  | .lfsrOut _ | .lfsrClk _
  | .scSetkey | .scInit | .scStep | .scGen _ | .scRun _
  | .shaInit | .shaBlock | .shaFinal _ | .shaDigest | .shaHash _
  | .ksSettweak | .ksSched _ | .ksRdrk _
  | .ntLd _ _ | .ntSt _ | .ntModinv _ _ _ | .ntModpow _ _ _ _
  | .ntFermat _ _ | .ntMr _ _ | .ntGenprime _ _ | .ntFindgen _ _ _ => true

end Sys2Proof
end

