-- ==== Sys2Proof/Decode.lean ====
section
/-! DEFINITION. The decoder of the command word (30_encoding.md R70 to R80, R88), total on all words and
on all byte strings, and after it the encoder, written from the same tables. -/

namespace Sys2Proof

/-- Why a command word is illegal: the letter is that of 30_encoding.md R88. -/
inductive Reject where
  /-- (a) the opcode is not assigned -/
  | unassignedOpcode
  /-- (b) a must-be-zero bit of the format is 1 -/
  | mustBeZero
  /-- (c) an LFSR command with R1 = 3 or more -/
  | lfsrSelector
  /-- (d) LFSR.SHIFTO with IMM16 = 2 or more -/
  | overrideBit
  /-- (e) SHA.FINAL with IMM16 = 64 or more -/
  | finalCount
  /-- (f) KS.RDRK with IMM16 = 20 or more -/
  | roundIndex
  /-- (g) NT.CRT with IMM16 = 0 or above 8 -/
  | crtCount
  /-- (h) two equal destination fields in NT.XGCD or NT.GENSAFE -/
  | equalDestinations
  /-- (i) an unmapped register number, or a read-only one in SYS.WRREG -/
  | registerNumber
  /-- fewer than 4 bytes: no whole command word (30_encoding.md R70) -/
  | truncated
deriving DecidableEq, Repr

/-! ## Register numbers (10_state.md R42) -/

/-- The base number of an LFSR's five registers (10_state.md R42). -/
def LfsrSel.base : LfsrSel → Nat
  | .l0 => 0x10
  | .l1 => 0x18
  | .l2 => 0x20

/-- The 16-bit number of a register (10_state.md R42). -/
def Reg.number : Reg → Nat
  | .status => 0x0000
  | .lastErr => 0x0001
  | .retryLimit => 0x0002
  | .lfsrLen r => r.base
  | .lfsrTaps r => r.base + 1
  | .lfsrClkidx r => r.base + 2
  | .lfsrOutidx r => r.base + 3
  | .lfsrState r => r.base + 4
  | .key => 0x0030
  | .h j => 0x0040 + j.val
  | .hlen => 0x0045
  | .tweak0 => 0x0050
  | .tweak1 => 0x0051
  | .tweak2 => 0x0052
  | .kw j => 0x0060 + j.val

/-- The registers of the REG space in the order of 10_state.md R42. -/
def Reg.all : List Reg :=
  [.status, .lastErr, .retryLimit,
   .lfsrLen .l0, .lfsrTaps .l0, .lfsrClkidx .l0, .lfsrOutidx .l0, .lfsrState .l0,
   .lfsrLen .l1, .lfsrTaps .l1, .lfsrClkidx .l1, .lfsrOutidx .l1, .lfsrState .l1,
   .lfsrLen .l2, .lfsrTaps .l2, .lfsrClkidx .l2, .lfsrOutidx .l2, .lfsrState .l2,
   .key, .h 0, .h 1, .h 2, .h 3, .h 4, .hlen, .tweak0, .tweak1, .tweak2,
   .kw 0, .kw 1, .kw 2, .kw 3, .kw 4, .kw 5, .kw 6, .kw 7, .kw 8,
   .kw 9, .kw 10, .kw 11, .kw 12, .kw 13, .kw 14, .kw 15, .kw 16]

/-- The register of a number, none where the number is unmapped (10_state.md R42). -/
def Reg.ofNumber (num : Nat) : Option Reg := Reg.all.find? fun r => r.number == num

/-- The access column of 10_state.md R42: RW. -/
def Reg.writable : Reg → Bool
  | .retryLimit | .h _ | .hlen | .tweak0 | .tweak1 => true
  | .status | .lastErr | .lfsrLen _ | .lfsrTaps _ | .lfsrClkidx _ | .lfsrOutidx _ | .lfsrState _
  | .key | .tweak2 | .kw _ => false

/-! ## Fields (30_encoding.md R71; 00_scope.md R9) -/

/-- The slice `w[hi:lo]` as a number (00_scope.md R9). -/
def field (hi lo : Nat) (w : Word32) : Nat := w.toNat / 2 ^ lo % 2 ^ (hi - lo + 1)

def fUnit (w : Word32) : Nat := field 31 28 w
def fFunc (w : Word32) : Nat := field 27 24 w
def fR1 (w : Word32) : Nat := field 23 20 w
def fR2 (w : Word32) : Nat := field 19 16 w
def fR3 (w : Word32) : Nat := field 15 12 w
def fR4 (w : Word32) : Nat := field 11 8 w
def fR5 (w : Word32) : Nat := field 7 4 w
def fImm (w : Word32) : Nat := field 15 0 w

/-- A register selector as an integer register number (30_encoding.md R74). -/
def nreg (k : Nat) : NReg := Fin.ofNat 16 k

/-- The 16-bit immediate (30_encoding.md R73). -/
def imm16 (w : Word32) : BitVec 16 := BitVec.ofNat 16 (fImm w)

/-- The LFSR selector R1 (30_encoding.md R74): 0, 1, 2 only. -/
def lfsrSel : Nat → Option LfsrSel
  | 0 => some .l0
  | 1 => some .l1
  | 2 => some .l2
  | _ => none

/-! ## Formats (30_encoding.md R72): each checks its must-be-zero bits -/

/-- Succeed only when the named must-be-zero slice is zero. -/
def zeroBits (hi lo : Nat) (w : Word32) (r : Except Reject Instr) : Except Reject Instr :=
  if field hi lo w = 0 then r else .error .mustBeZero

/-- The word names an LFSR in R1. -/
def withLfsr (w : Word32) (mk : LfsrSel → Except Reject Instr) : Except Reject Instr :=
  match lfsrSel (fR1 w) with
  | some r => mk r
  | none => .error .lfsrSelector

/-- The word names a register of the REG space in IMM16. -/
def withReg (w : Word32) (mk : Reg → Except Reject Instr) : Except Reject Instr :=
  match Reg.ofNumber (fImm w) with
  | some r => mk r
  | none => .error .registerNumber

def fmtN (w : Word32) (i : Instr) : Except Reject Instr := zeroBits 23 0 w (.ok i)

def fmtLfsr (w : Word32) (mk : LfsrSel → Instr) : Except Reject Instr :=
  zeroBits 19 0 w (withLfsr w fun r => .ok (mk r))

def fmtR (w : Word32) (mk : NReg → Instr) : Except Reject Instr :=
  zeroBits 19 0 w (.ok (mk (nreg (fR1 w))))

def fmtI (w : Word32) (r : Except Reject Instr) : Except Reject Instr := zeroBits 23 16 w r

def fmtRI (w : Word32) (r : Except Reject Instr) : Except Reject Instr := zeroBits 19 16 w r

/-! ## The opcode map, unit by unit (30_encoding.md R76, R78) -/

def decodeSys (w : Word32) : Except Reject Instr :=
  match fFunc w with
  | 0 => fmtN w .sysNop
  | 1 => fmtN w .sysReset
  | 2 => fmtI w (withReg w fun r => .ok (.sysRdreg r))
  | 3 => fmtI w (withReg w fun r =>
      if r.writable then .ok (.sysWrreg r) else .error .registerNumber)
  | _ => .error .unassignedOpcode

def decodeLfsr (w : Word32) : Except Reject Instr :=
  match fFunc w with
  | 0 => fmtLfsr w .lfsrConf
  | 1 => fmtLfsr w .lfsrLoad
  | 2 => fmtLfsr w .lfsrRead
  | 3 => fmtLfsr w .lfsrShift
  | 4 => fmtRI w (withLfsr w fun r =>
      if fImm w < 2 then .ok (.lfsrShifto r (fImm w == 1)) else .error .overrideBit)
  | 5 => fmtLfsr w .lfsrFb
  | 6 => fmtLfsr w .lfsrOut
  | 7 => fmtLfsr w .lfsrClk
  | _ => .error .unassignedOpcode

def decodeSc (w : Word32) : Except Reject Instr :=
  match fFunc w with
  | 0 => fmtN w .scSetkey
  | 1 => fmtN w .scInit
  | 2 => fmtN w .scStep
  | 3 => fmtI w (.ok (.scGen (imm16 w)))
  | 4 => fmtI w (.ok (.scRun (imm16 w)))
  | _ => .error .unassignedOpcode

def decodeSha (w : Word32) : Except Reject Instr :=
  match fFunc w with
  | 0 => fmtN w .shaInit
  | 1 => fmtN w .shaBlock
  | 2 => fmtI w (if h : fImm w < 64 then .ok (.shaFinal ⟨fImm w, h⟩) else .error .finalCount)
  | 3 => fmtN w .shaDigest
  | 4 => fmtI w (.ok (.shaHash (imm16 w)))
  | _ => .error .unassignedOpcode

def decodeKs (w : Word32) : Except Reject Instr :=
  match fFunc w with
  | 0 => fmtN w .ksSettweak
  | 1 => fmtI w (.ok (.ksSched (imm16 w)))
  | 2 => fmtI w (if h : fImm w < 20 then .ok (.ksRdrk ⟨fImm w, h⟩) else .error .roundIndex)
  | _ => .error .unassignedOpcode

def decodeNt (w : Word32) : Except Reject Instr :=
  match fFunc w with
  | 0 => fmtRI w (.ok (.ntLd (nreg (fR1 w)) (imm16 w)))
  | 1 => fmtR w .ntSt
  | 2 => zeroBits 3 0 w
      (if fR1 w ≠ fR2 w ∧ fR1 w ≠ fR3 w ∧ fR2 w ≠ fR3 w then
        .ok (.ntXgcd (nreg (fR1 w)) (nreg (fR2 w)) (nreg (fR3 w)) (nreg (fR4 w)) (nreg (fR5 w)))
      else .error .equalDestinations)
  | 3 => zeroBits 11 0 w (.ok (.ntModinv (nreg (fR1 w)) (nreg (fR2 w)) (nreg (fR3 w))))
  | 4 => fmtRI w
      (if 1 ≤ fImm w ∧ fImm w ≤ 8 then .ok (.ntCrt (nreg (fR1 w)) (imm16 w)) else .error .crtCount)
  | 5 => zeroBits 7 0 w
      (.ok (.ntModpow (nreg (fR1 w)) (nreg (fR2 w)) (nreg (fR3 w)) (nreg (fR4 w))))
  | 6 => fmtRI w (.ok (.ntFermat (nreg (fR1 w)) (imm16 w)))
  | 7 => fmtRI w (.ok (.ntMr (nreg (fR1 w)) (imm16 w)))
  | 8 => fmtRI w (.ok (.ntGenprime (nreg (fR1 w)) (imm16 w)))
  | 9 => if fR1 w ≠ fR2 w then .ok (.ntGensafe (nreg (fR1 w)) (nreg (fR2 w)) (imm16 w))
      else .error .equalDestinations
  | 10 => zeroBits 11 0 w (.ok (.ntFindgen (nreg (fR1 w)) (nreg (fR2 w)) (nreg (fR3 w))))
  | _ => .error .unassignedOpcode

/-- The command a word encodes, or the condition of 30_encoding.md R88 it breaks. -/
def decode (w : Word32) : Except Reject Instr :=
  match fUnit w with
  | 0 => decodeSys w
  | 1 => decodeLfsr w
  | 2 => decodeSc w
  | 3 => decodeSha w
  | 4 => decodeKs w
  | 5 => decodeNt w
  | _ => .error .unassignedOpcode

/-- Four bytes, most significant first, as a command word (30_encoding.md R70). -/
def wordOfBytes (b0 b1 b2 b3 : Byte) : Word32 := b0 ++ b1 ++ b2 ++ b3

/-- Decode the command at the head of a byte string: the command and the bytes after its word. -/
def decodeBytes : List Byte → Except Reject (Instr × List Byte)
  | b0 :: b1 :: b2 :: b3 :: rest =>
    match decode (wordOfBytes b0 b1 b2 b3) with
    | .ok i => .ok (i, rest)
    | .error e => .error e
  | _ => .error .truncated

/-- A command word as the 4 bytes the port carries (30_encoding.md R70). -/
def bytesOfWord (w : Word32) : List Byte :=
  [BitVec.ofNat 8 (field 31 24 w), BitVec.ofNat 8 (field 23 16 w),
   BitVec.ofNat 8 (field 15 8 w), BitVec.ofNat 8 (field 7 0 w)]

/-! ## Payload length (30_encoding.md R80) -/

/-- `PLEN`: how many payload bytes follow the command word. A command term that is no legal encoding
has none, as R80 says of an illegal word. -/
def Instr.plen : Instr → Nat
  | .sysWrreg num => if num.writable then 8 else 0
  | .lfsrConf _ => 12
  | .lfsrLoad _ => 8
  | .scSetkey => 8
  | .scRun n => n.toNat
  | .shaBlock => 64
  | .shaFinal n => n.val
  | .shaHash n => n.toNat
  | .ksSettweak => 16
  | .ksSched bs => bs.toNat
  | .ntLd _ n => 1 + n.toNat
  | .sysNop | .sysReset | .sysRdreg _
  | .lfsrRead _ | .lfsrShift _ | .lfsrShifto _ _ | .lfsrFb _ | .lfsrOut _ | .lfsrClk _
  | .scInit | .scStep | .scGen _
  | .shaInit | .shaDigest
  | .ksRdrk _
  | .ntSt _ | .ntXgcd _ _ _ _ _ | .ntModinv _ _ _ | .ntCrt _ _ | .ntModpow _ _ _ _
  | .ntFermat _ _ | .ntMr _ _ | .ntGenprime _ _ | .ntGensafe _ _ _ | .ntFindgen _ _ _ => 0

/-- `PLEN` as a function of the command word alone; 0 for an illegal word (30_encoding.md R80). -/
def plenOfWord (w : Word32) : Nat :=
  match decode w with
  | .ok i => i.plen
  | .error _ => 0

/-! ## The encoder -/

/-- The number in R1 that names an LFSR (30_encoding.md R74). -/
def LfsrSel.code : LfsrSel → Nat
  | .l0 => 0
  | .l1 => 1
  | .l2 => 2

/-- A word from its opcode, R1, R2 and the 16 low bits (30_encoding.md R71). -/
def mkWord (op r1 r2 low : Nat) : Word32 :=
  BitVec.ofNat 32 (op * 2 ^ 24 + r1 * 2 ^ 20 + r2 * 2 ^ 16 + low)

/-- The 16 low bits from the selectors R3, R4, R5; R6 is always zero (30_encoding.md R71). -/
def lowRegs (r3 r4 r5 : Nat) : Nat := r3 * 2 ^ 12 + r4 * 2 ^ 8 + r5 * 2 ^ 4

/-- The command word of a command (30_encoding.md R76, R77). -/
def encode : Instr → Word32
  | .sysNop => mkWord 0x00 0 0 0
  | .sysReset => mkWord 0x01 0 0 0
  | .sysRdreg num => mkWord 0x02 0 0 num.number
  | .sysWrreg num => mkWord 0x03 0 0 num.number
  | .lfsrConf r => mkWord 0x10 r.code 0 0
  | .lfsrLoad r => mkWord 0x11 r.code 0 0
  | .lfsrRead r => mkWord 0x12 r.code 0 0
  | .lfsrShift r => mkWord 0x13 r.code 0 0
  | .lfsrShifto r b => mkWord 0x14 r.code 0 b.toNat
  | .lfsrFb r => mkWord 0x15 r.code 0 0
  | .lfsrOut r => mkWord 0x16 r.code 0 0
  | .lfsrClk r => mkWord 0x17 r.code 0 0
  | .scSetkey => mkWord 0x20 0 0 0
  | .scInit => mkWord 0x21 0 0 0
  | .scStep => mkWord 0x22 0 0 0
  | .scGen n => mkWord 0x23 0 0 n.toNat
  | .scRun n => mkWord 0x24 0 0 n.toNat
  | .shaInit => mkWord 0x30 0 0 0
  | .shaBlock => mkWord 0x31 0 0 0
  | .shaFinal n => mkWord 0x32 0 0 n.val
  | .shaDigest => mkWord 0x33 0 0 0
  | .shaHash n => mkWord 0x34 0 0 n.toNat
  | .ksSettweak => mkWord 0x40 0 0 0
  | .ksSched bs => mkWord 0x41 0 0 bs.toNat
  | .ksRdrk i => mkWord 0x42 0 0 i.val
  | .ntLd rd n => mkWord 0x50 rd.val 0 n.toNat
  | .ntSt rs => mkWord 0x51 rs.val 0 0
  | .ntXgcd rg rx ry ra rb => mkWord 0x52 rg.val rx.val (lowRegs ry.val ra.val rb.val)
  | .ntModinv rd rn rm => mkWord 0x53 rd.val rn.val (lowRegs rm.val 0 0)
  | .ntCrt rd k => mkWord 0x54 rd.val 0 k.toNat
  | .ntModpow rd rb re rm => mkWord 0x55 rd.val rb.val (lowRegs re.val rm.val 0)
  | .ntFermat rn rounds => mkWord 0x56 rn.val 0 rounds.toNat
  | .ntMr rn rounds => mkWord 0x57 rn.val 0 rounds.toNat
  | .ntGenprime rd bits => mkWord 0x58 rd.val 0 bits.toNat
  | .ntGensafe rp rq bits => mkWord 0x59 rp.val rq.val bits.toNat
  | .ntFindgen rd rp rq => mkWord 0x5A rd.val rp.val (lowRegs rq.val 0 0)

/-- The instruction the decoder reads from a word of spec/opcode_table.json: the bits of the row, any
bit above them zero, laid out as the 4 bytes the port carries and given to the decoder. -/
def decodeTableWord (nbits w : Nat) : Option Instr :=
  match decodeBytes (bytesOfWord (BitVec.ofNat 32 (w % 2 ^ nbits))) with
  | .ok (i, _) => some i
  | .error _ => none

end Sys2Proof
end

