-- ==== Sys2Proof/Machine/Bytes.lean ====
section
/-! DEFINITION. Byte order, bit order and small numeric functions (spec/00_scope.md R9, R10, R12;
20_memory.md R55, R56; 42_hasher.md R149). -/

namespace Sys2Proof.Machine

/-- `be(bytes)`: the number whose big-endian representation is `bytes` (00_scope.md R12). -/
def be (bytes : List Byte) : Nat := bytes.foldl (fun acc b => acc * 256 + b.toNat) 0

/-- `be_n(v)`: the `n`-byte big-endian sequence of `v` (00_scope.md R12). -/
def beN : Nat → Nat → List Byte
  | 0, _ => []
  | n + 1, v => BitVec.ofNat 8 (v / 256 ^ n) :: beN n v

/-- The bits of one byte, bit 7 first (20_memory.md R56). -/
def bitsOfByte (b : Byte) : List Bool :=
  [b.getLsbD 7, b.getLsbD 6, b.getLsbD 5, b.getLsbD 4,
   b.getLsbD 3, b.getLsbD 2, b.getLsbD 1, b.getLsbD 0]

/-- `bitsMSB(bytes)`: byte 0 first, and inside a byte bit 7 first (20_memory.md R56). -/
def bitsMSB (bytes : List Byte) : List Bool := bytes.flatMap bitsOfByte

/-- The byte whose bits, bit 7 first, are the eight given. -/
def byteOfBits (b7 b6 b5 b4 b3 b2 b1 b0 : Bool) : Byte :=
  BitVec.ofNat 8 (128 * b7.toNat + 64 * b6.toNat + 32 * b5.toNat + 16 * b4.toNat
    + 8 * b3.toNat + 4 * b2.toNat + 2 * b1.toNat + b0.toNat)

/-- `bytesMSB(bits)`: the inverse of `bitsMSB`, defined when the bit count is a multiple of 8
(00_scope.md R12). -/
def bytesMSB : List Bool → List Byte
  | b7 :: b6 :: b5 :: b4 :: b3 :: b2 :: b1 :: b0 :: rest =>
    byteOfBits b7 b6 b5 b4 b3 b2 b1 b0 :: bytesMSB rest
  | _ => []

/-- `bitlen(v)`: the least `k` with `v < 2^k` (00_scope.md R10). -/
def bitlen (v : Nat) : Nat := if v = 0 then 0 else Nat.log2 v + 1

/-- `popcount(v)` of a 64-bit pattern (00_scope.md R10). -/
def popcount (v : Word64) : Nat := (List.range 64).countP fun i => v.getLsbD i

/-- `parity(v) = popcount(v) mod 2` (00_scope.md R10). -/
def parity (v : Word64) : Bool := popcount v % 2 == 1

/-- `rotl(x, k)` for a 32-bit word and `0 < k < 32` (00_scope.md R10). -/
def rotl (x : Word32) (k : Nat) : Word32 := (x <<< k) ||| (x >>> (32 - k))

/-- The bytes `from .. from+len-1` of a sequence. -/
def slice (bytes : List Byte) (start len : Nat) : List Byte := (bytes.drop start).take len

/-- One lower-case hexadecimal digit (42_hasher.md R149). -/
def hexDigit (v : Nat) : Char :=
  if v < 10 then Char.ofNat (48 + v) else Char.ofNat (87 + v)

/-- `hex(bytes)`: two digits per byte, high nibble first, byte 0 first (42_hasher.md R149). -/
def hexText (bytes : List Byte) : List Char :=
  bytes.flatMap fun b => [hexDigit (b.toNat / 16), hexDigit (b.toNat % 16)]

end Sys2Proof.Machine
end

