-- ==== Sys2Proof/Config.lean ====
section
/-! DEFINITION. The parameters of the block (spec/00_scope.md R8) and the free values.
The parameters the spec fixes are plain constants. The parameters it leaves OPEN are the fields of
`Config`, which State carries and no step changes (log 6). The free values are opaque: nothing in Lean
can compute one. -/

namespace Sys2Proof

/-- How the 8 bytes of a key word form an integer (43_key_schedule.md R173). The spec reads them
big-endian and asks a model to keep the order as a configuration field (20_memory.md R55; log 7). -/
inductive ByteOrder where
  | big
  | little
deriving DecidableEq, Repr

/-- The OPEN parameters of the block: arguments of the model, fixed for one machine. -/
structure Config where
  /-- `NT_BITS`: the bound of an integer register's magnitude, or unbounded (44_nt_arith.md R191). -/
  ntBits : Option Nat
  /-- `KS_CONST`: the fixed 8-byte constant of the key schedule (43_key_schedule.md R172). -/
  ksConst : Word64
  /-- The byte order of a key word (43_key_schedule.md R173). -/
  ksByteOrder : ByteOrder
deriving DecidableEq, Repr

/-- The defaults the spec names: unbounded, the textbook constant, big-endian (00_scope.md R8). -/
def Config.default : Config :=
  { ntBits := none, ksConst := 0x1BD11BDAA9FC1A22#64, ksByteOrder := .big }

/-- FREE VALUE (00_scope.md R16, 93_implementation_defined.md U3; log 4). The raw answer number `k` of
the random source when no answer was supplied from outside; `Draw(lo, hi)` brings it into `[lo, hi]`. -/
opaque Config.oracle : Nat → Nat

/-- FREE VALUE (10_state.md R31, 93_implementation_defined.md U4; log 5). What the byte at address `a`
of the round-key memory holds while no command has written it. -/
opaque Config.rkUnwritten : Nat → Byte

/-- `LFSR_MAXLEN` (00_scope.md R8). -/
def lfsrMaxLen : Nat := 64

/-- `CRT_MAX` (00_scope.md R8). -/
def crtMax : Nat := 8

/-- The number of Miller-Rabin rounds inside prime generation (45_nt_primes.md R226, R228). -/
def genRounds : Nat := 128

/-- The number of round-key vectors (43_key_schedule.md R174). -/
def ksRounds : Nat := 20

/-- The size of the round-key memory in bytes (20_memory.md R50). -/
def rkSize : Nat := 2560

end Sys2Proof
end

