-- ==== Sys2Proof/Machine/State.lean ====
section
/-! DEFINITION. The state of CRYPTOCORE as plain data (spec/10_state.md), the transaction-level state
of its command port (00_scope.md R7, 20_memory.md R50), the random source's answers (00_scope.md R16),
the reasons a step can stop, and the reset state (10_state.md R44). -/

namespace Sys2Proof.Machine

/-- One shift register with its configuration (10_state.md R22). -/
structure Lfsr where
  /-- `LEN`, 1..64 -/
  len : BitVec 7
  /-- `TAPS`: bit `i` set means index `i` is in the tap set -/
  taps : Word64
  /-- `CLKIDX`, the clocking bit index -/
  clkidx : BitVec 6
  /-- `OUTIDX`, the output tap -/
  outidx : BitVec 6
  /-- `S`, the contents: bit `i` is the bit at index `i` -/
  s : Word64
deriving DecidableEq, Repr

/-- The three shift registers (10_state.md R22). -/
structure Lfsrs where
  l0 : Lfsr
  l1 : Lfsr
  l2 : Lfsr
deriving DecidableEq, Repr

/-- The five 32-bit accumulators `H0..H4` (10_state.md R27). -/
structure Accum where
  h0 : Word32
  h1 : Word32
  h2 : Word32
  h3 : Word32
  h4 : Word32
deriving DecidableEq, Repr

/-- The four legal values of `WPB` (10_state.md R31; log 13). -/
inductive Wpb where
  | w0 | w4 | w8 | w16
deriving DecidableEq, Repr

/-- Byte-addressed memory in canonical form: cells with strictly rising addresses, each in
`0..rkSize-1` (see `Memory.wf`). An address that is not listed holds nothing that a command wrote. -/
abbrev Memory := List Host.Cell

/-- What a completed command hands to the host (30_encoding.md R83). -/
structure Reply where
  /-- the status word (30_encoding.md R84) -/
  status : Word32
  /-- the response bytes, the address space RSP (20_memory.md R52) -/
  response : List Byte
deriving DecidableEq, Repr

/-- What the host can do to the block (00_scope.md R6, 70_reset_and_hazards.md R290; log 1, log 8). -/
inductive Event where
  /-- issue a command word with a payload -/
  | command (word : Word32) (payload : List Byte)
  /-- assert and release the hard reset input -/
  | hardReset
deriving DecidableEq, Repr

/-- The answers of the random source (00_scope.md R16; log 4). -/
structure Source where
  /-- answers supplied from outside the machine, the next one first -/
  script : List Nat
  /-- how many answers have been given: the counter of the free value `Config.oracle` -/
  count : Nat
deriving DecidableEq, Repr

/-- The whole state. The first groups are the tuple at the head of spec/10_state.md, unit by unit; the
last group is the model's: parameters, port and random source (log 1 to log 6). -/
structure State where
  /-- LFSR unit: `LEN`, `TAPS`, `CLKIDX`, `OUTIDX`, `S` of the three registers (R22) -/
  lfsr : Lfsrs
  /-- SC unit: `KEY` (R25) -/
  key : Word64
  /-- `KEYVALID` (R25) -/
  keyValid : Bool
  /-- `SC_READY` (R26) -/
  scReady : Bool
  /-- SHA unit: `H[0..4]` (R27) -/
  h : Accum
  /-- `HLEN` (R28) -/
  hlen : Word64
  /-- KS unit: `TWEAK[0]` (R30) -/
  tweak0 : Word64
  /-- `TWEAK[1]` (R30) -/
  tweak1 : Word64
  /-- `WPB` (R31) -/
  wpb : Wpb
  /-- `KW[0..16]` (R31) -/
  kw : Vector Word64 17
  /-- `RK`, the round-key memory (R31, 20_memory.md R50) -/
  rk : Memory
  /-- `RKVALID` (R31) -/
  rkValid : Bool
  /-- NT unit: `N[0..15]` (R33) -/
  n : Vector Int 16
  /-- `RETRY_LIMIT` (R36) -/
  retryLimit : Word32
  /-- SYS: `LASTERR` (R37) -/
  lastErr : BitVec 7
  /-- the OPEN parameters, fixed for one machine (00_scope.md R8) -/
  cfg : Config
  /-- the host's events that have not been taken yet, the next one first -/
  port : List Event
  /-- `PAY`, the payload of the running command; empty between commands (20_memory.md R50, R51) -/
  pay : List Byte
  /-- the status word and response of the last completed command, none before the first -/
  reply : Option Reply
  /-- the random source -/
  src : Source
deriving DecidableEq, Repr

/-- Reasons the machine stops with a fault. -/
inductive Fault where
  /-- An access to the round-key memory outside its 2560 bytes (20_memory.md R50). Raised by the shared
  read of that memory; no command forms such an address (law `rkLoad_row`), so no step raises it. Safe. -/
  | rkAddress
deriving DecidableEq, Repr

/-- Reasons a step has no meaning. -/
inductive Refusal where
  /-- The instruction named has no meaning in this model. Raised by no arm. Safe. -/
  | notModelled (mnemonic : String)
  /-- An ill-formed transaction: the payload length is not `PLEN`, or an illegal word carries a payload
  (20_memory.md R59, 70_reset_and_hazards.md R299: the block has no step for it). Raised by every command
  and by the handling of illegal words. Safe: the spec itself gives no step. -/
  | payloadLength
deriving DecidableEq, Repr

/-! ## Reset values (10_state.md R24, R27, R44) -/

/-- The reset configuration of the three shift registers (10_state.md R24). -/
def Lfsrs.reset : Lfsrs :=
  { l0 := { len := 19#7, taps := 0x72000#64, clkidx := 8#6, outidx := 18#6, s := 0#64 }
    l1 := { len := 22#7, taps := 0x300000#64, clkidx := 10#6, outidx := 21#6, s := 0#64 }
    l2 := { len := 23#7, taps := 0x700080#64, clkidx := 10#6, outidx := 22#6, s := 0#64 } }

/-- The initial accumulators (10_state.md R27, 42_hasher.md R141). -/
def Accum.reset : Accum :=
  { h0 := 0x67452301#32, h1 := 0xEFCDAB89#32, h2 := 0x98BADCFE#32, h3 := 0x10325476#32
    h4 := 0xC3D2E1F0#32 }

/-- The machine right after a power-on reset (10_state.md R44): nothing issued yet, the parameters at
the defaults the spec names (log 6), the random source with no answer given (log 4). -/
def State.reset : State :=
  { lfsr := Lfsrs.reset
    key := 0#64
    keyValid := false
    scReady := false
    h := Accum.reset
    hlen := 0#64
    tweak0 := 0#64
    tweak1 := 0#64
    wpb := .w0
    kw := Vector.replicate 17 0#64
    rk := []
    rkValid := false
    n := Vector.replicate 16 0
    retryLimit := 4096#32
    lastErr := 0#7
    cfg := Config.default
    port := []
    pay := []
    reply := none
    src := { script := [], count := 0 } }

end Sys2Proof.Machine
end

