-- ==== Sys2Proof/Machine/Flags.lean ====
section
/-! DEFINITION. Error codes, the status word and the sequencing flags (spec/30_encoding.md R84, R86;
10_state.md R39, R42). The block has no flag register: the two result bits ERR and BIT live in the
status word, the three state bits KEYVALID, SC_READY, RKVALID in State. -/

namespace Sys2Proof.Machine

/-- The errors of the block (30_encoding.md R86, 60_exceptions.md R262 to R268). -/
inductive Err where
  | illegal
  | state
  | precond
  | range
  | noinv
  | genfail
deriving DecidableEq, Repr

/-- The 7-bit code of an error (30_encoding.md R86); 0 is success. -/
def Err.code : Err → BitVec 7
  | .illegal => 1#7
  | .state => 2#7
  | .precond => 3#7
  | .range => 4#7
  | .noinv => 5#7
  | .genfail => 6#7

/-- The status word (30_encoding.md R84): ERR 31, CODE 30:24, zero 23:17, BIT 16, RLEN 15:0. -/
def statusWord (code : BitVec 7) (bit : Bool) (rlen : Nat) : Word32 :=
  BitVec.ofNat 32 ((code != 0#7).toNat * 2 ^ 31 + code.toNat * 2 ^ 24 + bit.toNat * 2 ^ 16
    + rlen % 2 ^ 16)

/-- `WPB` as a number (10_state.md R31). -/
def Wpb.toNat : Wpb → Nat
  | .w0 => 0
  | .w4 => 4
  | .w8 => 8
  | .w16 => 16

/-- The image of the STATUS register (10_state.md R42): bit 0 KEYVALID, bit 1 SC_READY, bit 2 RKVALID,
bits 12:8 WPB. -/
def statusImage (s : State) : Word64 :=
  BitVec.ofNat 64 (s.keyValid.toNat + 2 * s.scReady.toNat + 4 * s.rkValid.toNat + 256 * s.wpb.toNat)

end Sys2Proof.Machine
end

