-- ==== Sys2Proof/Machine/Memory.lean ====
section
/-! DEFINITION. The round-key memory RK as byte cells in canonical form (spec/20_memory.md R50, R53).
An address that is not listed holds nothing a command wrote; reading it gives no value here, and the
free value `Config.rkUnwritten` in the one read form of RK (log 5). -/

namespace Sys2Proof.Machine

/-- The addresses rise strictly. -/
def Memory.rising : Memory → Bool
  | [] => true
  | [_] => true
  | c :: d :: rest => decide (c.1 < d.1) && Memory.rising (d :: rest)

/-- The canonical form: strictly rising addresses, all of them addresses of RK. -/
def Memory.wf (m : Memory) : Bool := Memory.rising m && m.all fun c => decide (c.1 < rkSize)

/-- The byte a command wrote at an address, if one did. -/
def Memory.read (m : Memory) (a : Nat) : Option Byte := (m.find? fun c => c.1 == a).map fun c => c.2

/-- The cells of a byte sequence laid from address `a` up. -/
def Memory.cells : Nat → List Byte → Memory
  | _, [] => []
  | a, b :: rest => (a, b) :: Memory.cells (a + 1) rest

/-- `MemWrite(RK, a, n, v)`: the bytes `v` from address `a` up, every other cell kept
(00_scope.md R12). -/
def Memory.write (m : Memory) (a : Nat) (v : List Byte) : Memory :=
  (m.filter fun c => decide (c.1 < a)) ++ Memory.cells a v
    ++ m.filter fun c => decide (a + v.length ≤ c.1)

/-- One byte of RK: what was written there, else the free value of its reset content
(10_state.md R31, 93_implementation_defined.md U4). -/
def rkByte (m : Memory) (a : Nat) : Byte :=
  match m.read a with
  | some b => b
  | none => Config.rkUnwritten a

/-- `MemRead(RK, a, n)` (20_memory.md R53); an address outside RK does not exist. -/
def rkLoad (m : Memory) (a n : Nat) : Except Fault (List Byte) :=
  if a + n ≤ rkSize then .ok ((List.range n).map fun j => rkByte m (a + j)) else .error .rkAddress

end Sys2Proof.Machine
end

