-- ==== Sys2Proof/Machine/Operands.lean ====
section
/-! DEFINITION. Every operand form: payload fields (spec/30_encoding.md R81), LFSR selectors and integer
registers (R74), and the register number space (10_state.md R42, 46_sys.md R253, R254). -/

namespace Sys2Proof.Machine

/-! ## Payload fields -/

/-- The payload byte at an offset, as a number. -/
def State.payByte (s : State) (a : Nat) : Nat := (s.pay.getD a 0#8).toNat

/-- The big-endian number in the payload bytes `a .. a+len-1`. -/
def State.payNat (s : State) (a len : Nat) : Nat := be (slice s.pay a len)

/-! ## LFSR selectors -/

/-- The selected shift register. -/
def Lfsrs.get (ls : Lfsrs) : LfsrSel → Lfsr
  | .l0 => ls.l0
  | .l1 => ls.l1
  | .l2 => ls.l2

/-- The three registers with the selected one replaced. -/
def Lfsrs.set (ls : Lfsrs) (r : LfsrSel) (x : Lfsr) : Lfsrs :=
  match r with
  | .l0 => { ls with l0 := x }
  | .l1 => { ls with l1 := x }
  | .l2 => { ls with l2 := x }

/-- The same change made to all three registers. -/
def Lfsrs.each (ls : Lfsrs) (f : Lfsr → Lfsr) : Lfsrs := { l0 := f ls.l0, l1 := f ls.l1, l2 := f ls.l2 }

/-! ## Integer registers -/

/-- `x[i]` (00_scope.md R12): the value of integer register `N[i]`. -/
def State.x (s : State) (i : NReg) : Int := s.n[i]

/-- The state with `N[i]` replaced. -/
def State.setN (s : State) (i : NReg) (v : Int) : State := { s with n := s.n.set i v }

/-- The value fits an integer register (44_nt_arith.md R191). -/
def fits (cfg : Config) (v : Int) : Bool :=
  match cfg.ntBits with
  | none => true
  | some b => decide (v.natAbs < 2 ^ b)

/-! ## Accumulators -/

/-- `H[j]`. -/
def Accum.get (h : Accum) (j : Fin 5) : Word32 :=
  match j with
  | 0 => h.h0
  | 1 => h.h1
  | 2 => h.h2
  | 3 => h.h3
  | 4 => h.h4

/-- The accumulators with `H[j]` replaced. -/
def Accum.set (h : Accum) (j : Fin 5) (v : Word32) : Accum :=
  match j with
  | 0 => { h with h0 := v }
  | 1 => { h with h1 := v }
  | 2 => { h with h2 := v }
  | 3 => { h with h3 := v }
  | 4 => { h with h4 := v }

/-! ## The register number space -/

/-- `TWEAK2`, a function of the two tweak words (10_state.md R30). -/
def State.tweak2 (s : State) : Word64 := s.tweak0 + s.tweak1

/-- The 64-bit image of a register, narrower elements zero-extended (10_state.md R42, 46_sys.md R253). -/
def regRead (s : State) : Reg → Word64
  | .status => statusImage s
  | .lastErr => s.lastErr.setWidth 64
  | .retryLimit => s.retryLimit.setWidth 64
  | .lfsrLen r => (s.lfsr.get r).len.setWidth 64
  | .lfsrTaps r => (s.lfsr.get r).taps
  | .lfsrClkidx r => (s.lfsr.get r).clkidx.setWidth 64
  | .lfsrOutidx r => (s.lfsr.get r).outidx.setWidth 64
  | .lfsrState r => (s.lfsr.get r).s
  | .key => s.key
  | .h j => (s.h.get j).setWidth 64
  | .hlen => s.hlen
  | .tweak0 => s.tweak0
  | .tweak1 => s.tweak1
  | .tweak2 => s.tweak2
  | .kw j => s.kw[j]

/-- The register is 32 bits wide, so a write of `2^32` or more is refused (10_state.md R43). -/
def regNarrow : Reg → Bool
  | .retryLimit | .h _ => true
  | .status | .lastErr | .lfsrLen _ | .lfsrTaps _ | .lfsrClkidx _ | .lfsrOutidx _ | .lfsrState _
  | .key | .hlen | .tweak0 | .tweak1 | .tweak2 | .kw _ => false

/-- `MemWrite(REG, num, v)` for a writable register and a value in range; a tweak write also clears
RKVALID (46_sys.md R254). A read-only register has no write: it stays as it is. -/
def regWrite (s : State) (num : Reg) (v : Nat) : State :=
  match num with
  | .retryLimit => { s with retryLimit := BitVec.ofNat 32 v }
  | .h j => { s with h := s.h.set j (BitVec.ofNat 32 v) }
  | .hlen => { s with hlen := BitVec.ofNat 64 v }
  | .tweak0 => { s with tweak0 := BitVec.ofNat 64 v, rkValid := false }
  | .tweak1 => { s with tweak1 := BitVec.ofNat 64 v, rkValid := false }
  | .status | .lastErr | .lfsrLen _ | .lfsrTaps _ | .lfsrClkidx _ | .lfsrOutidx _ | .lfsrState _
  | .key | .tweak2 | .kw _ => s

end Sys2Proof.Machine
end

