-- ==== Sys2Proof/Machine/Ops.lean ====
section
/-! DEFINITION. The shared operations every meaning is written with: taking a transaction, ending a
command with success or with an error, writing integer registers, drawing from the random source,
resetting. -/

namespace Sys2Proof.Machine

/-- What one step answers. -/
abbrev Answer := Host.Outcome State Fault Refusal

/-! ## The command port -/

/-- The block takes a command off the port: its payload becomes PAY (20_memory.md R51). -/
def State.take (s : State) (payload : List Byte) (rest : List Event) : State :=
  { s with port := rest, pay := payload }

/-- A command has a step only when the payload length is `PLEN` (20_memory.md R59). -/
def transact (plen : Nat) (s : State) (body : Answer) : Answer :=
  if s.pay.length = plen then body else .refused .payloadLength

/-- The end of every command: LASTERR, the status word and the response (10_state.md R37,
30_encoding.md R83, R84); the payload is gone (20_memory.md R50). -/
def State.finish (s : State) (code : BitVec 7) (bit : Bool) (response : List Byte) : State :=
  { s with
    lastErr := code
    pay := []
    reply := some { status := statusWord code bit response.length, response := response } }

/-- A command that ends without error: `return BIT=b` and `return bytes` (00_scope.md R12). -/
def complete (bit : Bool) (response : List Byte) (s : State) : Answer :=
  .next (s.finish 0#7 bit response)

/-- TAKING AN EXCEPTION: `raise E_X` (60_exceptions.md R265). Nothing changes but LASTERR; the status word
reports the code, BIT is 0 and the response is empty. No state is saved, no mode changes and control
goes nowhere (R272); there is no return from an error (R273), so no operation stands beside this one. -/
def raise (e : Err) (s : State) : Answer := .next (s.finish e.code false [])

/-- An illegal command word: no payload, no state read, E_ILLEGAL (30_encoding.md R88). -/
def illegalWord (s : State) : Answer := transact 0 s (raise .illegal s)

/-- The block with no command issued holds its state (60_exceptions.md R281, 70_reset_and_hazards.md
R291). -/
def idle (s : State) : Answer := .next s

/-! ## Reset (10_state.md R44, 70_reset_and_hazards.md R290) -/

/-- Every state element of the block at its reset value. The parameters, the port and the random source
are not state of the block and stay (log 8, log 12). -/
def State.resetBlock (s : State) : State :=
  { State.reset with
    cfg := s.cfg
    port := s.port
    src := s.src }

/-- The hard reset input: the reset state, and no status word (70_reset_and_hazards.md R292). -/
def hardReset (s : State) : Answer := .next s.resetBlock

/-! ## Writing integer registers (44_nt_arith.md R191, R192) -/

/-- Write all destinations together, in the order given. -/
def State.writeN (s : State) (dests : List (NReg × Int)) : State :=
  dests.foldl (fun t d => t.setN d.1 d.2) s

/-- Steps (4) and (5) of R192: the range check of every destination, then all writes. -/
def writeBack (dests : List (NReg × Int)) (s : State) : Answer :=
  if dests.all fun d => fits s.cfg d.2 then complete false [] (s.writeN dests)
  else raise .range s

/-! ## The random source (00_scope.md R16) -/

/-- The next raw answer: the one supplied from outside, or the free value of the oracle (log 4). -/
def Source.raw (src : Source) : Nat :=
  match src.script with
  | d :: _ => d
  | [] => Config.oracle src.count

/-- The source after one answer. -/
def Source.next (src : Source) : Source :=
  { script := src.script.tail, count := src.count + 1 }

/-- A raw answer as a number of `[lo, hi]`: itself when it lies there, else folded into the interval. -/
def answerIn (lo hi raw : Nat) : Nat :=
  if lo ≤ raw ∧ raw ≤ hi then raw else lo + raw % (hi - lo + 1)

/-- `Draw(lo, hi)`, used with `lo ≤ hi` only: the answer and the source after it. -/
def draw (lo hi : Nat) (src : Source) : Nat × Source := (answerIn lo hi src.raw, src.next)

end Sys2Proof.Machine
end

