-- ==== Sys2Proof/Machine/Ks.lean ====
section
/-! DEFINITION. The key-schedule unit (spec/43_key_schedule.md): the schedule as a pure function of the
key, the tweaks and the parameters, and the three commands. -/

namespace Sys2Proof.Machine

/-! ## The schedule (43_key_schedule.md R172, R173, R174) -/

/-- The integer value of an 8-byte key word under the configured byte order (R173; log 7). -/
def keyWordValue (order : ByteOrder) (bytes : List Byte) : Word64 :=
  match order with
  | .big => BitVec.ofNat 64 (be bytes)
  | .little => BitVec.ofNat 64 (be bytes.reverse)

/-- Key word `j` of a key (R173). -/
def keyWord (cfg : Config) (key : List Byte) (j : Nat) : Word64 :=
  keyWordValue cfg.ksByteOrder (slice key (8 * j) 8)

/-- The parity word: the constant XORed with every key word (R172). -/
def parityWord (cfg : Config) (key : List Byte) (wpb : Nat) : Word64 :=
  (List.range wpb).foldl (fun p j => p ^^^ keyWord cfg key j) cfg.ksConst

/-- The extended key-word list `kw[0..wpb]`, and 0 beyond it as KW holds it (R175). -/
def extWord (cfg : Config) (key : List Byte) (wpb j : Nat) : Word64 :=
  if j < wpb then keyWord cfg key j
  else if j = wpb then parityWord cfg key wpb
  else 0#64

/-- `KW[0..16]` from its entries. -/
def kwVector (f : Nat → Word64) : Vector Word64 17 :=
  #v[f 0, f 1, f 2, f 3, f 4, f 5, f 6, f 7, f 8, f 9, f 10, f 11, f 12, f 13, f 14, f 15, f 16]

/-- `KW[j]` by number, 0 outside 0..16. -/
def kwAt (kw : Vector Word64 17) (j : Nat) : Word64 := kw.toArray.toList.getD j 0#64

/-- `T[j mod 3]`: the two tweaks and their sum modulo `2^64` (R174). -/
def tweakAt (t0 t1 : Word64) (j : Nat) : Word64 :=
  match j % 3 with
  | 0 => t0
  | 1 => t1
  | _ => t0 + t1

/-- A sum masked to 8 bits, kept as a 64-bit entry (R174, R178). -/
def masked (a b : Nat) : Word64 := BitVec.ofNat 64 ((a + b) % 256)

/-- Entry `k` of round-key vector `i`; entries from `wpb` on are 0 (R174, R175). -/
def roundEntry (kw : Vector Word64 17) (wpb : Nat) (t0 t1 : Word64) (i k : Nat) : Word64 :=
  let word := kwAt kw ((i + k) % (wpb + 1))
  if k + 3 < wpb then word
  else if k + 3 = wpb then masked word.toNat (tweakAt t0 t1 i).toNat
  else if k + 2 = wpb then masked word.toNat (tweakAt t0 t1 (i + 1)).toNat
  else if k + 1 = wpb then masked word.toNat i
  else 0#64

/-- The 2560 bytes of RK: entry `k` of vector `i` at address `128*i + 8*k`, big-endian
(20_memory.md R50, R53). -/
def rkBytes (kw : Vector Word64 17) (wpb : Nat) (t0 t1 : Word64) : List Byte :=
  (List.range ksRounds).flatMap fun i =>
    (List.range 16).flatMap fun k => beN 8 (roundEntry kw wpb t0 t1 i k).toNat

/-- The block sizes of 43_key_schedule.md R170 as words per block. -/
def wpbOfSize (bs : Nat) : Option Wpb :=
  if bs = 32 then some .w4
  else if bs = 64 then some .w8
  else if bs = 128 then some .w16
  else none

/-! ## Commands -/

/-- `KS.SETTWEAK` (43_key_schedule.md R171). -/
def execKsSettweak (s : State) : Answer :=
  transact 16 s
    (complete false []
      { s with
        tweak0 := BitVec.ofNat 64 (s.payNat 0 8)
        tweak1 := BitVec.ofNat 64 (s.payNat 8 8)
        rkValid := false })

/-- The state with the schedule of the payload's key stored (43_key_schedule.md R175). -/
def State.scheduled (s : State) (w : Wpb) : State :=
  let kw := kwVector (extWord s.cfg s.pay w.toNat)
  { s with
    wpb := w
    kw := kw
    rk := s.rk.write 0 (rkBytes kw w.toNat s.tweak0 s.tweak1)
    rkValid := true }

/-- `KS.SCHED bs` (43_key_schedule.md R175). -/
def execKsSched (bs : BitVec 16) (s : State) : Answer :=
  transact bs.toNat s
    (match wpbOfSize bs.toNat with
    | none => raise .precond s
    | some w => complete false [] (s.scheduled w))

/-- `KS.RDRK i` (43_key_schedule.md R176). -/
def execKsRdrk (i : Fin 20) (s : State) : Answer :=
  transact 0 s
    (if s.rkValid then
      match rkLoad s.rk (128 * i.val) (8 * s.wpb.toNat) with
      | .ok bytes => complete false bytes s
      | .error f => .fault f
    else raise .state s)

end Sys2Proof.Machine
end

