-- ==== Sys2Proof/Machine/Nt.lean ====
section
/-! DEFINITION. The number-theory unit, deterministic arithmetic (spec/44_nt_arith.md). The loops are
structural recursion on a fuel that is never used up (log 22). Machine/NtSanity.lean says the properties of
R203, letter by letter, of the six commands here. -/

namespace Sys2Proof.Machine

/-! ## Extended GCD (44_nt_arith.md R195) -/

/-- The loop of R195: returns `(r0, s0, t0)` when `r1 = 0`. -/
def xgcdLoop : Nat → Int → Int → Int → Int → Int → Int → Int × Int × Int
  | 0, r0, _, s0, _, t0, _ => (r0, s0, t0)
  | fuel + 1, r0, r1, s0, s1, t0, t1 =>
    if r1 = 0 then (r0, s0, t0)
    else
      let q := r0 / r1
      xgcdLoop fuel r1 (r0 - q * r1) s1 (s0 - q * s1) t1 (t0 - q * t1)

/-- `xgcd(a, b)` for `a, b >= 0` (44_nt_arith.md R195, R203 (a)); the remainder falls by 1 or more at each
iteration. -/
def xgcd (a b : Int) : Int × Int × Int := xgcdLoop (b.toNat + 1) a b 1 0 0 1

/-! ## Chinese remainders (44_nt_arith.md R199) -/

/-- The sum over the pairs (residue, modulus) of a system whose modulus product is `m`, or none where
a modulus shares a factor with the rest. -/
def crtSum (m : Int) : List (Int × Int) → Int → Option Int
  | [], acc => some acc
  | (a, mi) :: rest, acc =>
    let big := m / mi
    let g := xgcd big mi
    if g.1 = 1 then crtSum m rest (acc + a * big * g.2.1) else none

/-- The product of the moduli. -/
def modProduct (ms : List Int) : Int := ms.foldl (fun p m => p * m) 1

/-- `crt(a, m)` (44_nt_arith.md R199, R203 (c)): the residue in `[0, M)`, or none when the moduli are not
pairwise coprime. -/
def crt (residues moduli : List Int) : Option Int :=
  (crtSum (modProduct moduli) (residues.zip moduli) 0).map fun acc => acc % modProduct moduli

/-! ## Modular exponentiation (44_nt_arith.md R201) -/

/-- The square-and-multiply loop, least significant exponent bit first. -/
def modpowLoop : Nat → Nat → Nat → Nat → Nat → Nat
  | 0, _, _, _, result => result
  | fuel + 1, m, e, base, result =>
    if e = 0 then result
    else
      modpowLoop fuel m (e / 2) (base * base % m)
        (if e % 2 = 1 then result * base % m else result)

/-- `modpow(b, e, m)` for `m >= 1` (44_nt_arith.md R201, R203 (d)); one iteration per exponent bit. -/
def modpow (b : Int) (e m : Nat) : Nat := modpowLoop (bitlen e) m e (b % (m : Int)).toNat (1 % m)

/-! ## Commands -/

/-- `NT.LD rd, n` (44_nt_arith.md R193). -/
def execNtLd (rd : NReg) (n : BitVec 16) (s : State) : Answer :=
  transact (1 + n.toNat) s
    (let mag : Int := s.payNat 1 n.toNat
    if s.payByte 0 = 0 then writeBack [(rd, mag)] s
    else if s.payByte 0 = 1 then writeBack [(rd, -mag)] s
    else raise .precond s)

/-- The number of magnitude bytes of an integer: `ceil(bitlen(abs(v)) / 8)` (44_nt_arith.md R194). -/
def magBytes (v : Int) : Nat := (bitlen v.natAbs + 7) / 8

/-- The response of `NT.ST`: a sign byte, then the magnitude without a leading zero byte
(30_encoding.md R82). -/
def intBytes (v : Int) : List Byte := (if v < 0 then 1#8 else 0#8) :: beN (magBytes v) v.natAbs

/-- `NT.ST rs` (44_nt_arith.md R194). -/
def execNtSt (rs : NReg) (s : State) : Answer :=
  transact 0 s
    (if 65535 < 1 + magBytes (s.x rs) then raise .range s
    else complete false (intBytes (s.x rs)) s)

/-- `NT.XGCD rg, rx, ry, ra, rb` (44_nt_arith.md R196, R203 (a)). Equal destinations are no legal encoding
(30_encoding.md R88 (h)). -/
def execNtXgcd (rg rx ry ra rb : NReg) (s : State) : Answer :=
  if rg = rx ∨ rg = ry ∨ rx = ry then illegalWord s
  else
    transact 0 s
      (if s.x ra < 0 ∨ s.x rb < 0 then raise .precond s
      else
        let r := xgcd (s.x ra) (s.x rb)
        writeBack [(rg, r.1), (rx, r.2.1), (ry, r.2.2)] s)

/-- `NT.MODINV rd, rn, rm` (44_nt_arith.md R198, R203 (b)): the coefficient is written unreduced. Without an
inverse there is no result to range-check, so E_NOINV and E_RANGE never compete. -/
def execNtModinv (rd rn rm : NReg) (s : State) : Answer :=
  transact 0 s
    (if s.x rn < 0 ∨ s.x rm < 1 then raise .precond s
    else
      let r := xgcd (s.x rn) (s.x rm)
      if r.1 = 1 then writeBack [(rd, r.2.1)] s else raise .noinv s)

/-- The residues `N[0..k-1]` of `NT.CRT` (44_nt_arith.md R200). -/
def crtResidues (s : State) (k : Nat) : List Int := (List.range k).map fun i => s.x (nreg i)

/-- The moduli `N[8..8+k-1]` of `NT.CRT` (44_nt_arith.md R200). -/
def crtModuli (s : State) (k : Nat) : List Int := (List.range k).map fun i => s.x (nreg (8 + i))

/-- `NT.CRT rd, k` (44_nt_arith.md R200, R203 (c)). A count outside 1..8 is no legal encoding
(30_encoding.md R88 (g)). -/
def execNtCrt (rd : NReg) (k : BitVec 16) (s : State) : Answer :=
  if k.toNat < 1 ∨ crtMax < k.toNat then illegalWord s
  else
    transact 0 s
      (if (crtModuli s k.toNat).any fun m => decide (m < 1) then raise .precond s
      else
        match crt (crtResidues s k.toNat) (crtModuli s k.toNat) with
        | none => raise .precond s
        | some v => writeBack [(rd, v)] s)

/-- `NT.MODPOW rd, rb, re, rm` (44_nt_arith.md R202, R203 (d)). -/
def execNtModpow (rd rb re rm : NReg) (s : State) : Answer :=
  transact 0 s
    (if s.x rm < 1 then raise .precond s
    else if s.x re < 0 then raise .precond s
    else writeBack [(rd, (modpow (s.x rb) (s.x re).toNat (s.x rm).toNat : Int))] s)

end Sys2Proof.Machine
end

