-- ==== Sys2Proof/Machine/NtPrimes.lean ====
section
/-! DEFINITION. The number-theory unit, primality tests and generators (spec/45_nt_primes.md). Every
function that draws takes the random source and answers it back, advanced by the draws it made, in the
order of the pseudocode (R220). -/

namespace Sys2Proof.Machine

/-! ## Primality tests -/

/-- The rounds of a test with witnesses drawn from `[2, n-2]`, stopping at the first failing one. -/
def witnessRounds (pass : Nat → Bool) (n : Nat) : Nat → Source → Bool × Source
  | 0, src => (true, src)
  | k + 1, src =>
    let d := draw 2 (n - 2) src
    if pass d.1 then witnessRounds pass n k d.2 else (false, d.2)

/-- The shortcuts both tests share (R221, R224): below 2, then 2 and 3, then even numbers, all without
a draw; otherwise the rounds. -/
def primalityTest (pass : Nat → Nat → Bool) (v : Int) (rounds : Nat) (src : Source) : Bool × Source :=
  if v < 2 then (false, src)
  else if v = 2 ∨ v = 3 then (true, src)
  else if v % 2 = 0 then (false, src)
  else witnessRounds (pass v.toNat) v.toNat rounds src

/-- One round of the Fermat test (R221). -/
def fermatPass (n a : Nat) : Bool := modpow a (n - 1) n == 1

/-- `fermat(n, rounds)` (45_nt_primes.md R221). -/
def fermat (v : Int) (rounds : Nat) (src : Source) : Bool × Source :=
  primalityTest fermatPass v rounds src

/-- The pair `(r, t)` with `m = 2^r * t` and `t` odd, for `m >= 1` and enough fuel. -/
def twoPart : Nat → Nat → Nat × Nat
  | 0, m => (0, m)
  | fuel + 1, m =>
    if m % 2 = 1 then (0, m)
    else
      let p := twoPart fuel (m / 2)
      (p.1 + 1, p.2)

/-- The squared-sequence condition: one of the next `k` squares of `x` is `n - 1` (R224). -/
def squaresHit (n : Nat) : Nat → Nat → Bool
  | 0, _ => false
  | k + 1, x =>
    let y := x * x % n
    y == n - 1 || squaresHit n k y

/-- One round of the Miller-Rabin test (R224): the direct condition or the squared sequence. -/
def mrPass (n a : Nat) : Bool :=
  let p := twoPart (bitlen (n - 1)) (n - 1)
  let x := modpow a p.2 n
  x == 1 || x == n - 1 || squaresHit n (p.1 - 1) x

/-- `mr(n, rounds)` (45_nt_primes.md R224). -/
def mr (v : Int) (rounds : Nat) (src : Source) : Bool × Source := primalityTest mrPass v rounds src

/-! ## The retry frame (45_nt_primes.md R225) -/

/-- At most `limit` tries: draw a candidate, test it, answer the first accepted one. -/
def retry (candidate : Source → Nat × Source) (accept : Nat → Source → Bool × Source) :
    Nat → Source → Option Nat × Source
  | 0, src => (none, src)
  | k + 1, src =>
    let c := candidate src
    let a := accept c.1 c.2
    if a.1 then (some c.1, a.2) else retry candidate accept k a.2

/-- `cand(w)` (45_nt_primes.md R229): a drawn number with its top and bottom bits forced to 1. -/
def cand (w : Nat) (src : Source) : Nat × Source :=
  let d := draw 0 (2 ^ w - 1) src
  (d.1 ||| 2 ^ (w - 1) ||| 1, d.2)

/-- The acceptance test of `NT.GENSAFE`: `q`, and only if it passed, `2q + 1` (R228). -/
def safeAccept (q : Nat) (src : Source) : Bool × Source :=
  let first := mr q genRounds src
  if first.1 then mr (2 * (q : Int) + 1) genRounds first.2 else first

/-- The acceptance test of `NT.FINDGEN` (R230); it draws nothing. -/
def genAccept (p q : Nat) (a : Nat) (src : Source) : Bool × Source :=
  (modpow a ((p - 1) / 2) p != 1 && modpow a ((p - 1) / q) p != 1, src)

/-- A bit length is beyond a finite `NT_BITS` (45_nt_primes.md R226, R228). -/
def bitsBeyond (cfg : Config) (bits : Nat) : Bool :=
  match cfg.ntBits with
  | none => false
  | some b => decide (b < bits)

/-- The end of a generation command: the results are written, or E_GENFAIL. The draws made are consumed
either way (45_nt_primes.md R225). -/
def generated (out : Option Nat × Source) (dests : Nat → List (NReg × Int)) (s : State) : Answer :=
  match out.1 with
  | some c => writeBack (dests c) { s with src := out.2 }
  | none => raise .genfail { s with src := out.2 }

/-! ## Commands -/

/-- `NT.FERMAT rn, rounds` (45_nt_primes.md R222). -/
def execNtFermat (rn : NReg) (rounds : BitVec 16) (s : State) : Answer :=
  transact 0 s
    (if rounds.toNat = 0 then raise .precond s
    else
      let v := fermat (s.x rn) rounds.toNat s.src
      complete v.1 [] { s with src := v.2 })

/-- `NT.MR rn, rounds` (45_nt_primes.md R223). -/
def execNtMr (rn : NReg) (rounds : BitVec 16) (s : State) : Answer :=
  transact 0 s
    (if rounds.toNat = 0 then raise .precond s
    else
      let v := mr (s.x rn) rounds.toNat s.src
      complete v.1 [] { s with src := v.2 })

/-- `NT.GENPRIME rd, bits` (45_nt_primes.md R226). -/
def execNtGenprime (rd : NReg) (bits : BitVec 16) (s : State) : Answer :=
  transact 0 s
    (if bits.toNat = 0 then raise .precond s
    else if bitsBeyond s.cfg bits.toNat then raise .range s
    else
      generated
        (retry (cand bits.toNat) (fun c src => mr c genRounds src) s.retryLimit.toNat s.src)
        (fun c => [(rd, (c : Int))]) s)

/-- `NT.GENSAFE rp, rq, bits` (45_nt_primes.md R228). Equal destinations are no legal encoding
(30_encoding.md R88 (h)). -/
def execNtGensafe (rp rq : NReg) (bits : BitVec 16) (s : State) : Answer :=
  if rp = rq then illegalWord s
  else
    transact 0 s
      (if bits.toNat < 3 then raise .precond s
      else if bitsBeyond s.cfg bits.toNat then raise .range s
      else
        generated (retry (cand (bits.toNat - 1)) safeAccept s.retryLimit.toNat s.src)
          (fun q => [(rp, 2 * (q : Int) + 1), (rq, (q : Int))]) s)

/-- `NT.FINDGEN rd, rp, rq` (45_nt_primes.md R230). -/
def execNtFindgen (rd rp rq : NReg) (s : State) : Answer :=
  transact 0 s
    (if s.x rp < 3 ∨ s.x rp % 2 = 0 then raise .precond s
    else if s.x rq < 1 ∨ (s.x rp - 1) % s.x rq ≠ 0 then raise .precond s
    else
      let p := (s.x rp).toNat
      let q := (s.x rq).toNat
      generated (retry (draw 0 (p - 1)) (genAccept p q) s.retryLimit.toNat s.src)
        (fun a => [(rd, (a : Int))]) s)

end Sys2Proof.Machine
end

