-- ==== Sys2Proof/Machine/Lfsr.lean ====
section
/-! DEFINITION. The LFSR unit (spec/40_lfsr.md): the four functions of one register and the eight
commands. -/

namespace Sys2Proof.Machine

/-! ## The datapath (40_lfsr.md R104, R105) -/

/-- `fb(r)`: the XOR of the bits at all tapped indices. -/
def Lfsr.fb (x : Lfsr) : Bool := parity (x.s &&& x.taps)

/-- `outbit(r)`. -/
def Lfsr.outbit (x : Lfsr) : Bool := x.s.getLsbD x.outidx.toNat

/-- `clkbit(r)`. -/
def Lfsr.clkbit (x : Lfsr) : Bool := x.s.getLsbD x.clkidx.toNat

/-- `shifted(r, b) = ((S << 1) | b) mod 2^n`: the new bit enters at index 0, the bit at index `n-1` is
dropped. -/
def Lfsr.shifted (x : Lfsr) (b : Bool) : Lfsr :=
  { x with s := BitVec.ofNat 64 ((2 * x.s.toNat + b.toNat) % 2 ^ x.len.toNat) }

/-- The state with register `r` replaced and SC_READY cleared, which every LFSR write does
(10_state.md R26). -/
def State.disturb (s : State) (r : LfsrSel) (x : Lfsr) : State :=
  { s with lfsr := s.lfsr.set r x, scReady := false }

/-! ## Commands -/

/-- The first check of `LFSR.CONF` that the payload fails, if any (40_lfsr.md R101). -/
def confBad (s : State) : Bool :=
  decide (s.payByte 0 < 1) || decide (lfsrMaxLen < s.payByte 0)
  || decide (s.payByte 0 ≤ s.payByte 1) || decide (s.payByte 0 ≤ s.payByte 2)
  || decide (s.payByte 3 ≠ 0) || decide (2 ^ s.payByte 0 ≤ s.payNat 4 8)

/-- The register that the payload of `LFSR.CONF` constructs, its contents cleared. -/
def confLfsr (s : State) : Lfsr :=
  { len := BitVec.ofNat 7 (s.payByte 0)
    taps := BitVec.ofNat 64 (s.payNat 4 8)
    clkidx := BitVec.ofNat 6 (s.payByte 1)
    outidx := BitVec.ofNat 6 (s.payByte 2)
    s := 0#64 }

/-- `LFSR.CONF r` (40_lfsr.md R101). -/
def execLfsrConf (r : LfsrSel) (s : State) : Answer :=
  transact 12 s
    (if confBad s then raise .precond s else complete false [] (s.disturb r (confLfsr s)))

/-- `LFSR.LOAD r` (40_lfsr.md R102). -/
def execLfsrLoad (r : LfsrSel) (s : State) : Answer :=
  transact 8 s
    (if 2 ^ (s.lfsr.get r).len.toNat ≤ s.payNat 0 8 then raise .precond s
    else complete false []
      (s.disturb r { s.lfsr.get r with s := BitVec.ofNat 64 (s.payNat 0 8) }))

/-- `LFSR.READ r` (40_lfsr.md R103). -/
def execLfsrRead (r : LfsrSel) (s : State) : Answer :=
  transact 0 s (complete false (beN 8 (s.lfsr.get r).s.toNat) s)

/-- `LFSR.SHIFT r` (40_lfsr.md R106): the feedback is taken before the shift. -/
def execLfsrShift (r : LfsrSel) (s : State) : Answer :=
  transact 0 s
    (complete false [] (s.disturb r ((s.lfsr.get r).shifted (s.lfsr.get r).fb)))

/-- `LFSR.SHIFTO r, b` (40_lfsr.md R107): the override replaces the feedback. -/
def execLfsrShifto (r : LfsrSel) (b : Bool) (s : State) : Answer :=
  transact 0 s (complete false [] (s.disturb r ((s.lfsr.get r).shifted b)))

/-- `LFSR.FB r` (40_lfsr.md R108). -/
def execLfsrFb (r : LfsrSel) (s : State) : Answer :=
  transact 0 s (complete (s.lfsr.get r).fb [] s)

/-- `LFSR.OUT r` (40_lfsr.md R109). -/
def execLfsrOut (r : LfsrSel) (s : State) : Answer :=
  transact 0 s (complete (s.lfsr.get r).outbit [] s)

/-- `LFSR.CLK r` (40_lfsr.md R110). -/
def execLfsrClk (r : LfsrSel) (s : State) : Answer :=
  transact 0 s (complete (s.lfsr.get r).clkbit [] s)

end Sys2Proof.Machine
end

