-- ==== Sys2Proof/Machine/Sc.lean ====
section
/-! DEFINITION. The stream cipher unit (spec/41_stream_cipher.md): key-loading, the majority-clocked
keystream step, and the five commands. -/

namespace Sys2Proof.Machine

/-! ## Key-loading (41_stream_cipher.md R122) -/

/-- Key bit `K[i] = KEY[63 - i]` (10_state.md R25). -/
def keyBit (key : Word64) (i : Nat) : Bool := key.getLsbD (63 - i)

/-- One unconditional shift with the register's own feedback XORed against the key bit. -/
def Lfsr.keyShift (k : Bool) (x : Lfsr) : Lfsr := x.shifted (x.fb ^^ k)

/-- The contents cleared, the configuration kept. -/
def Lfsr.clear (x : Lfsr) : Lfsr := { x with s := 0#64 }

/-- `keyload()`: all three registers cleared, then 64 unconditional shifts. -/
def keyload (key : Word64) (ls : Lfsrs) : Lfsrs :=
  (List.range 64).foldl (fun t i => t.each (Lfsr.keyShift (keyBit key i))) (ls.each Lfsr.clear)

/-! ## The keystream (41_stream_cipher.md R123) -/

/-- The majority value of the three clocking bits, by the source's tie rule: 0 only when the zeros
outnumber the ones. -/
def majority (c0 c1 c2 : Bool) : Bool :=
  !decide ([c0, c1, c2].count true < [c0, c1, c2].count false)

/-- A register shifts with its ordinary feedback exactly when its clocking bit equals the majority. -/
def Lfsr.clockIf (m : Bool) (x : Lfsr) : Lfsr := if x.clkbit = m then x.shifted x.fb else x

/-- The three registers after one majority-clocked step; all clocking bits are read before any shift. -/
def Lfsrs.clock (ls : Lfsrs) : Lfsrs :=
  ls.each (Lfsr.clockIf (majority ls.l0.clkbit ls.l1.clkbit ls.l2.clkbit))

/-- The XOR of the three output bits. -/
def Lfsrs.outXor (ls : Lfsrs) : Bool := (ls.l0.outbit ^^ ls.l1.outbit) ^^ ls.l2.outbit

/-- `k` keystream bits, each read after its shifts, and the registers after them. -/
def keystream : Nat → Lfsrs → List Bool × Lfsrs
  | 0, ls => ([], ls)
  | k + 1, ls =>
    let next := ls.clock
    let rest := keystream k next
    (next.outXor :: rest.1, rest.2)

/-! ## Commands -/

/-- `SC.SETKEY` (41_stream_cipher.md R121). -/
def execScSetkey (s : State) : Answer :=
  transact 8 s
    (complete false []
      { s with key := BitVec.ofNat 64 (s.payNat 0 8), keyValid := true, scReady := false })

/-- `SC.INIT` (41_stream_cipher.md R122). -/
def execScInit (s : State) : Answer :=
  transact 0 s
    (if s.keyValid then complete false [] { s with lfsr := keyload s.key s.lfsr, scReady := true }
    else raise .state s)

/-- `SC.STEP` (41_stream_cipher.md R124): one `kstep()`. -/
def execScStep (s : State) : Answer :=
  transact 0 s
    (if s.scReady then complete s.lfsr.clock.outXor [] { s with lfsr := s.lfsr.clock }
    else raise .state s)

/-- `SC.GEN n` (41_stream_cipher.md R125). -/
def execScGen (n : BitVec 16) (s : State) : Answer :=
  transact 0 s
    (if s.scReady then
      let z := keystream (8 * n.toNat) s.lfsr
      complete false (bytesMSB z.1) { s with lfsr := z.2 }
    else raise .state s)

/-- `SC.RUN n` (41_stream_cipher.md R126). -/
def execScRun (n : BitVec 16) (s : State) : Answer :=
  transact n.toNat s
    (if s.keyValid then
      let z := keystream (8 * n.toNat) (keyload s.key s.lfsr)
      complete false (bytesMSB (List.zipWith xor (bitsMSB s.pay) z.1))
        { s with lfsr := z.2, scReady := true }
    else raise .state s)

end Sys2Proof.Machine
end

