-- ==== Sys2Proof/Machine/Sha.lean ====
section
/-! DEFINITION. The hash unit (spec/42_hasher.md): the compression function, the padding rule with its
aligned-input shortcut, and the five commands. -/

namespace Sys2Proof.Machine

/-! ## Compression (42_hasher.md R143, R145) -/

/-- The round function and constant of round `i` (42_hasher.md R145). -/
def roundF (i : Nat) (b c d : Word32) : Word32 :=
  if i < 20 then (b &&& c) ||| (~~~b &&& d)
  else if i < 40 then b ^^^ c ^^^ d
  else if i < 60 then (b &&& c) ||| (b &&& d) ||| (c &&& d)
  else b ^^^ c ^^^ d

/-- The constant of round `i` (42_hasher.md R145). -/
def roundK (i : Nat) : Word32 :=
  if i < 20 then 0x5A827999#32
  else if i < 40 then 0x6ED9EBA1#32
  else if i < 60 then 0x8F1BBCDC#32
  else 0xCA62C1D6#32

/-- The 16 words of a block, each loaded big-endian. -/
def blockWords (block : List Byte) : List Word32 :=
  (List.range 16).map fun i => BitVec.ofNat 32 (be (slice block (4 * i) 4))

/-- `k` more schedule words in front of a schedule that is kept newest word first:
`w[i] = rotl(w[i-3] ^ w[i-8] ^ w[i-14] ^ w[i-16], 1)`. -/
def expand : Nat → List Word32 → List Word32
  | 0, ws => ws
  | k + 1, ws =>
    expand k
      (rotl (ws.getD 2 0 ^^^ ws.getD 7 0 ^^^ ws.getD 13 0 ^^^ ws.getD 15 0) 1 :: ws)

/-- The message schedule `w[0..79]`, in order. -/
def schedule (block : List Byte) : List Word32 := (expand 64 (blockWords block).reverse).reverse

/-- One round on the working state `(a, b, c, d, e)`, held as the five parts of an `Accum`. -/
def hashRound (i : Nat) (w : Word32) (v : Accum) : Accum :=
  { h0 := rotl v.h0 5 + roundF i v.h1 v.h2 v.h3 + v.h4 + roundK i + w
    h1 := v.h0
    h2 := rotl v.h1 30
    h3 := v.h2
    h4 := v.h3 }

/-- The rounds from number `i` on, one per schedule word. -/
def rounds : Nat → List Word32 → Accum → Accum
  | _, [], v => v
  | i, w :: ws, v => rounds (i + 1) ws (hashRound i w v)

/-- Part by part addition modulo `2^32`. -/
def Accum.add (h v : Accum) : Accum :=
  { h0 := h.h0 + v.h0, h1 := h.h1 + v.h1, h2 := h.h2 + v.h2, h3 := h.h3 + v.h3, h4 := h.h4 + v.h4 }

/-- `compress(H, B)` (42_hasher.md R143). -/
def compress (h : Accum) (block : List Byte) : Accum := h.add (rounds 0 (schedule block) h)

/-- The first `k` 64-byte blocks of a byte sequence, in order. -/
def blocks : Nat → List Byte → List (List Byte)
  | 0, _ => []
  | k + 1, bytes => bytes.take 64 :: blocks k (bytes.drop 64)

/-- All 64-byte blocks of a byte sequence, compressed in order. -/
def compressAll (bytes : List Byte) (h : Accum) : Accum :=
  (blocks (bytes.length / 64) bytes).foldl compress h

/-! ## Padding (42_hasher.md R142) -/

/-- The least `z` with `(L + 1 + z) mod 64 = 56`. -/
def zeroCount (len : Nat) : Nat := (119 - len % 64) % 64

/-- What the padding appends to a message tail of `t` bytes when the whole message has `total` bytes. -/
def padding (t total : Nat) : List Byte :=
  [0x80#8] ++ List.replicate (zeroCount t) 0#8 ++ beN 8 ((8 * total) % 2 ^ 64)

/-- `pad(m)`: a no-op on inputs whose length is a multiple of 64 (90_conflicts.md C2). -/
def pad (m : List Byte) : List Byte :=
  if m.length % 64 = 0 then m else m ++ padding m.length m.length

/-! ## Commands -/

/-- The digest bytes, `H[0]` first, each word most significant byte first (42_hasher.md R148). -/
def digest (h : Accum) : List Byte :=
  beN 4 h.h0.toNat ++ beN 4 h.h1.toNat ++ beN 4 h.h2.toNat ++ beN 4 h.h3.toNat ++ beN 4 h.h4.toNat

/-- `SHA.INIT` (42_hasher.md R141). -/
def execShaInit (s : State) : Answer :=
  transact 0 s (complete false [] { s with h := Accum.reset, hlen := 0#64 })

/-- `SHA.BLOCK` (42_hasher.md R144). -/
def execShaBlock (s : State) : Answer :=
  transact 64 s (complete false [] { s with h := compress s.h s.pay, hlen := s.hlen + 64#64 })

/-- `SHA.FINAL n` (42_hasher.md R146). -/
def execShaFinal (n : Fin 64) (s : State) : Answer :=
  transact n.val s
    (let total := (s.hlen.toNat + n.val) % 2 ^ 64
    let h := if n.val = 0 ∧ s.hlen.toNat % 64 = 0 then s.h
      else compressAll (s.pay ++ padding n.val total) s.h
    complete false [] { s with h := h, hlen := BitVec.ofNat 64 total })

/-- `SHA.DIGEST` (42_hasher.md R148). -/
def execShaDigest (s : State) : Answer := transact 0 s (complete false (digest s.h) s)

/-- `SHA.HASH n` (42_hasher.md R150). -/
def execShaHash (n : BitVec 16) (s : State) : Answer :=
  transact n.toNat s
    (let h := compressAll (pad s.pay) Accum.reset
    complete false (digest h) { s with h := h, hlen := n.setWidth 64 })

end Sys2Proof.Machine
end

