-- ==== Sys2Proof/Machine/Sys.lean ====
section
/-! DEFINITION. The SYS commands (spec/46_sys.md). -/

namespace Sys2Proof.Machine

/-- `SYS.NOP` (46_sys.md R251). -/
def execSysNop (s : State) : Answer := transact 0 s (complete false [] s)

/-- `SYS.RESET` (46_sys.md R252): the effect of the hard reset, and a status word. -/
def execSysReset (s : State) : Answer := transact 0 s (complete false [] s.resetBlock)

/-- `SYS.RDREG num` (46_sys.md R253): the value is read before LASTERR is overwritten. -/
def execSysRdreg (num : Reg) (s : State) : Answer :=
  transact 0 s (complete false (beN 8 (regRead s num).toNat) s)

/-- `SYS.WRREG num` (46_sys.md R254). A read-only number is no legal encoding (30_encoding.md R88 (i)). -/
def execSysWrreg (num : Reg) (s : State) : Answer :=
  if num.writable then
    transact 8 s
      (if regNarrow num && decide (2 ^ 32 ≤ s.payNat 0 8) then raise .precond s
      else complete false [] (regWrite s num (s.payNat 0 8)))
  else illegalWord s

end Sys2Proof.Machine
end

