-- ==== Sys2Proof/Machine/Dispatch.lean ====
section
/-! DEFINITION. One arm per command: the meaning of each command, called with its operands. -/

namespace Sys2Proof.Machine

/-- `exec(state, cmd, payload, draws)` of spec/00_scope.md R7 for a decoded command; the payload and the
draws are in the state (log 2, log 4). -/
def exec (i : Instr) (s : State) : Host.Outcome State Fault Refusal :=
  match i with
  -- SYS (46_sys.md)
  | .sysNop => Sys2Proof.Machine.execSysNop s
  | .sysReset => Sys2Proof.Machine.execSysReset s
  | .sysRdreg num => Sys2Proof.Machine.execSysRdreg num s
  | .sysWrreg num => Sys2Proof.Machine.execSysWrreg num s
  -- LFSR (40_lfsr.md)
  | .lfsrConf r => Sys2Proof.Machine.execLfsrConf r s
  | .lfsrLoad r => Sys2Proof.Machine.execLfsrLoad r s
  | .lfsrRead r => Sys2Proof.Machine.execLfsrRead r s
  | .lfsrShift r => Sys2Proof.Machine.execLfsrShift r s
  | .lfsrShifto r b => Sys2Proof.Machine.execLfsrShifto r b s
  | .lfsrFb r => Sys2Proof.Machine.execLfsrFb r s
  | .lfsrOut r => Sys2Proof.Machine.execLfsrOut r s
  | .lfsrClk r => Sys2Proof.Machine.execLfsrClk r s
  -- SC (41_stream_cipher.md)
  | .scSetkey => Sys2Proof.Machine.execScSetkey s
  | .scInit => Sys2Proof.Machine.execScInit s
  | .scStep => Sys2Proof.Machine.execScStep s
  | .scGen n => Sys2Proof.Machine.execScGen n s
  | .scRun n => Sys2Proof.Machine.execScRun n s
  -- SHA (42_hasher.md)
  | .shaInit => Sys2Proof.Machine.execShaInit s
  | .shaBlock => Sys2Proof.Machine.execShaBlock s
  | .shaFinal n => Sys2Proof.Machine.execShaFinal n s
  | .shaDigest => Sys2Proof.Machine.execShaDigest s
  | .shaHash n => Sys2Proof.Machine.execShaHash n s
  -- KS (43_key_schedule.md)
  | .ksSettweak => Sys2Proof.Machine.execKsSettweak s
  | .ksSched bs => Sys2Proof.Machine.execKsSched bs s
  | .ksRdrk k => Sys2Proof.Machine.execKsRdrk k s
  -- NT, deterministic arithmetic (44_nt_arith.md)
  | .ntLd rd n => Sys2Proof.Machine.execNtLd rd n s
  | .ntSt rs => Sys2Proof.Machine.execNtSt rs s
  | .ntXgcd rg rx ry ra rb => Sys2Proof.Machine.execNtXgcd rg rx ry ra rb s
  | .ntModinv rd rn rm => Sys2Proof.Machine.execNtModinv rd rn rm s
  | .ntCrt rd k => Sys2Proof.Machine.execNtCrt rd k s
  | .ntModpow rd rb re rm => Sys2Proof.Machine.execNtModpow rd rb re rm s
  -- NT, primality and generation (45_nt_primes.md)
  | .ntFermat rn rounds => Sys2Proof.Machine.execNtFermat rn rounds s
  | .ntMr rn rounds => Sys2Proof.Machine.execNtMr rn rounds s
  | .ntGenprime rd bits => Sys2Proof.Machine.execNtGenprime rd bits s
  | .ntGensafe rp rq bits => Sys2Proof.Machine.execNtGensafe rp rq bits s
  | .ntFindgen rd rp rq => Sys2Proof.Machine.execNtFindgen rd rp rq s

end Sys2Proof.Machine
end

