-- ==== Sys2Proof/Machine/Step.lean ====
section
/-! DEFINITION. One step of the machine: the next event of the port (spec/00_scope.md R7; 30_encoding.md
R78; log 1). -/

namespace Sys2Proof.Machine

/-- One step. With no event the block holds its state; a hard reset resets it; a command word is decoded
and, when legal, executed with its payload, else answered with E_ILLEGAL. -/
def step (s : State) : Host.Outcome State Fault Refusal :=
  match s.port with
  | [] => idle s
  | .hardReset :: rest => hardReset { s with port := rest }
  | .command word payload :: rest =>
    match decode word with
    | .ok i => exec i (s.take payload rest)
    | .error _ => illegalWord (s.take payload rest)

/-- The state with a command word stored where `step` takes its next command: at the head of the port,
with the payload its `PLEN` asks for, all zero bytes (log 21). -/
def State.withFetchWord (s : State) (nbits w : Nat) : State :=
  let word := BitVec.ofNat 32 (w % 2 ^ nbits)
  { s with port := .command word (List.replicate (plenOfWord word) 0#8) :: s.port }

end Sys2Proof.Machine
end

