-- ==== Sys2Proof/Machine/Assembler.lean ====
section
/-! DEFINITION. The textual form of commands and the pseudo-commands (spec/30_encoding.md R89, R90). The
text is a notation of the host; no step of the machine uses it. -/

namespace Sys2Proof.Machine

/-! ## Pseudo-commands (R90): exact other names of commands -/

/-- `SC.ENCRYPT n`. -/
def asmEncrypt (n : BitVec 16) : Instr := .scRun n

/-- `SC.DECRYPT n`. -/
def asmDecrypt (n : BitVec 16) : Instr := .scRun n

/-- `NT.BEZOUT rg, rx, ry, ra, rb`. -/
def asmBezout (rg rx ry ra rb : NReg) : Instr := .ntXgcd rg rx ry ra rb

/-- `NT.LDI rd, value`: `NT.LD rd, m` and its payload, with the minimal magnitude length `m`; for values
whose magnitude needs at most 65535 bytes, as the 16-bit count of NT.LD requires. -/
def asmLdi (rd : NReg) (value : Int) : Instr × List Byte :=
  (.ntLd rd (BitVec.ofNat 16 (magBytes value)), intBytes value)

/-! ## Text (R89) -/

/-- An upper-case hexadecimal digit. -/
def upperDigit (v : Nat) : Char := if v < 10 then Char.ofNat (48 + v) else Char.ofNat (55 + v)

/-- The payload between braces, two digits a byte, the bytes separated by blanks. -/
def payloadText (payload : List Byte) : String :=
  let digits := payload.map fun b => String.ofList [upperDigit (b.toNat / 16), upperDigit (b.toNat % 16)]
  String.ofList [Char.ofNat 123] ++ String.intercalate " " digits ++ String.ofList [Char.ofNat 125]

/-- An LFSR selector's text. -/
def lfsrText : LfsrSel → String
  | .l0 => "l0"
  | .l1 => "l1"
  | .l2 => "l2"

/-- An integer register's text. -/
def nregText (r : NReg) : String := "n" ++ toString r.val

/-- A register's name (10_state.md R42). -/
def regText : Reg → String
  | .status => "STATUS"
  | .lastErr => "LASTERR"
  | .retryLimit => "RETRY_LIMIT"
  | .lfsrLen r => "LFSR" ++ toString r.code ++ "_LEN"
  | .lfsrTaps r => "LFSR" ++ toString r.code ++ "_TAPS"
  | .lfsrClkidx r => "LFSR" ++ toString r.code ++ "_CLKIDX"
  | .lfsrOutidx r => "LFSR" ++ toString r.code ++ "_OUTIDX"
  | .lfsrState r => "LFSR" ++ toString r.code ++ "_STATE"
  | .key => "KEY"
  | .h j => "H" ++ toString j.val
  | .hlen => "HLEN"
  | .tweak0 => "TWEAK0"
  | .tweak1 => "TWEAK1"
  | .tweak2 => "TWEAK2"
  | .kw j => "KW" ++ toString j.val

/-- A number in decimal. -/
def numText (v : BitVec 16) : String := toString v.toNat

/-- `UNIT.FUNC` and the operands of a command in the order of 30_encoding.md R75. -/
def asmParts : Instr → String × List String
  | .sysNop => ("SYS.NOP", [])
  | .sysReset => ("SYS.RESET", [])
  | .sysRdreg num => ("SYS.RDREG", [regText num])
  | .sysWrreg num => ("SYS.WRREG", [regText num])
  | .lfsrConf r => ("LFSR.CONF", [lfsrText r])
  | .lfsrLoad r => ("LFSR.LOAD", [lfsrText r])
  | .lfsrRead r => ("LFSR.READ", [lfsrText r])
  | .lfsrShift r => ("LFSR.SHIFT", [lfsrText r])
  | .lfsrShifto r b => ("LFSR.SHIFTO", [lfsrText r, toString b.toNat])
  | .lfsrFb r => ("LFSR.FB", [lfsrText r])
  | .lfsrOut r => ("LFSR.OUT", [lfsrText r])
  | .lfsrClk r => ("LFSR.CLK", [lfsrText r])
  | .scSetkey => ("SC.SETKEY", [])
  | .scInit => ("SC.INIT", [])
  | .scStep => ("SC.STEP", [])
  | .scGen n => ("SC.GEN", [numText n])
  | .scRun n => ("SC.RUN", [numText n])
  | .shaInit => ("SHA.INIT", [])
  | .shaBlock => ("SHA.BLOCK", [])
  | .shaFinal n => ("SHA.FINAL", [toString n.val])
  | .shaDigest => ("SHA.DIGEST", [])
  | .shaHash n => ("SHA.HASH", [numText n])
  | .ksSettweak => ("KS.SETTWEAK", [])
  | .ksSched bs => ("KS.SCHED", [numText bs])
  | .ksRdrk i => ("KS.RDRK", [toString i.val])
  | .ntLd rd n => ("NT.LD", [nregText rd, numText n])
  | .ntSt rs => ("NT.ST", [nregText rs])
  | .ntXgcd rg rx ry ra rb =>
    ("NT.XGCD", [nregText rg, nregText rx, nregText ry, nregText ra, nregText rb])
  | .ntModinv rd rn rm => ("NT.MODINV", [nregText rd, nregText rn, nregText rm])
  | .ntCrt rd k => ("NT.CRT", [nregText rd, numText k])
  | .ntModpow rd rb re rm => ("NT.MODPOW", [nregText rd, nregText rb, nregText re, nregText rm])
  | .ntFermat rn rounds => ("NT.FERMAT", [nregText rn, numText rounds])
  | .ntMr rn rounds => ("NT.MR", [nregText rn, numText rounds])
  | .ntGenprime rd bits => ("NT.GENPRIME", [nregText rd, numText bits])
  | .ntGensafe rp rq bits => ("NT.GENSAFE", [nregText rp, nregText rq, numText bits])
  | .ntFindgen rd rp rq => ("NT.FINDGEN", [nregText rd, nregText rp, nregText rq])

/-- One line of assembler text: the command, its operands, and the payload when there is one. -/
def asmLine (i : Instr) (payload : List Byte) : String :=
  let parts := asmParts i
  let operands := if parts.2.isEmpty then "" else " " ++ String.intercalate ", " parts.2
  let tail := if payload.isEmpty then "" else " " ++ payloadText payload
  parts.1 ++ operands ++ tail

end Sys2Proof.Machine
end

