-- ==== Sys2Proof/Machine/NtSanity.lean ====
section
/-! DEFINITION. The sanity properties of deterministic arithmetic (spec/44_nt_arith.md R203), letter by
letter, as predicates on the commands of Machine/Nt.lean; Laws/NtProperties.lean proves every one of them. -/

namespace Sys2Proof.Machine

/-- A command ends with success in `t`: a next state whose LASTERR is 0 (30_encoding.md R84). -/
def Succeeds (a : Answer) (t : State) : Prop := a = .next t ∧ t.lastErr = 0#7

/-- R203 (a): after a successful `NT.XGCD`, with the operand values read before it, Bezout's identity holds
and `x[rg]` divides both operands and is the greatest number that does, for operands not both zero. -/
def ntXgcdSanity : Prop :=
  ∀ (rg rx ry ra rb : NReg) (s t : State), Succeeds (execNtXgcd rg rx ry ra rb s) t →
    s.x ra * t.x rx + s.x rb * t.x ry = t.x rg
    ∧ t.x rg ∣ s.x ra ∧ t.x rg ∣ s.x rb
    ∧ (s.x ra ≠ 0 ∨ s.x rb ≠ 0 → ∀ d : Int, d ∣ s.x ra → d ∣ s.x rb → d ≤ t.x rg)

/-- R203 (b): after a successful `NT.MODINV` the number written is an inverse. -/
def ntModinvSanity : Prop :=
  ∀ (rd rn rm : NReg) (s t : State), Succeeds (execNtModinv rd rn rm s) t →
    s.x rn * t.x rd % s.x rm = 1 % s.x rm

/-- R203 (c): after a successful `NT.CRT` the number written lies in `[0, M)` and meets every congruence. -/
def ntCrtSanity : Prop :=
  ∀ (rd : NReg) (k : BitVec 16) (s t : State), Succeeds (execNtCrt rd k s) t →
    0 ≤ t.x rd ∧ t.x rd < modProduct (crtModuli s k.toNat)
    ∧ ∀ i < k.toNat, t.x rd % s.x (nreg (8 + i)) = s.x (nreg i) % s.x (nreg (8 + i))

/-- R203 (d): a sum of exponents is a product of powers. -/
def ntModpowSanity : Prop :=
  ∀ (b : Int) (e1 e2 m : Nat), 1 ≤ m →
    modpow b (e1 + e2) m = modpow b e1 m * modpow b e2 m % m

/-- Two states agree on all that the commands of 44_nt_arith.md read: integer registers, payload,
parameters. -/
def SameOperands (s s' : State) : Prop := s'.n = s.n ∧ s'.pay = s.pay ∧ s'.cfg = s.cfg

/-- Two answers agree on integer registers, error code, status word and response, and neither state has
another random source than the state it came from. -/
def SameEnd (s s' : State) (a a' : Answer) : Prop :=
  (∃ t t', a = .next t ∧ a' = .next t' ∧ t'.n = t.n ∧ t'.lastErr = t.lastErr ∧ t'.reply = t.reply
    ∧ t.src = s.src ∧ t'.src = s'.src)
  ∨ ∃ r, a = .refused r ∧ a' = .refused r

/-- R203 (e): no command of 44_nt_arith.md draws, and each ends alike on the same registers, payload and
parameters, whatever else the two states hold. -/
def ntNoDrawSanity : Prop :=
  ∀ s s' : State, SameOperands s s' →
    (∀ rd n, SameEnd s s' (execNtLd rd n s) (execNtLd rd n s'))
    ∧ (∀ rs, SameEnd s s' (execNtSt rs s) (execNtSt rs s'))
    ∧ (∀ rg rx ry ra rb, SameEnd s s' (execNtXgcd rg rx ry ra rb s) (execNtXgcd rg rx ry ra rb s'))
    ∧ (∀ rd rn rm, SameEnd s s' (execNtModinv rd rn rm s) (execNtModinv rd rn rm s'))
    ∧ (∀ rd k, SameEnd s s' (execNtCrt rd k s) (execNtCrt rd k s'))
    ∧ ∀ rd rb re rm, SameEnd s s' (execNtModpow rd rb re rm s) (execNtModpow rd rb re rm s')

/-- R203 whole, (a) to (e). -/
def ntArithSanity : Prop :=
  ntXgcdSanity ∧ ntModinvSanity ∧ ntCrtSanity ∧ ntModpowSanity ∧ ntNoDrawSanity

end Sys2Proof.Machine
end

