-- ==== Sys2Proof/Machine/Port.lean ====
section
/-! DEFINITION. The command port as a byte stream (spec/30_encoding.md R70, R79, R83; 20_memory.md R55):
a command is 4 bytes of command word and `PLEN` bytes of payload, an answer 4 bytes of status word and
`RLEN` bytes of response. The machine itself takes whole transactions (log 20). -/

namespace Sys2Proof.Machine

/-- The bytes of one command on a byte-wide channel. -/
def commandBytes (word : Word32) (payload : List Byte) : List Byte := bytesOfWord word ++ payload

/-- The command at the head of a byte stream, its length told from the word alone (R79), and the bytes
after it; none while the stream is too short. -/
def splitCommand : List Byte → Option (Event × List Byte)
  | b0 :: b1 :: b2 :: b3 :: rest =>
    let word := wordOfBytes b0 b1 b2 b3
    let len := plenOfWord word
    if len ≤ rest.length then some (.command word (rest.take len), rest.drop len) else none
  | _ => none

/-- The bytes of one answer on a byte-wide channel (R83). -/
def Reply.bytes (r : Reply) : List Byte := bytesOfWord r.status ++ r.response

/-- `RLEN`, the last field of the status word (R84). -/
def Reply.rlen (r : Reply) : Nat := field 15 0 r.status

end Sys2Proof.Machine
end

