-- ==== Sys2Proof/Safety.lean ====
section
/-! DEFINITION. What claims speak of: well-formed transactions, sequences of commands, the units of the
block, and the invariant of the machine between commands. -/

namespace Sys2Proof

/-! ## Units (00_scope.md R1, 10_state.md R21) -/

/-- The unit a command belongs to (30_encoding.md R71). -/
inductive Owner where
  | sys | lfsr | sc | sha | ks | nt
deriving DecidableEq, Repr

/-- The unit of a command: the high half of its opcode (30_encoding.md R71). -/
def Instr.owner : Instr → Owner
  | .sysNop | .sysReset | .sysRdreg _ | .sysWrreg _ => .sys
  | .lfsrConf _ | .lfsrLoad _ | .lfsrRead _ | .lfsrShift _ | .lfsrShifto _ _ | .lfsrFb _
  | .lfsrOut _ | .lfsrClk _ => .lfsr
  | .scSetkey | .scInit | .scStep | .scGen _ | .scRun _ => .sc
  | .shaInit | .shaBlock | .shaFinal _ | .shaDigest | .shaHash _ => .sha
  | .ksSettweak | .ksSched _ | .ksRdrk _ => .ks
  | .ntLd _ _ | .ntSt _ | .ntXgcd _ _ _ _ _ | .ntModinv _ _ _ | .ntCrt _ _ | .ntModpow _ _ _ _
  | .ntFermat _ _ | .ntMr _ _ | .ntGenprime _ _ | .ntGensafe _ _ _ | .ntFindgen _ _ _ => .nt

/-- The five commands that draw from the random source (45_nt_primes.md R220). -/
def Instr.draws : Instr → Bool
  | .ntFermat _ _ | .ntMr _ _ | .ntGenprime _ _ | .ntGensafe _ _ _ | .ntFindgen _ _ _ => true
  | .sysNop | .sysReset | .sysRdreg _ | .sysWrreg _
  | .lfsrConf _ | .lfsrLoad _ | .lfsrRead _ | .lfsrShift _ | .lfsrShifto _ _ | .lfsrFb _
  | .lfsrOut _ | .lfsrClk _
  | .scSetkey | .scInit | .scStep | .scGen _ | .scRun _
  | .shaInit | .shaBlock | .shaFinal _ | .shaDigest | .shaHash _
  | .ksSettweak | .ksSched _ | .ksRdrk _
  | .ntLd _ _ | .ntSt _ | .ntXgcd _ _ _ _ _ | .ntModinv _ _ _ | .ntCrt _ _ | .ntModpow _ _ _ _ => false

/-- The six commands with a one-bit result (30_encoding.md R84). -/
def Instr.hasBit : Instr → Bool
  | .lfsrFb _ | .lfsrOut _ | .lfsrClk _ | .scStep | .ntFermat _ _ | .ntMr _ _ => true
  | .sysNop | .sysReset | .sysRdreg _ | .sysWrreg _
  | .lfsrConf _ | .lfsrLoad _ | .lfsrRead _ | .lfsrShift _ | .lfsrShifto _ _
  | .scSetkey | .scInit | .scGen _ | .scRun _
  | .shaInit | .shaBlock | .shaFinal _ | .shaDigest | .shaHash _
  | .ksSettweak | .ksSched _ | .ksRdrk _
  | .ntLd _ _ | .ntSt _ | .ntXgcd _ _ _ _ _ | .ntModinv _ _ _ | .ntCrt _ _ | .ntModpow _ _ _ _
  | .ntGenprime _ _ | .ntGensafe _ _ _ | .ntFindgen _ _ _ => false

end Sys2Proof

namespace Sys2Proof.Machine

/-! ## Host duties and sequences of commands -/

/-- Host duty 1 (spec/70_reset_and_hazards.md R298, R299): exactly `PLEN` payload bytes. -/
def Event.wellFormed : Event → Prop
  | .command word payload => payload.length = plenOfWord word
  | .hardReset => True

/-- The commands of a list issued one after the other, each with its payload (20_memory.md R63). -/
def runCommands : List (Instr × List Byte) → State → Answer
  | [], s => .next s
  | (i, payload) :: rest, s =>
    match exec i (s.take payload s.port) with
    | .next t => runCommands rest t
    | .fault f => .fault f
    | .refused r => .refused r

/-! ## Answers of the random source, by number -/

/-- The raw answer that comes after `k` others. -/
def Source.rawAt (src : Source) (k : Nat) : Nat :=
  match src.script[k]? with
  | some d => d
  | none => Config.oracle (src.count + k)

/-- The source after `k` answers. -/
def Source.after (src : Source) (k : Nat) : Source :=
  { script := src.script.drop k, count := src.count + k }

/-! ## The invariant between commands -/

/-- The invariants of one shift register (10_state.md R23). -/
structure Lfsr.Ok (x : Lfsr) : Prop where
  lenPos : 1 ≤ x.len.toNat
  lenMax : x.len.toNat ≤ lfsrMaxLen
  taps : x.taps.toNat < 2 ^ x.len.toNat
  clkidx : x.clkidx.toNat < x.len.toNat
  outidx : x.outidx.toNat < x.len.toNat
  contents : x.s.toNat < 2 ^ x.len.toNat

/-- Entry `k` of round-key vector `i` as the memory holds it: the 8 bytes at `128*i + 8*k`
(20_memory.md R50). -/
def rkEntry (m : Memory) (i k : Nat) : Nat :=
  be ((List.range 8).map fun j => rkByte m (128 * i + 8 * k + j))

/-- The status word and response of a completed command agree with LASTERR (30_encoding.md R84). -/
structure Reply.Ok (r : Reply) (c : BitVec 7) : Prop where
  code : field 30 24 r.status = c.toNat
  err : field 31 31 r.status = if c = 0#7 then 0 else 1
  reserved : field 23 17 r.status = 0
  rlen : r.rlen = r.response.length
  failed : c ≠ 0#7 → field 16 16 r.status = 0 ∧ r.response = []

/-- What holds of the state between commands: 10_state.md R23 (shift registers), R26 and 41_stream_cipher.md
R120 (flags), R31 (KW, RK, RKVALID), 43_key_schedule.md R172 (parity word), R33 (integer registers), 30_encoding.md R84, R86 (error code
and status word), 20_memory.md R50 (no payload is left). -/
structure State.Inv (s : State) : Prop where
  lfsr : ∀ r, (s.lfsr.get r).Ok
  ready : s.scReady = true → s.keyValid = true
  kwTail : ∀ j, s.wpb.toNat < j → kwAt s.kw j = 0#64
  kwNone : s.wpb = .w0 → kwAt s.kw 0 = 0#64
  kwParity : s.wpb ≠ .w0 →
    kwAt s.kw s.wpb.toNat
      = (List.range s.wpb.toNat).foldl (fun p j => p ^^^ kwAt s.kw j) s.cfg.ksConst
  rkForm : s.rk.wf = true
  rkSched : s.rkValid = true → s.wpb ≠ .w0 ∧ ∀ i < ksRounds, ∀ k < 16,
    rkEntry s.rk i k = (roundEntry s.kw s.wpb.toNat s.tweak0 s.tweak1 i k).toNat
  nFits : ∀ i : NReg, fits s.cfg s.n[i] = true
  errCode : s.lastErr.toNat ≤ 6
  noPayload : s.pay = []
  replyOk : ∀ r, s.reply = some r → r.Ok s.lastErr

end Sys2Proof.Machine
end

