-- ==== Sys2Proof/Certificates/Slice0/Obligations.lean ====
section
/-! DEFINITION. Statements about CRYPTOCORE for the provers. The helpers under `Sys2Proof.Claims` say
what the rules say without the functions of the model wherever that is possible: a shift by its bits, the
compression by its recurrences, the arithmetic by integers. -/

namespace Sys2Proof.Claims

open Sys2Proof.Machine

/-- The state after a command has ended: LASTERR, the status word, the response; no payload is left. -/
def ended (s : State) (code : BitVec 7) (status : Word32) (response : List Byte) : State :=
  { s with lastErr := code, pay := [], reply := some { status := status, response := response } }

/-- The status word of a successful command with a one-bit result (30_encoding.md R84). -/
def bitStatus (bit : Bool) : Word32 := if bit then 0x00010000#32 else 0x00000000#32

/-- Success without a result bit and without response. -/
def okNext (s : State) : Answer := .next (ended s 0#7 0x00000000#32 [])

/-- Success with a response of the length named. -/
def okBytes (s : State) (response : List Byte) : Answer :=
  .next (ended s 0#7 (BitVec.ofNat 32 response.length) response)

def illegalNext (s : State) : Answer := .next (ended s 1#7 0x81000000#32 [])
def stateNext (s : State) : Answer := .next (ended s 2#7 0x82000000#32 [])
def precondNext (s : State) : Answer := .next (ended s 3#7 0x83000000#32 [])
def rangeNext (s : State) : Answer := .next (ended s 4#7 0x84000000#32 [])
def noinvNext (s : State) : Answer := .next (ended s 5#7 0x85000000#32 [])
def genfailNext (s : State) : Answer := .next (ended s 6#7 0x86000000#32 [])

/-- The value is within `NT_BITS` (44_nt_arith.md R191). -/
def Within (cfg : Config) (v : Int) : Prop := ∀ b, cfg.ntBits = some b → v.natAbs < 2 ^ b

/-- `(g, x, y)` is what the remainder sequence of `a` and `b` ends with (44_nt_arith.md R195): remainders
and coefficients start as R195 starts them, every next one is the one before the last minus the quotient
times the last, and the sequence stops at the first remainder 0. -/
def EuclidEnds (a b g x y : Int) : Prop :=
  ∃ (n : Nat) (r s t : Nat → Int),
    (r 0 = a ∧ r 1 = b) ∧ (s 0 = 1 ∧ s 1 = 0) ∧ (t 0 = 0 ∧ t 1 = 1)
    ∧ (∀ i < n, r (i + 1) ≠ 0
      ∧ r (i + 2) = r i - r i / r (i + 1) * r (i + 1)
      ∧ s (i + 2) = s i - r i / r (i + 1) * s (i + 1)
      ∧ t (i + 2) = t i - r i / r (i + 1) * t (i + 1))
    ∧ r (n + 1) = 0 ∧ g = r n ∧ x = s n ∧ y = t n

/-! ## Illegal command words (30_encoding.md R72, R76, R88) -/

/-- The must-be-zero slice of a format (R72); RRI has none. -/
inductive Format where
  | N | R | I | RI | RRI | R3 | R4 | R5
deriving DecidableEq, Repr

def Format.unusedZero (f : Format) (w : Word32) : Prop :=
  match f with
  | .N => field 23 0 w = 0
  | .R => field 19 0 w = 0
  | .I => field 23 16 w = 0
  | .RI => field 19 16 w = 0
  | .RRI => True
  | .R3 => field 11 0 w = 0
  | .R4 => field 7 0 w = 0
  | .R5 => field 3 0 w = 0

/-- The 36 opcodes and their formats (R76). -/
def formats : List (Nat × Format) :=
  [(0x00, .N), (0x01, .N), (0x02, .I), (0x03, .I),
   (0x10, .R), (0x11, .R), (0x12, .R), (0x13, .R), (0x14, .RI), (0x15, .R), (0x16, .R), (0x17, .R),
   (0x20, .N), (0x21, .N), (0x22, .N), (0x23, .I), (0x24, .I),
   (0x30, .N), (0x31, .N), (0x32, .I), (0x33, .N), (0x34, .I),
   (0x40, .N), (0x41, .I), (0x42, .I),
   (0x50, .RI), (0x51, .R), (0x52, .R5), (0x53, .R3), (0x54, .RI), (0x55, .R4),
   (0x56, .RI), (0x57, .RI), (0x58, .RI), (0x59, .RRI), (0x5A, .R3)]

/-- The mapped register numbers (10_state.md R42). -/
def Mapped (k : Nat) : Prop :=
  k ≤ 0x02 ∨ (0x10 ≤ k ∧ k ≤ 0x14) ∨ (0x18 ≤ k ∧ k ≤ 0x1C) ∨ (0x20 ≤ k ∧ k ≤ 0x24) ∨ k = 0x30
  ∨ (0x40 ≤ k ∧ k ≤ 0x45) ∨ (0x50 ≤ k ∧ k ≤ 0x52) ∨ (0x60 ≤ k ∧ k ≤ 0x70)

/-- The mapped RW register numbers (10_state.md R42). -/
def MappedRW (k : Nat) : Prop :=
  k = 0x02 ∨ (0x40 ≤ k ∧ k ≤ 0x45) ∨ k = 0x50 ∨ k = 0x51

/-- The word is illegal: conditions (a) to (i) of 30_encoding.md R88. -/
def Illegal (w : Word32) : Prop :=
  let op := field 31 24 w
  let r1 := field 23 20 w
  let r2 := field 19 16 w
  let r3 := field 15 12 w
  let imm := field 15 0 w
  (∀ f, (op, f) ∉ formats)
  ∨ (∃ f, (op, f) ∈ formats ∧ ¬ f.unusedZero w)
  ∨ (0x10 ≤ op ∧ op ≤ 0x17 ∧ 3 ≤ r1)
  ∨ (op = 0x14 ∧ 2 ≤ imm)
  ∨ (op = 0x32 ∧ 64 ≤ imm)
  ∨ (op = 0x42 ∧ 20 ≤ imm)
  ∨ (op = 0x54 ∧ (imm = 0 ∨ 8 < imm))
  ∨ (op = 0x52 ∧ (r1 = r2 ∨ r1 = r3 ∨ r2 = r3))
  ∨ (op = 0x59 ∧ r1 = r2)
  ∨ (op = 0x02 ∧ ¬ Mapped imm)
  ∨ (op = 0x03 ∧ ¬ MappedRW imm)

/-! ## Reset values (10_state.md R44) -/

/-- Every state element of the block holds the reset value of 10_state.md R44; nothing is written in RK. -/
def IsReset (t : State) : Prop :=
  t.lfsr.l0 = { len := 19#7, taps := 0x72000#64, clkidx := 8#6, outidx := 18#6, s := 0#64 }
  ∧ t.lfsr.l1 = { len := 22#7, taps := 0x300000#64, clkidx := 10#6, outidx := 21#6, s := 0#64 }
  ∧ t.lfsr.l2 = { len := 23#7, taps := 0x700080#64, clkidx := 10#6, outidx := 22#6, s := 0#64 }
  ∧ t.key = 0#64 ∧ t.keyValid = false ∧ t.scReady = false
  ∧ t.h = { h0 := 0x67452301#32, h1 := 0xEFCDAB89#32, h2 := 0x98BADCFE#32, h3 := 0x10325476#32,
            h4 := 0xC3D2E1F0#32 }
  ∧ t.hlen = 0#64 ∧ t.tweak0 = 0#64 ∧ t.tweak1 = 0#64 ∧ t.wpb = .w0
  ∧ (∀ j : Fin 17, t.kw[j] = 0#64) ∧ t.rk = [] ∧ t.rkValid = false
  ∧ (∀ j : Fin 16, t.n[j] = 0) ∧ t.retryLimit = 4096#32 ∧ t.lastErr = 0#7

/-! ## Shift registers (40_lfsr.md R104, R105; 41_stream_cipher.md R123, R128) -/

/-- The XOR of the bits at all tapped indices. -/
def tapXor (x : Lfsr) : Bool :=
  (List.range 64).foldl (fun acc j => acc ^^ (x.taps.getLsbD j && x.s.getLsbD j)) false

/-- `y` is `x` after a shift that pushes `b`: the new bit at index 0, the bit at index `j` moved to
`j + 1`, the bit at index `n - 1` dropped, nothing at or above index `n`. -/
def Pushed (x : Lfsr) (b : Bool) (y : Lfsr) : Prop :=
  y.len = x.len ∧ y.taps = x.taps ∧ y.clkidx = x.clkidx ∧ y.outidx = x.outidx
  ∧ ∀ j < 64, y.s.getLsbD j =
      if x.len.toNat ≤ j then false else if j = 0 then b else x.s.getLsbD (j - 1)

/-- The plain majority of the three clocking bits (R128 (b)). -/
def maj (ls : Lfsrs) : Bool :=
  let c0 := ls.l0.s.getLsbD ls.l0.clkidx.toNat
  let c1 := ls.l1.s.getLsbD ls.l1.clkidx.toNat
  let c2 := ls.l2.s.getLsbD ls.l2.clkidx.toNat
  (c0 && c1) || (c0 && c2) || (c1 && c2)

/-- `ls'` is `ls` after one majority-clocked step: a register whose clocking bit equals the majority
shifts with its own feedback, another keeps its contents. -/
def Clocked (ls ls' : Lfsrs) : Prop :=
  ∀ r, ((ls.get r).s.getLsbD (ls.get r).clkidx.toNat = maj ls →
      Pushed (ls.get r) (tapXor (ls.get r)) (ls'.get r))
    ∧ ((ls.get r).s.getLsbD (ls.get r).clkidx.toNat ≠ maj ls → ls'.get r = ls.get r)

/-- The XOR of the three output bits. -/
def outBits (ls : Lfsrs) : Bool :=
  (ls.l0.s.getLsbD ls.l0.outidx.toNat ^^ ls.l1.s.getLsbD ls.l1.outidx.toNat)
    ^^ ls.l2.s.getLsbD ls.l2.outidx.toNat

/-- Bit `j` of a byte sequence, byte 0 first and bit 7 of a byte first (20_memory.md R56). -/
def streamBit (bytes : List Byte) (j : Nat) : Bool := (bytes.getD (j / 8) 0#8).getLsbD (7 - j % 8)

/-! ## The compression function by its recurrences (42_hasher.md R143, R145) -/

/-- `f` of round `i` (R145). -/
def roundFn (i : Nat) (b c d : Word32) : Word32 :=
  if i ≤ 19 then (b &&& c) ||| (~~~b &&& d)
  else if i ≤ 39 then b ^^^ c ^^^ d
  else if i ≤ 59 then (b &&& c) ||| (b &&& d) ||| (c &&& d)
  else b ^^^ c ^^^ d

/-- `k` of round `i` (R145). -/
def roundCst (i : Nat) : Word32 :=
  if i ≤ 19 then 0x5A827999#32
  else if i ≤ 39 then 0x6ED9EBA1#32
  else if i ≤ 59 then 0x8F1BBCDC#32
  else 0xCA62C1D6#32

/-- `h'` is `compress(h, block)`: there are a message schedule and a sequence of working states that obey
R143, and `h'` is their end added to `h`. -/
def Compresses (h : Accum) (block : List Byte) (h' : Accum) : Prop :=
  ∃ (w : Nat → Word32) (a b c d e : Nat → Word32),
    (∀ i < 16, (w i).toNat = (block.getD (4 * i) 0#8).toNat * 2 ^ 24
      + (block.getD (4 * i + 1) 0#8).toNat * 2 ^ 16
      + (block.getD (4 * i + 2) 0#8).toNat * 2 ^ 8 + (block.getD (4 * i + 3) 0#8).toNat)
    ∧ (∀ i, 16 ≤ i → i < 80 →
        w i = (w (i - 3) ^^^ w (i - 8) ^^^ w (i - 14) ^^^ w (i - 16)).rotateLeft 1)
    ∧ (a 0 = h.h0 ∧ b 0 = h.h1 ∧ c 0 = h.h2 ∧ d 0 = h.h3 ∧ e 0 = h.h4)
    ∧ (∀ i < 80,
        a (i + 1) = (a i).rotateLeft 5 + roundFn i (b i) (c i) (d i) + e i + roundCst i + w i
        ∧ b (i + 1) = a i ∧ c (i + 1) = (b i).rotateLeft 30 ∧ d (i + 1) = c i ∧ e (i + 1) = d i)
    ∧ h' = { h0 := h.h0 + a 80, h1 := h.h1 + b 80, h2 := h.h2 + c 80, h3 := h.h3 + d 80,
             h4 := h.h4 + e 80 }

/-- `h'` is `h` after all 64-byte blocks of a byte sequence, compressed in order. -/
def Absorbs (h : Accum) (bytes : List Byte) (h' : Accum) : Prop :=
  bytes.length % 64 = 0
  ∧ ∃ hs : Nat → Accum, hs 0 = h ∧ hs (bytes.length / 64) = h'
    ∧ ∀ j < bytes.length / 64, Compresses (hs j) ((bytes.drop (64 * j)).take 64) (hs (j + 1))

/-- `z` is the least number of zero bytes with `(t + 1 + z) mod 64 = 56` (42_hasher.md R142). -/
def LeastZeros (t z : Nat) : Prop :=
  (t + 1 + z) % 64 = 56 ∧ ∀ y, (t + 1 + y) % 64 = 56 → z ≤ y

/-- The tail that closes a message: its last bytes, `0x80`, the zeros, and the bit length modulo `2^64`
as 8 bytes, most significant first (42_hasher.md R142, R146). -/
def ClosedTail (m : List Byte) (total : Nat) (tail : List Byte) : Prop :=
  ∃ z count, LeastZeros m.length z ∧ count.length = 8 ∧ be count = 8 * total % 2 ^ 64
    ∧ tail = m ++ [0x80#8] ++ List.replicate z 0#8 ++ count

/-- The digest: `H[0]` first, each word most significant byte first (42_hasher.md R148). -/
def IsDigest (h : Accum) (bytes : List Byte) : Prop :=
  bytes.length = 20
  ∧ be (bytes.take 4) = h.h0.toNat ∧ be ((bytes.drop 4).take 4) = h.h1.toNat
  ∧ be ((bytes.drop 8).take 4) = h.h2.toNat ∧ be ((bytes.drop 12).take 4) = h.h3.toNat
  ∧ be (bytes.drop 16) = h.h4.toNat

/-! ## The key schedule (43_key_schedule.md R172, R173, R174) -/

/-- `KW` holds the extended key words of a key of `wpb` words. -/
def HoldsKey (cfg : Config) (key : List Byte) (wpb : Nat) (kw : Vector Word64 17) : Prop :=
  (∀ j < wpb, (kwAt kw j).toNat = match cfg.ksByteOrder with
    | .big => be ((key.drop (8 * j)).take 8)
    | .little => be ((key.drop (8 * j)).take 8).reverse)
  ∧ kwAt kw wpb = (List.range wpb).foldl (fun p j => p ^^^ kwAt kw j) cfg.ksConst
  ∧ ∀ j, wpb < j → kwAt kw j = 0#64

/-- The tweak word `T[j mod 3]`, the third being the sum modulo `2^64`. -/
def tweakWord (t0 t1 : Word64) (j : Nat) : Nat :=
  if j % 3 = 0 then t0.toNat else if j % 3 = 1 then t1.toNat else (t0.toNat + t1.toNat) % 2 ^ 64

/-- The memory holds the 20 round-key vectors of the extended key words `kw` under the tweaks; entries
from `wpb` on are 0. -/
def HoldsSchedule (kw : Vector Word64 17) (wpb : Nat) (t0 t1 : Word64) (rk : Memory) : Prop :=
  ∀ i < 20, ∀ k < 16,
    (k + 3 < wpb → rkEntry rk i k = (kwAt kw ((i + k) % (wpb + 1))).toNat)
    ∧ (k + 3 = wpb → rkEntry rk i k =
        ((kwAt kw ((i + wpb - 3) % (wpb + 1))).toNat + tweakWord t0 t1 i) % 256)
    ∧ (k + 2 = wpb → rkEntry rk i k =
        ((kwAt kw ((i + wpb - 2) % (wpb + 1))).toNat + tweakWord t0 t1 (i + 1)) % 256)
    ∧ (k + 1 = wpb → rkEntry rk i k =
        ((kwAt kw ((i + wpb - 1) % (wpb + 1))).toNat + i) % 256)
    ∧ (wpb ≤ k → rkEntry rk i k = 0)

/-! ## Primality -/

/-- Answer number `k` of the random source to `Draw(lo, hi)` (00_scope.md R16). -/
def answer (src : Source) (k lo hi : Nat) : Nat := answerIn lo hi (src.rawAt k)

/-- The witness `a` passes a Miller-Rabin round of `m` (45_nt_primes.md R224): with `m - 1 = 2^r * t`, `t`
odd, `a^t mod m` is 1 or `m - 1`, or one of `a^(2t), …, a^(2^(r-1) t) mod m` is `m - 1`. -/
def Passes (m a : Nat) : Prop :=
  ∃ r t, m - 1 = 2 ^ r * t ∧ t % 2 = 1
    ∧ (a ^ t % m = 1 ∨ a ^ t % m = m - 1 ∨ ∃ j, 1 ≤ j ∧ j < r ∧ a ^ (2 ^ j * t) % m = m - 1)

/-- A test of some rounds that answers `bit` uses up `k` answers: all of them when every round passes, else
those up to the first round that does not (R221, R223, R224). -/
def UsesUp (pass : Nat → Prop) (rounds : Nat) (bit : Bool) (k : Nat) : Prop :=
  (bit = true → k = rounds)
  ∧ (bit = false → ∃ j < rounds, k = j + 1 ∧ (∀ i < j, pass i) ∧ ¬ pass j)

/-- `m` passes 128 Miller-Rabin rounds on the answers from number `k` on, and answer `k'` is the first that
is left (R224): 2 and 3 pass without an answer, an odd number from 5 on with 128 passing witnesses. -/
def Tested (src : Source) (m k k' : Nat) : Prop :=
  ((m = 2 ∨ m = 3) ∧ k' = k)
  ∨ (5 ≤ m ∧ m % 2 = 1 ∧ k' = k + 128 ∧ ∀ j < 128, Passes m (answer src (k + j) 2 (m - 2)))

/-- `m` fails within 128 rounds on the answers from number `k` on, and answer `k'` is the first that is left
(R224): a number below 2 and an even one without an answer, an odd one at its first witness that does not
pass. -/
def Rejected (src : Source) (m k k' : Nat) : Prop :=
  ((m < 2 ∨ (m ≠ 2 ∧ m % 2 = 0)) ∧ k' = k)
  ∨ (5 ≤ m ∧ m % 2 = 1 ∧ ∃ j < 128, k' = k + j + 1
    ∧ (∀ i < j, Passes m (answer src (k + i) 2 (m - 2))) ∧ ¬ Passes m (answer src (k + j) 2 (m - 2)))

/-- `q` and then `2q + 1` pass 128 rounds each, the second on the answers the first leaves (R228). -/
def SafeTested (src : Source) (q k k' : Nat) : Prop :=
  ∃ j, Tested src q k j ∧ Tested src (2 * q + 1) j k'

/-- `q` fails, or `q` passes and `2q + 1` fails on the answers that are left (R228). -/
def SafeRejected (src : Source) (q k k' : Nat) : Prop :=
  Rejected src q k k' ∨ ∃ j, Tested src q k j ∧ Rejected src (2 * q + 1) j k'

/-- The candidate of `w` bits made of answer number `k` (R229): its top and bottom bits forced to 1. -/
def candidate (src : Source) (w k : Nat) : Nat := answer src k 0 (2 ^ w - 1) ||| 2 ^ (w - 1) ||| 1

/-- The first `n` tries of a generation command fail, and answer `k` is the first that is left (R225): try
`i` draws its candidate as answer `pos i`, and its test uses up the answers up to `pos (i + 1)`. -/
def TriesFail (src : Source) (w : Nat) (reject : Nat → Nat → Nat → Prop) (n k : Nat) : Prop :=
  ∃ pos : Nat → Nat, pos 0 = 0 ∧ pos n = k
    ∧ ∀ i < n, reject (candidate src w (pos i)) (pos i + 1) (pos (i + 1))

end Sys2Proof.Claims

open Sys2Proof Sys2Proof.Machine Sys2Proof.Claims

/-! ## Encoding and the step -/

/-- 30_encoding.md R76, R77: no bit of an encoding is dropped. -/
def Obligations.DecodeOfEncode : Prop :=
  ∀ i : Instr, i.wf = true → decode (encode i) = .ok i

/-- 30_encoding.md R76, R77: every legal word is the encoding of the command it decodes to, so no word has
two readings and no legal word is ill-formed. -/
def Obligations.EncodeOfDecode : Prop :=
  ∀ (w : Word32) (i : Instr), decode w = .ok i → i.wf = true ∧ encode i = w

/-- 30_encoding.md R76: words written out from the table decode to the commands they stand for. -/
def Obligations.TableWordsDecode : Prop :=
  decode 0x00000000#32 = .ok .sysNop
  ∧ decode 0x03000045#32 = .ok (.sysWrreg .hlen)
  ∧ decode 0x14200001#32 = .ok (.lfsrShifto .l2 true)
  ∧ decode 0x24000005#32 = .ok (.scRun 5#16)
  ∧ decode 0x3200003F#32 = .ok (.shaFinal 63)
  ∧ decode 0x42000013#32 = .ok (.ksRdrk 19)
  ∧ decode 0x52123450#32 = .ok (.ntXgcd 1 2 3 4 5)
  ∧ decode 0x59010006#32 = .ok (.ntGensafe 0 1 6#16)

/-- 30_encoding.md R88: the words with no meaning are exactly those of conditions (a) to (i); such a word
has PLEN 0, changes no state but LASTERR and returns status 0x81000000. -/
def Obligations.IllegalWords : Prop :=
  ∀ w : Word32,
    (Illegal w ↔ ∃ e, decode w = .error e)
    ∧ (Illegal w → plenOfWord w = 0
      ∧ ∀ (s : State) (rest : List Event), s.port = .command w [] :: rest →
          step s = illegalNext { s with port := rest })

/-- 30_encoding.md R79: on a byte stream a command is cut out by its word alone, and what follows it is
left for the next one. -/
def Obligations.PortSplitsCommands : Prop :=
  ∀ (word : Word32) (payload rest : List Byte), payload.length = plenOfWord word →
    splitCommand (commandBytes word payload ++ rest) = some (.command word payload, rest)

/-- 00_scope.md R7, 30_encoding.md R78: a step takes the next event of the port. A legal word runs its
command with its payload; with no event the block holds its state (log 1). -/
def Obligations.StepRunsDecodedCommand : Prop :=
  (∀ (s : State) (w : Word32) (payload : List Byte) (rest : List Event) (i : Instr),
    s.port = .command w payload :: rest → decode w = .ok i →
    step s = exec i { s with port := rest, pay := payload })
  ∧ ∀ s : State, s.port = [] → step s = .next s

/-- 20_memory.md R59: a transaction with another payload length than PLEN has no step. That the term of an
ill-formed instruction has PLEN 0 is the model's reading (log 10). -/
def Obligations.IllFormedTransactionRefused : Prop :=
  (∀ (i : Instr) (s : State), s.pay.length ≠ i.plen → exec i s = .refused .payloadLength)
  ∧ ∀ (s : State) (w : Word32) (payload : List Byte) (rest : List Event),
    s.port = .command w payload :: rest → payload.length ≠ plenOfWord w →
    step s = .refused .payloadLength

/-- 60_exceptions.md R260, R275 (c): every well-formed transaction has a step, whatever the state, the
operands and the answers of the random source are; no step faults. The queue of events is the model's
choice (log 1). -/
def Obligations.WellFormedTransactionCompletes : Prop :=
  (∀ s : State, (∀ e rest, s.port = e :: rest → e.wellFormed) → ∃ t, step s = .next t)
  ∧ (∀ (i : Instr) (s : State), s.pay.length = i.plen → ∃ t, exec i s = .next t)
  ∧ ∀ (s : State) (f : Fault), step s ≠ .fault f

/-- 10_state.md R44: the state after a power-on reset, after the hard reset input and after SYS.RESET. The
parameters, the port and the random source are not the block's and stay (log 8, log 12); an empty RK stands
for its unspecified content (log 5), and a hard reset leaves no status word (log 3). -/
def Obligations.ResetValues : Prop :=
  IsReset State.reset
  ∧ (∀ s : State, s.pay = [] → ∃ t, exec .sysReset s = .next t ∧ IsReset t
      ∧ t.reply = some { status := 0x00000000#32, response := [] } ∧ t.pay = []
      ∧ t.cfg = s.cfg ∧ t.port = s.port ∧ t.src = s.src)
  ∧ ∀ (s : State) (rest : List Event), s.port = .hardReset :: rest → ∃ t, step s = .next t ∧ IsReset t
      ∧ t.reply = none ∧ t.pay = [] ∧ t.cfg = s.cfg ∧ t.port = rest ∧ t.src = s.src

/-! ## Rules of the whole machine -/

/-- The invariant holds at reset. The form of RK and the absence of a reply are the model's (log 3, log 5). -/
def Obligations.ResetMeetsInvariant : Prop := State.reset.Inv

/-- Every step keeps the invariant: shift-register invariants (10_state.md R23), flags (R26, R120), KW, RK
and RKVALID (R31), the bound of the integer registers (R33, R191), the status word (R84). The form of RK
and of the reply are the model's (log 3, log 5). -/
def Obligations.StepKeepsInvariant : Prop :=
  ∀ s t : State, s.Inv → step s = .next t → t.Inv

/-- 30_encoding.md R84: the fields of the status word of every command that ends. -/
def Obligations.StatusWordFields : Prop :=
  ∀ (i : Instr) (s t : State), exec i s = .next t →
    ∃ r, t.reply = some r
      ∧ field 31 31 r.status = (if field 30 24 r.status = 0 then 0 else 1)
      ∧ field 30 24 r.status = t.lastErr.toNat
      ∧ field 23 17 r.status = 0
      ∧ (field 16 16 r.status = 1 → i.hasBit = true ∧ field 30 24 r.status = 0)
      ∧ field 15 0 r.status = r.response.length
      ∧ (field 30 24 r.status ≠ 0 → r.response = [])
      ∧ t.lastErr.toNat ≤ 6

/-- 60_exceptions.md R265: a failed command changes nothing but LASTERR; its status word is
`0x80000000 | code << 24` and it has no response. The answers the random source gave are used up, and
only a generation command has asked for any. -/
def Obligations.FailedCommandChangesOnlyLasterr : Prop :=
  ∀ (i : Instr) (s t : State), exec i s = .next t → t.lastErr ≠ 0#7 →
    t = { ended s t.lastErr (0x80000000#32 ||| (t.lastErr.setWidth 32 <<< 24)) [] with src := t.src }
    ∧ (i.draws = false → t.src = s.src)

/-- 10_state.md R21: no command of one unit writes a state element of another; the SC unit drives the
three shift registers, and SYS reaches every unit. The parameters and the port are no command's. -/
def Obligations.UnitIsolation : Prop :=
  ∀ (i : Instr) (s t : State), exec i s = .next t →
    (i.owner ≠ .sys → i.owner ≠ .lfsr → i.owner ≠ .sc → t.lfsr = s.lfsr ∧ t.scReady = s.scReady)
    ∧ (i.owner ≠ .sys → i.owner ≠ .sc → t.key = s.key ∧ t.keyValid = s.keyValid)
    ∧ (i.owner ≠ .sys → i.owner ≠ .sha → t.h = s.h ∧ t.hlen = s.hlen)
    ∧ (i.owner ≠ .sys → i.owner ≠ .ks → t.tweak0 = s.tweak0 ∧ t.tweak1 = s.tweak1 ∧ t.wpb = s.wpb
        ∧ t.kw = s.kw ∧ t.rk = s.rk ∧ t.rkValid = s.rkValid)
    ∧ (i.owner ≠ .nt → i ≠ .sysReset → t.n = s.n)
    ∧ (i.owner ≠ .sys → t.retryLimit = s.retryLimit)
    ∧ t.cfg = s.cfg ∧ t.port = s.port

/-- 10_state.md R25, R26, R31: what sets and clears the three sequencing flags, over all commands. -/
def Obligations.SequencingFlags : Prop :=
  ∀ (i : Instr) (s t : State), exec i s = .next t → t.lastErr = 0#7 →
    (t.keyValid = match i with
      | .scSetkey => true
      | .sysReset => false
      | _ => s.keyValid)
    ∧ (t.scReady = match i with
      | .scInit | .scRun _ => true
      | .sysReset | .scSetkey | .lfsrConf _ | .lfsrLoad _ | .lfsrShift _ | .lfsrShifto _ _ => false
      | _ => s.scReady)
    ∧ (t.rkValid = match i with
      | .ksSched _ => true
      | .sysReset | .ksSettweak | .sysWrreg .tweak0 | .sysWrreg .tweak1 => false
      | _ => s.rkValid)

/-- 45_nt_primes.md R220: only the five commands draw; a command uses up the answers of the random source
in order, from the first, and keeps nothing of it. The form of the source is the model's (log 4).
44_nt_arith.md R203 (e): the six commands of that file leave the source alone and end alike on the same
integer registers, payload and parameters. -/
def Obligations.OnlyFiveCommandsDraw : Prop :=
  (∀ (i : Instr) (s t : State), exec i s = .next t →
     (i.draws = false → t.src = s.src) ∧ ∃ k, t.src = s.src.after k)
  ∧ ntNoDrawSanity

/-- 20_memory.md R60: the number of response bytes of a successful command. -/
def Obligations.ResponseLengths : Prop :=
  ∀ (i : Instr) (s t : State) (r : Reply), exec i s = .next t → t.lastErr = 0#7 → t.reply = some r →
    r.response.length = match i with
      | .sysRdreg _ | .lfsrRead _ => 8
      | .scGen n | .scRun n => n.toNat
      | .shaDigest | .shaHash _ => 20
      | .ksRdrk _ => 8 * s.wpb.toNat
      | .ntSt rs => 1 + (bitlen (s.x rs).natAbs + 7) / 8
      | _ => 0

/-- 20_memory.md R61: the reading commands leave all state but LASTERR unchanged. -/
def Obligations.ReadsHaveNoSideEffect : Prop :=
  ∀ (i : Instr) (s t : State),
    (match i with
      | .sysRdreg _ | .lfsrRead _ | .lfsrFb _ | .lfsrOut _ | .lfsrClk _ | .shaDigest | .ksRdrk _
      | .ntSt _ => True
      | _ => False) →
    exec i s = .next t →
    t = { s with lastErr := t.lastErr, pay := [], reply := t.reply }

/-- 60_exceptions.md R263: the complete list of E_STATE. -/
def Obligations.StateErrors : Prop :=
  (∀ s : State, s.pay = [] → s.keyValid = false → exec .scInit s = stateNext s)
  ∧ (∀ (n : BitVec 16) (s : State), s.pay.length = n.toNat → s.keyValid = false →
      exec (.scRun n) s = stateNext s)
  ∧ (∀ s : State, s.pay = [] → s.scReady = false → exec .scStep s = stateNext s)
  ∧ (∀ (n : BitVec 16) (s : State), s.pay = [] → s.scReady = false → exec (.scGen n) s = stateNext s)
  ∧ (∀ (i : Fin 20) (s : State), s.pay = [] → s.rkValid = false → exec (.ksRdrk i) s = stateNext s)
  ∧ ∀ (i : Instr) (s t : State), exec i s = .next t → t.lastErr = 2#7 →
      (i = .scInit ∧ s.keyValid = false) ∨ (∃ n, i = .scRun n ∧ s.keyValid = false)
      ∨ (i = .scStep ∧ s.scReady = false) ∨ (∃ n, i = .scGen n ∧ s.scReady = false)
      ∨ (∃ k, i = .ksRdrk k ∧ s.rkValid = false)

/-! ## SYS (46_sys.md) -/

/-- R251: SYS.NOP does nothing but clear LASTERR. -/
def Obligations.SysNopOnlyClearsLasterr : Prop :=
  ∀ s : State, s.pay = [] → exec .sysNop s = okNext s

/-- R253, 10_state.md R37, R42: SYS.RDREG returns the 8-byte big-endian image of every register and changes
nothing but LASTERR; of LASTERR it returns the code of the preceding command. -/
def Obligations.SysRdregReturnsImage : Prop :=
  ∀ (num : Reg) (s : State), s.pay = [] → ∃ bytes, bytes.length = 8
    ∧ exec (.sysRdreg num) s = okBytes s bytes
    ∧ be bytes = match num with
      | .status => s.keyValid.toNat + 2 * s.scReady.toNat + 4 * s.rkValid.toNat + 256 * s.wpb.toNat
      | .lastErr => s.lastErr.toNat
      | .retryLimit => s.retryLimit.toNat
      | .lfsrLen r => (s.lfsr.get r).len.toNat
      | .lfsrTaps r => (s.lfsr.get r).taps.toNat
      | .lfsrClkidx r => (s.lfsr.get r).clkidx.toNat
      | .lfsrOutidx r => (s.lfsr.get r).outidx.toNat
      | .lfsrState r => (s.lfsr.get r).s.toNat
      | .key => s.key.toNat
      | .h j => (s.h.get j).toNat
      | .hlen => s.hlen.toNat
      | .tweak0 => s.tweak0.toNat
      | .tweak1 => s.tweak1.toNat
      | .tweak2 => (s.tweak0.toNat + s.tweak1.toNat) % 2 ^ 64
      | .kw j => s.kw[j].toNat

/-- R254: SYS.WRREG writes one writable register, a tweak write also clears RKVALID; a value of 2^32 or
more for a 32-bit register is E_PRECOND; a read-only register is illegal (as a term, log 10). -/
def Obligations.SysWrregWritesRegister : Prop :=
  (∀ s : State, s.pay.length = 8 →
    (be s.pay < 2 ^ 32 →
      exec (.sysWrreg .retryLimit) s = okNext { s with retryLimit := BitVec.ofNat 32 (be s.pay) }
      ∧ exec (.sysWrreg (.h 0)) s = okNext { s with h := { s.h with h0 := BitVec.ofNat 32 (be s.pay) } }
      ∧ exec (.sysWrreg (.h 1)) s = okNext { s with h := { s.h with h1 := BitVec.ofNat 32 (be s.pay) } }
      ∧ exec (.sysWrreg (.h 2)) s = okNext { s with h := { s.h with h2 := BitVec.ofNat 32 (be s.pay) } }
      ∧ exec (.sysWrreg (.h 3)) s = okNext { s with h := { s.h with h3 := BitVec.ofNat 32 (be s.pay) } }
      ∧ exec (.sysWrreg (.h 4)) s = okNext { s with h := { s.h with h4 := BitVec.ofNat 32 (be s.pay) } })
    ∧ (2 ^ 32 ≤ be s.pay → exec (.sysWrreg .retryLimit) s = precondNext s
      ∧ ∀ j, exec (.sysWrreg (.h j)) s = precondNext s)
    ∧ exec (.sysWrreg .hlen) s = okNext { s with hlen := BitVec.ofNat 64 (be s.pay) }
    ∧ exec (.sysWrreg .tweak0) s
      = okNext { s with tweak0 := BitVec.ofNat 64 (be s.pay), rkValid := false }
    ∧ exec (.sysWrreg .tweak1) s
      = okNext { s with tweak1 := BitVec.ofNat 64 (be s.pay), rkValid := false })
  ∧ ∀ (num : Reg) (s : State), num.rw = false → s.pay = [] → exec (.sysWrreg num) s = illegalNext s

/-- R254, R253, 42_hasher.md R151: a register that SYS.WRREG wrote reads back as written, byte for byte. -/
def Obligations.WrregThenRdreg : Prop :=
  ∀ (num : Reg) (s : State) (payload : List Byte), num.rw = true → payload.length = 8 →
    (∀ j, num = .retryLimit ∨ num = .h j → be payload < 2 ^ 32) →
    ∃ t, runCommands [(.sysWrreg num, payload), (.sysRdreg num, [])] s = .next t
      ∧ t.reply = some { status := 0x00000008#32, response := payload }

/-! ## LFSR (40_lfsr.md) -/

/-- R101: LFSR.CONF constructs a register with its contents cleared, or refuses with E_PRECOND. -/
def Obligations.LfsrConfConstructs : Prop :=
  ∀ (r : LfsrSel) (s : State), s.pay.length = 12 →
    let b := fun j => (s.pay.getD j 0#8).toNat
    let taps := be (s.pay.drop 4)
    let good := 1 ≤ b 0 ∧ b 0 ≤ 64 ∧ b 1 < b 0 ∧ b 2 < b 0 ∧ b 3 = 0 ∧ taps < 2 ^ b 0
    (good → ∃ x : Lfsr, x.len.toNat = b 0 ∧ x.clkidx.toNat = b 1 ∧ x.outidx.toNat = b 2
        ∧ x.taps.toNat = taps ∧ x.s = 0#64
        ∧ exec (.lfsrConf r) s = okNext { s with lfsr := s.lfsr.set r x, scReady := false })
    ∧ (¬ good → exec (.lfsrConf r) s = precondNext s)

/-- R102: LFSR.LOAD writes the contents and clears SC_READY, or refuses a value that does not fit. -/
def Obligations.LfsrLoadWritesContents : Prop :=
  ∀ (r : LfsrSel) (s : State), s.pay.length = 8 →
    (be s.pay < 2 ^ (s.lfsr.get r).len.toNat → exec (.lfsrLoad r) s = okNext { s with
        lfsr := s.lfsr.set r { s.lfsr.get r with s := BitVec.ofNat 64 (be s.pay) }
        scReady := false })
    ∧ (2 ^ (s.lfsr.get r).len.toNat ≤ be s.pay → exec (.lfsrLoad r) s = precondNext s)

/-- R103, R102: LFSR.READ returns the contents, 8 bytes big-endian; after LFSR.LOAD it returns the bytes
loaded. -/
def Obligations.LfsrReadReturnsContents : Prop :=
  (∀ (r : LfsrSel) (s : State), s.pay = [] → ∃ bytes, bytes.length = 8
    ∧ be bytes = (s.lfsr.get r).s.toNat ∧ exec (.lfsrRead r) s = okBytes s bytes)
  ∧ ∀ (r : LfsrSel) (s : State) (payload : List Byte), payload.length = 8 →
    be payload < 2 ^ (s.lfsr.get r).len.toNat →
    ∃ t, runCommands [(.lfsrLoad r, payload), (.lfsrRead r, [])] s = .next t
      ∧ t.reply = some { status := 0x00000008#32, response := payload }

/-- R105, R106, R107: LFSR.SHIFT pushes the XOR of the tapped bits, LFSR.SHIFTO the override; the new bit
enters at index 0 and the oldest is dropped; SC_READY is cleared and nothing else changes. -/
def Obligations.LfsrShiftMovesBits : Prop :=
  (∀ (r : LfsrSel) (s : State), s.pay = [] →
    ∃ y, Pushed (s.lfsr.get r) (tapXor (s.lfsr.get r)) y
      ∧ exec (.lfsrShift r) s = okNext { s with lfsr := s.lfsr.set r y, scReady := false })
  ∧ ∀ (r : LfsrSel) (b : Bool) (s : State), s.pay = [] →
    ∃ y, Pushed (s.lfsr.get r) b y
      ∧ exec (.lfsrShifto r b) s = okNext { s with lfsr := s.lfsr.set r y, scReady := false }

/-- R104, R108, R109, R110: the three reading commands return their bit and change nothing. -/
def Obligations.LfsrBitsAreReported : Prop :=
  ∀ (r : LfsrSel) (s : State), s.pay = [] →
    exec (.lfsrFb r) s = .next (ended s 0#7 (bitStatus (tapXor (s.lfsr.get r))) [])
    ∧ exec (.lfsrOut r) s = .next (ended s 0#7
        (bitStatus ((s.lfsr.get r).s.getLsbD (s.lfsr.get r).outidx.toNat)) [])
    ∧ exec (.lfsrClk r) s = .next (ended s 0#7
        (bitStatus ((s.lfsr.get r).s.getLsbD (s.lfsr.get r).clkidx.toNat)) [])

/-- R111 (c): after LEN shifts with overrides the register holds exactly those bits, the last at index 0,
whatever it held before. -/
def Obligations.OverridesFillTheRegister : Prop :=
  ∀ (r : LfsrSel) (s : State) (bits : List Bool), bits.length = (s.lfsr.get r).len.toNat →
    1 ≤ (s.lfsr.get r).len.toNat → (s.lfsr.get r).len.toNat ≤ 64 →
    ∃ t, runCommands (bits.map fun b => (.lfsrShifto r b, [])) s = .next t
      ∧ (∀ j < 64, (t.lfsr.get r).s.getLsbD j
          = if j < bits.length then bits.getD (bits.length - 1 - j) false else false)
      ∧ (t.lfsr.get r).len = (s.lfsr.get r).len ∧ ∀ r', r' ≠ r → t.lfsr.get r' = s.lfsr.get r'

/-! ## SC (41_stream_cipher.md) -/

/-- R121, 20_memory.md R56: SC.SETKEY loads the key, byte 0 bit 7 being key bit `K[0] = KEY[63]`, sets
KEYVALID and clears SC_READY. -/
def Obligations.ScSetkeyLoadsKey : Prop :=
  ∀ s : State, s.pay.length = 8 → ∃ k : Word64,
    (∀ i < 64, k.getLsbD (63 - i) = streamBit s.pay i)
    ∧ exec .scSetkey s = okNext { s with key := k, keyValid := true, scReady := false }

/-- R122: SC.INIT clears the three registers and shifts each 64 times with its own feedback XORed against
the key bit, whatever the clocking bits are. -/
def Obligations.ScInitLoadsKeyBits : Prop :=
  ∀ s : State, s.pay = [] → s.keyValid = true → ∃ seq : Nat → Lfsrs,
    (∀ r, (seq 0).get r = { s.lfsr.get r with s := 0#64 })
    ∧ (∀ i < 64, ∀ r, Pushed ((seq i).get r) (tapXor ((seq i).get r) ^^ s.key.getLsbD (63 - i))
        ((seq (i + 1)).get r))
    ∧ exec .scInit s = okNext { s with lfsr := seq 64, scReady := true }

/-- R123, R124, R128: SC.STEP reads the clocking bits, shifts the registers that agree with the majority
and returns the XOR of the output bits after the shifts. -/
def Obligations.ScStepIsMajorityClocked : Prop :=
  ∀ s : State, s.pay = [] → s.scReady = true → ∃ ls, Clocked s.lfsr ls
    ∧ exec .scStep s = .next (ended { s with lfsr := ls } 0#7 (bitStatus (outBits ls)) [])

/-- R125, R123: SC.GEN returns `n` bytes of keystream, the first bit in bit 7 of byte 0, each bit read
after its majority-clocked step. -/
def Obligations.ScGenReturnsKeystream : Prop :=
  ∀ (n : BitVec 16) (s : State), s.pay = [] → s.scReady = true →
    ∃ (seq : Nat → Lfsrs) (bytes : List Byte), seq 0 = s.lfsr
      ∧ (∀ j < 8 * n.toNat, Clocked (seq j) (seq (j + 1)) ∧ streamBit bytes j = outBits (seq (j + 1)))
      ∧ bytes.length = n.toNat
      ∧ exec (.scGen n) s = okBytes { s with lfsr := seq (8 * n.toNat) } bytes

/-- R125: two SC.GEN commands return the bytes of one, split. -/
def Obligations.ScGenContinues : Prop :=
  ∀ (a b c : BitVec 16) (s : State), s.scReady = true → c.toNat = a.toNat + b.toNat →
    ∃ t u v za zb, exec (.scGen a) { s with pay := [] } = .next t
      ∧ t.reply = some { status := a.setWidth 32, response := za }
      ∧ exec (.scGen b) t = .next u ∧ u.reply = some { status := b.setWidth 32, response := zb }
      ∧ exec (.scGen c) { s with pay := [] } = .next v
      ∧ v.reply = some { status := c.setWidth 32, response := za ++ zb } ∧ v.lfsr = u.lfsr

/-- R126: SC.RUN returns the message XORed with the keystream that SC.INIT and SC.GEN would give, and
leaves the registers where that keystream stopped. -/
def Obligations.ScRunXorsKeystream : Prop :=
  ∀ (n : BitVec 16) (s : State), s.pay.length = n.toNat → s.keyValid = true →
    ∃ t z, runCommands [(.scInit, []), (.scGen n, [])] s = .next t
      ∧ t.reply = some { status := n.setWidth 32, response := z } ∧ z.length = n.toNat
      ∧ exec (.scRun n) s
        = okBytes { s with lfsr := t.lfsr, scReady := true } (List.zipWith (fun m k => m ^^^ k) s.pay z)

/-- R127: encryption and decryption are the same operation given the same key and configuration,
whatever the registers hold. -/
def Obligations.ScRunIsAnInvolution : Prop :=
  ∀ (n : BitVec 16) (s s' : State) (m : List Byte), m.length = n.toNat →
    s.keyValid = true → s'.keyValid = true → s'.key = s.key →
    (∀ r, { s'.lfsr.get r with s := 0#64 } = { s.lfsr.get r with s := 0#64 }) →
    ∃ t t' c, exec (.scRun n) { s with pay := m } = .next t
      ∧ t.reply = some { status := n.setWidth 32, response := c }
      ∧ exec (.scRun n) { s' with pay := c } = .next t'
      ∧ t'.reply = some { status := n.setWidth 32, response := m }

/-! ## SHA (42_hasher.md) -/

/-- R141: SHA.INIT writes the initial accumulators and clears HLEN. -/
def Obligations.ShaInitWritesInitialValues : Prop :=
  ∀ s : State, s.pay = [] → exec .shaInit s = okNext { s with
    h := { h0 := 0x67452301#32, h1 := 0xEFCDAB89#32, h2 := 0x98BADCFE#32, h3 := 0x10325476#32,
           h4 := 0xC3D2E1F0#32 }
    hlen := 0#64 }

/-- R143, R144, R145: SHA.BLOCK compresses its block into the accumulators and counts 64 bytes. -/
def Obligations.ShaBlockCompresses : Prop :=
  ∀ s : State, s.pay.length = 64 → ∃ h', Compresses s.h s.pay h'
    ∧ exec .shaBlock s = okNext { s with
        h := h', hlen := BitVec.ofNat 64 ((s.hlen.toNat + 64) % 2 ^ 64) }

/-- R146: SHA.FINAL absorbs the last bytes with the padding for a message of HLEN + n bytes; the padding
is a no-op on an aligned message. -/
def Obligations.ShaFinalPads : Prop :=
  ∀ (n : Fin 64) (s : State), s.pay.length = n.val →
    let total := (s.hlen.toNat + n.val) % 2 ^ 64
    ∃ h', exec (.shaFinal n) s = okNext { s with h := h', hlen := BitVec.ofNat 64 total }
      ∧ (n.val = 0 → s.hlen.toNat % 64 = 0 → h' = s.h)
      ∧ (n.val ≠ 0 ∨ s.hlen.toNat % 64 ≠ 0 →
          ∃ tail, ClosedTail s.pay total tail ∧ Absorbs s.h tail h')

/-- R148: SHA.DIGEST returns the five accumulators, most significant byte first, and changes nothing. -/
def Obligations.ShaDigestReturnsAccumulators : Prop :=
  ∀ s : State, s.pay = [] → ∃ bytes, IsDigest s.h bytes ∧ exec .shaDigest s = okBytes s bytes

/-- R142, R150, R152: SHA.HASH starts from the initial accumulators, absorbs the message with its padding,
none when the length is a multiple of 64, and returns the digest. -/
def Obligations.ShaHashAbsorbsPaddedMessage : Prop :=
  ∀ (n : BitVec 16) (s : State), s.pay.length = n.toNat →
    ∃ h' bytes padded,
      (n.toNat % 64 = 0 → padded = s.pay)
      ∧ (n.toNat % 64 ≠ 0 → ClosedTail s.pay n.toNat padded)
      ∧ Absorbs { h0 := 0x67452301#32, h1 := 0xEFCDAB89#32, h2 := 0x98BADCFE#32, h3 := 0x10325476#32,
                  h4 := 0xC3D2E1F0#32 } padded h'
      ∧ IsDigest h' bytes
      ∧ exec (.shaHash n) s = okBytes { s with h := h', hlen := BitVec.ofNat 64 n.toNat } bytes

/-- R147: SHA.INIT, SHA.BLOCK for every whole block, SHA.FINAL with the rest and SHA.DIGEST return the
same 20 bytes as SHA.HASH and leave the same accumulators and HLEN. -/
def Obligations.StreamedHashEqualsOneShot : Prop :=
  ∀ (n : BitVec 16) (tail : Fin 64) (s : State) (m : List Byte), m.length = n.toNat →
    tail.val = n.toNat % 64 →
    ∃ t u digest,
      runCommands
        ([(.shaInit, [])]
          ++ (List.range (n.toNat / 64)).map (fun j => (.shaBlock, (m.drop (64 * j)).take 64))
          ++ [(.shaFinal tail, m.drop (64 * (n.toNat / 64))), (.shaDigest, [])]) s = .next t
      ∧ exec (.shaHash n) { s with pay := m } = .next u
      ∧ t.reply = some { status := 0x00000014#32, response := digest } ∧ u.reply = t.reply
      ∧ t.h = u.h ∧ t.hlen = u.hlen

/-! ## KS (43_key_schedule.md) -/

/-- R171: KS.SETTWEAK loads the two tweak words and clears RKVALID. -/
def Obligations.KsSettweakLoadsTweaks : Prop :=
  ∀ s : State, s.pay.length = 16 → exec .ksSettweak s = okNext { s with
    tweak0 := BitVec.ofNat 64 (be (s.pay.take 8))
    tweak1 := BitVec.ofNat 64 (be (s.pay.drop 8))
    rkValid := false }

/-- R172, R173, R174, R175: KS.SCHED stores the extended key words and all 20 round-key vectors, the last
three entries of each masked to 8 bits; another key length is E_PRECOND and changes nothing. The byte
order of a key word is the configured one: the spec's is big-endian, the other is the model's choice
(log 7). -/
def Obligations.KsSchedStoresSchedule : Prop :=
  ∀ (bs : BitVec 16) (s : State), s.pay.length = bs.toNat →
    (∀ w : Wpb, w ≠ .w0 → bs.toNat = 8 * w.toNat → ∃ kw rk,
      HoldsKey s.cfg s.pay w.toNat kw ∧ HoldsSchedule kw w.toNat s.tweak0 s.tweak1 rk
      ∧ exec (.ksSched bs) s = okNext { s with wpb := w, kw := kw, rk := rk, rkValid := true })
    ∧ (bs.toNat ≠ 32 → bs.toNat ≠ 64 → bs.toNat ≠ 128 → exec (.ksSched bs) s = precondNext s)

/-- R176: KS.RDRK returns round-key vector `i`, entry by entry, big-endian. -/
def Obligations.KsRdrkReturnsVector : Prop :=
  ∀ (i : Fin 20) (s : State), s.pay = [] → s.rkValid = true → ∃ bytes,
    bytes.length = 8 * s.wpb.toNat
    ∧ (∀ k < s.wpb.toNat, be ((bytes.drop (8 * k)).take 8) = rkEntry s.rk i.val k)
    ∧ exec (.ksRdrk i) s = okBytes s bytes

/-- R177: tweaks that agree modulo 256 give the same schedule; a change of `tweak0 mod 256` changes entry
`wpb - 3` of round key 0 and a change of `tweak1 mod 256` entry `wpb - 2`. -/
def Obligations.TweakSensitivity : Prop :=
  ∀ (bs : BitVec 16) (w : Wpb) (s s' t t' : State), w ≠ .w0 → bs.toNat = 8 * w.toNat →
    s.pay.length = bs.toNat → s'.pay = s.pay → s'.cfg = s.cfg →
    exec (.ksSched bs) s = .next t → exec (.ksSched bs) s' = .next t' →
    (s.tweak0.toNat % 256 = s'.tweak0.toNat % 256 → s.tweak1.toNat % 256 = s'.tweak1.toNat % 256 →
      ∀ i < 20, ∀ k < 16, rkEntry t.rk i k = rkEntry t'.rk i k)
    ∧ (s.tweak0.toNat % 256 ≠ s'.tweak0.toNat % 256 →
      rkEntry t.rk 0 (w.toNat - 3) ≠ rkEntry t'.rk 0 (w.toNat - 3))
    ∧ (s.tweak1.toNat % 256 ≠ s'.tweak1.toNat % 256 →
      rkEntry t.rk 0 (w.toNat - 2) ≠ rkEntry t'.rk 0 (w.toNat - 2))

/-! ## NT, deterministic arithmetic (44_nt_arith.md) -/

/-- R193: NT.LD loads sign and magnitude; a bad sign byte is E_PRECOND, a value beyond NT_BITS E_RANGE. -/
def Obligations.NtLdLoadsInteger : Prop :=
  ∀ (rd : NReg) (n : BitVec 16) (s : State), s.pay.length = 1 + n.toNat →
    let mag : Int := be (s.pay.drop 1)
    (s.pay.head? = some 0x00#8 → Within s.cfg mag →
      exec (.ntLd rd n) s = okNext { s with n := s.n.set rd mag })
    ∧ (s.pay.head? = some 0x01#8 → Within s.cfg mag →
      exec (.ntLd rd n) s = okNext { s with n := s.n.set rd (-mag) })
    ∧ (s.pay.head? ≠ some 0x00#8 → s.pay.head? ≠ some 0x01#8 →
      exec (.ntLd rd n) s = precondNext s)
    ∧ (s.pay.head? = some 0x00#8 ∨ s.pay.head? = some 0x01#8 → ¬ Within s.cfg mag →
      exec (.ntLd rd n) s = rangeNext s)

/-- R194: NT.ST returns a sign byte and the magnitude without a leading zero byte; E_RANGE when the
magnitude needs more than 65534 bytes. -/
def Obligations.NtStReturnsInteger : Prop :=
  ∀ (rs : NReg) (s : State), s.pay = [] →
    ((s.n[rs]).natAbs < 256 ^ 65534 → ∃ mag : List Byte, be mag = (s.n[rs]).natAbs
      ∧ mag.head? ≠ some 0#8
      ∧ exec (.ntSt rs) s = okBytes s ((if s.n[rs] < 0 then 0x01#8 else 0x00#8) :: mag))
    ∧ (256 ^ 65534 ≤ (s.n[rs]).natAbs → exec (.ntSt rs) s = rangeNext s)

/-- R193, R194, 30_encoding.md R90: NT.LDI loads its value, and NT.ST then returns the bytes it loaded. -/
def Obligations.LdiThenStReturnsBytes : Prop :=
  ∀ (rd : NReg) (v : Int) (s : State), Within s.cfg v → v.natAbs < 256 ^ 65534 →
    ∃ t, runCommands [asmLdi rd v, (.ntSt rd, [])] s = .next t ∧ t.n[rd] = v
      ∧ ∃ status, t.reply = some { status := status, response := (asmLdi rd v).2 }

/-- R195, R196, R203 (a): NT.XGCD writes what the remainder sequence of its operands ends with: the greatest
common divisor and the pair of Bezout coefficients that sequence leads to, bounded by the operands; a
negative operand is E_PRECOND. With `NT_BITS` 0 the coefficient 1 does not fit (R191). Whenever the command
succeeds, R203 (a) holds of what it wrote. -/
def Obligations.NtXgcdWritesBezout : Prop :=
  (∀ (rg rx ry ra rb : NReg) (s : State), rg ≠ rx → rg ≠ ry → rx ≠ ry → s.pay = [] →
     let a := s.n[ra]
     let b := s.n[rb]
     (0 ≤ a → 0 ≤ b → Within s.cfg a → Within s.cfg b → s.cfg.ntBits ≠ some 0 → ∃ g x y : Int,
       exec (.ntXgcd rg rx ry ra rb) s
         = okNext { s with n := ((s.n.set rg g).set rx x).set ry y }
       ∧ EuclidEnds a b g x y
       ∧ g = Int.gcd a b ∧ a * x + b * y = g
       ∧ (0 < a → 0 < b → x.natAbs ≤ b.natAbs ∧ y.natAbs ≤ a.natAbs)
       ∧ (b = 0 → x = 1 ∧ y = 0) ∧ (a = 0 → 0 < b → x = 0 ∧ y = 1)
       ∧ (a = b → 0 < a → x = 0 ∧ y = 1))
     ∧ (a = 0 → b = 0 → s.cfg.ntBits = some 0 → exec (.ntXgcd rg rx ry ra rb) s = rangeNext s)
     ∧ (a < 0 ∨ b < 0 → exec (.ntXgcd rg rx ry ra rb) s = precondNext s))
  ∧ ntXgcdSanity

/-- R198, R203 (b): NT.MODINV writes the first coefficient of the remainder sequence of `n` and `m` as it is,
not reduced: an inverse, at most the modulus in magnitude; without an inverse the command is E_NOINV,
outside its domain E_PRECOND. Whenever the command succeeds, R203 (b) holds of what it wrote. -/
def Obligations.NtModinvInverts : Prop :=
  (∀ (rd rn rm : NReg) (s : State), s.pay = [] →
     let n := s.n[rn]
     let m := s.n[rm]
     (0 ≤ n → 1 ≤ m → Int.gcd n m = 1 → Within s.cfg m → ∃ x : Int,
       exec (.ntModinv rd rn rm) s = okNext { s with n := s.n.set rd x }
       ∧ (∃ y : Int, EuclidEnds n m 1 x y)
       ∧ n * x % m = 1 % m ∧ x.natAbs ≤ m.natAbs)
     ∧ (0 ≤ n → 1 ≤ m → Int.gcd n m ≠ 1 → exec (.ntModinv rd rn rm) s = noinvNext s)
     ∧ (n < 0 ∨ m < 1 → exec (.ntModinv rd rn rm) s = precondNext s))
  ∧ ntModinvSanity

/-- R199, R200, R203 (c): NT.CRT writes the one residue in `[0, M)` that meets all congruences; moduli that
are not pairwise coprime, or below 1, are E_PRECOND. Whenever the command succeeds, R203 (c) holds of what it
wrote. -/
def Obligations.NtCrtSolvesCongruences : Prop :=
  (∀ (rd : NReg) (k : BitVec 16) (s : State), 1 ≤ k.toNat → k.toNat ≤ 8 → s.pay = [] →
     let a := fun i => s.n.toList.getD i 0
     let m := fun i => s.n.toList.getD (8 + i) 0
     let good := (∀ i < k.toNat, 1 ≤ m i)
       ∧ ∀ i < k.toNat, ∀ j < k.toNat, i ≠ j → Int.gcd (m i) (m j) = 1
     (good → ∃ v : Int, 0 ≤ v ∧ v < ((List.range k.toNat).map m).prod
       ∧ (∀ i < k.toNat, v % m i = a i % m i)
       ∧ (Within s.cfg v → exec (.ntCrt rd k) s = okNext { s with n := s.n.set rd v })
       ∧ (¬ Within s.cfg v → exec (.ntCrt rd k) s = rangeNext s))
     ∧ (¬ good → exec (.ntCrt rd k) s = precondNext s))
  ∧ ntCrtSanity

/-- R201, R202: NT.MODPOW writes `(b ** e) mod m`; a modulus below 1 or a negative exponent is
E_PRECOND. R203 (d): the function it computes turns a sum of exponents into a product of powers. -/
def Obligations.NtModpowRaises : Prop :=
  (∀ (rd rb re rm : NReg) (s : State), s.pay = [] →
     let b := s.n[rb]
     let e := s.n[re]
     let m := s.n[rm]
     (1 ≤ m → 0 ≤ e → Within s.cfg m →
       exec (.ntModpow rd rb re rm) s = okNext { s with n := s.n.set rd (b ^ e.toNat % m) })
     ∧ (m < 1 ∨ e < 0 → exec (.ntModpow rd rb re rm) s = precondNext s))
  ∧ ntModpowSanity

/-! ## NT, primality and generation (45_nt_primes.md) -/

/-- R221 to R224: the tests answer without a draw below 2, for 2 and 3 and for even numbers, and refuse
zero rounds; on an odd number from 5 on the verdict is 1 exactly when every drawn witness passes, one
answer is used up per round, up to the first round whose witness does not pass, and nothing but LASTERR
and the random source changes. The numbering of the answers is the model's (log 4). -/
def Obligations.PrimalityVerdicts : Prop :=
  ∀ (rn : NReg) (rounds : BitVec 16) (s : State), s.pay = [] →
    let v := s.n[rn]
    let m := v.toNat
    (rounds = 0#16 → exec (.ntMr rn rounds) s = precondNext s
      ∧ exec (.ntFermat rn rounds) s = precondNext s)
    ∧ (rounds ≠ 0#16 →
      (v < 2 ∨ (v ≠ 2 ∧ v % 2 = 0) → exec (.ntMr rn rounds) s = okNext s
        ∧ exec (.ntFermat rn rounds) s = okNext s)
      ∧ (v = 2 ∨ v = 3 → exec (.ntMr rn rounds) s = .next (ended s 0#7 0x00010000#32 [])
        ∧ exec (.ntFermat rn rounds) s = .next (ended s 0#7 0x00010000#32 []))
      ∧ (5 ≤ v → v % 2 = 1 →
        (∃ (bit : Bool) (k : Nat), k ≤ rounds.toNat
          ∧ exec (.ntMr rn rounds) s
            = .next (ended { s with src := s.src.after k } 0#7 (bitStatus bit) [])
          ∧ (bit = true ↔ ∀ j < rounds.toNat, Passes m (answer s.src j 2 (m - 2)))
          ∧ UsesUp (fun j => Passes m (answer s.src j 2 (m - 2))) rounds.toNat bit k)
        ∧ ∃ (bit : Bool) (k : Nat), k ≤ rounds.toNat
          ∧ exec (.ntFermat rn rounds) s
            = .next (ended { s with src := s.src.after k } 0#7 (bitStatus bit) [])
          ∧ (bit = true ↔ ∀ j < rounds.toNat, answer s.src j 2 (m - 2) ^ (m - 1) % m = 1)
          ∧ UsesUp (fun j => answer s.src j 2 (m - 2) ^ (m - 1) % m = 1) rounds.toNat bit k))

/-- R227 (a): on a prime both tests answer 1 for every sequence of draws. -/
def Obligations.PrimesAlwaysPass : Prop :=
  ∀ (rn : NReg) (rounds : BitVec 16) (s : State), s.pay = [] → rounds ≠ 0#16 →
    0 ≤ s.n[rn] → (s.n[rn]).toNat.Prime →
    ∃ k k', exec (.ntMr rn rounds) s
        = .next (ended { s with src := s.src.after k } 0#7 0x00010000#32 [])
      ∧ exec (.ntFermat rn rounds) s
        = .next (ended { s with src := s.src.after k' } 0#7 0x00010000#32 [])

/-- R225, R226, R229, R231 (c): NT.GENPRIME writes the candidate of the first try that passes 128
Miller-Rabin rounds, on the answers that follow its own; it has exactly `bits` bits and is odd. When all
RETRY_LIMIT tries fail the command ends with E_GENFAIL and no register written; one of the two is always
so. With `bits = 2` it writes 3 at the first try, with `bits = 1` it fails; `bits = 0` is E_PRECOND. The
numbering of the answers is the model's (log 4). -/
def Obligations.NtGenprimeResults : Prop :=
  ∀ (rd : NReg) (bits : BitVec 16) (s : State), s.pay = [] →
    (bits = 0#16 → exec (.ntGenprime rd bits) s = precondNext s)
    ∧ (bits ≠ 0#16 → (∀ b, s.cfg.ntBits = some b → bits.toNat ≤ b) →
      let w := bits.toNat
      let limit := s.retryLimit.toNat
      let fail := TriesFail s.src w (Rejected s.src)
      (∀ n k k', n < limit → fail n k → Tested s.src (candidate s.src w k) (k + 1) k' →
        exec (.ntGenprime rd bits) s = okNext { s with
          n := s.n.set rd (candidate s.src w k : Int)
          src := s.src.after k' })
      ∧ (∀ k, fail limit k → exec (.ntGenprime rd bits) s = genfailNext { s with src := s.src.after k })
      ∧ ((∃ k, fail limit k)
        ∨ ∃ n k k', n < limit ∧ fail n k ∧ Tested s.src (candidate s.src w k) (k + 1) k')
      ∧ ∀ k, 2 ^ (w - 1) ≤ candidate s.src w k ∧ candidate s.src w k < 2 ^ w
        ∧ candidate s.src w k % 2 = 1)
    ∧ (bits = 2#16 → (∀ b, s.cfg.ntBits = some b → 2 ≤ b) → 1 ≤ s.retryLimit.toNat →
      exec (.ntGenprime rd bits) s = okNext { s with n := s.n.set rd 3, src := s.src.after 1 })
    ∧ (bits = 1#16 → (∀ b, s.cfg.ntBits = some b → 1 ≤ b) →
      exec (.ntGenprime rd bits) s
        = genfailNext { s with src := s.src.after s.retryLimit.toNat })

/-- R225, R228, R231 (d): NT.GENSAFE writes `p = 2q + 1` and `q` for the candidate `q` of the first try whose
`q` and then `p` pass 128 Miller-Rabin rounds, on the answers that follow; `p` has exactly `bits` bits.
When all RETRY_LIMIT tries fail the command ends with E_GENFAIL and no register written; one of the two is
always so. With `bits = 3` it writes 7 and 3 at the first try; `bits < 3` is E_PRECOND. The numbering of the
answers is the model's (log 4). -/
def Obligations.NtGensafeResults : Prop :=
  ∀ (rp rq : NReg) (bits : BitVec 16) (s : State), rp ≠ rq → s.pay = [] →
    (bits.toNat < 3 → exec (.ntGensafe rp rq bits) s = precondNext s)
    ∧ (3 ≤ bits.toNat → (∀ b, s.cfg.ntBits = some b → bits.toNat ≤ b) →
      let w := bits.toNat - 1
      let limit := s.retryLimit.toNat
      let fail := TriesFail s.src w (SafeRejected s.src)
      (∀ n k k', n < limit → fail n k → SafeTested s.src (candidate s.src w k) (k + 1) k' →
        exec (.ntGensafe rp rq bits) s = okNext { s with
          n := (s.n.set rp (2 * (candidate s.src w k : Int) + 1)).set rq (candidate s.src w k : Int)
          src := s.src.after k' })
      ∧ (∀ k, fail limit k → exec (.ntGensafe rp rq bits) s = genfailNext { s with src := s.src.after k })
      ∧ ((∃ k, fail limit k)
        ∨ ∃ n k k', n < limit ∧ fail n k ∧ SafeTested s.src (candidate s.src w k) (k + 1) k')
      ∧ ∀ k, 2 ^ (bits.toNat - 1) ≤ 2 * candidate s.src w k + 1
        ∧ 2 * candidate s.src w k + 1 < 2 ^ bits.toNat)
    ∧ (bits.toNat = 3 → (∀ b, s.cfg.ntBits = some b → 3 ≤ b) → 1 ≤ s.retryLimit.toNat →
      exec (.ntGensafe rp rq bits) s = okNext { s with
        n := (s.n.set rp 7).set rq 3
        src := s.src.after 129 })

/-- R225, R230, R231 (b), (e): NT.FINDGEN writes the first answer, brought into `[0, p)`, that meets both
inequalities, each try using up one answer; when none of RETRY_LIMIT answers meets them it ends with
E_GENFAIL after all of them and no register written; outside its domain it is E_PRECOND. The numbering of the
answers is the model's (log 4). -/
def Obligations.NtFindgenResults : Prop :=
  ∀ (rd rp rq : NReg) (s : State), s.pay = [] →
    let p := s.n[rp]
    let q := s.n[rq]
    let domain := 3 ≤ p ∧ p % 2 = 1 ∧ 1 ≤ q ∧ (p - 1) % q = 0
    let accepted := fun a : Nat => a ^ ((p.toNat - 1) / 2) % p.toNat ≠ 1
      ∧ a ^ ((p.toNat - 1) / q.toNat) % p.toNat ≠ 1
    let drawn := fun i : Nat => answer s.src i 0 (p.toNat - 1)
    (¬ domain → exec (.ntFindgen rd rp rq) s = precondNext s)
    ∧ (domain → Within s.cfg p → ∃ k, k ≤ s.retryLimit.toNat
      ∧ (exec (.ntFindgen rd rp rq) s = genfailNext { s with src := s.src.after k }
        ∨ ∃ a : Nat, a < p.toNat ∧ accepted a
          ∧ exec (.ntFindgen rd rp rq) s
            = okNext { s with n := s.n.set rd (a : Int), src := s.src.after k }))
    ∧ (domain → Within s.cfg p → ∀ n < s.retryLimit.toNat,
      (∀ i < n, ¬ accepted (drawn i)) → accepted (drawn n) →
      exec (.ntFindgen rd rp rq) s = okNext { s with
        n := s.n.set rd (drawn n : Int)
        src := s.src.after (n + 1) })
    ∧ (domain → Within s.cfg p → (∀ i < s.retryLimit.toNat, ¬ accepted (drawn i)) →
      exec (.ntFindgen rd rp rq) s = genfailNext { s with src := s.src.after s.retryLimit.toNat })

/-- R225, 10_state.md R36: with RETRY_LIMIT 0 every generation command fails at once, before any draw, when
its operands pass its checks. -/
def Obligations.ZeroBudgetFailsAtOnce : Prop :=
  ∀ s : State, s.pay = [] → s.retryLimit = 0#32 →
    (∀ (rd : NReg) (bits : BitVec 16), bits ≠ 0#16 →
      (∀ b, s.cfg.ntBits = some b → bits.toNat ≤ b) → exec (.ntGenprime rd bits) s = genfailNext s)
    ∧ (∀ (rp rq : NReg) (bits : BitVec 16), rp ≠ rq → 3 ≤ bits.toNat →
      (∀ b, s.cfg.ntBits = some b → bits.toNat ≤ b) → exec (.ntGensafe rp rq bits) s = genfailNext s)
    ∧ ∀ rd rp rq : NReg, 3 ≤ s.n[rp] → s.n[rp] % 2 = 1 → 1 ≤ s.n[rq] → (s.n[rp] - 1) % s.n[rq] = 0 →
      exec (.ntFindgen rd rp rq) s = genfailNext s

/-- R191, 45_nt_primes.md R226, R228, 60_exceptions.md R266, R271: a bit length beyond a finite NT_BITS is
E_RANGE before any draw, after the E_PRECOND check. -/
def Obligations.BitLengthBeyondBound : Prop :=
  ∀ (bits : BitVec 16) (s : State) (b : Nat), s.pay = [] → s.cfg.ntBits = some b → b < bits.toNat →
    (∀ rd : NReg, exec (.ntGenprime rd bits) s = rangeNext s)
    ∧ (∀ rp rq : NReg, rp ≠ rq → 3 ≤ bits.toNat → exec (.ntGensafe rp rq bits) s = rangeNext s)
    ∧ ∀ rp rq : NReg, rp ≠ rq → bits.toNat < 3 → exec (.ntGensafe rp rq bits) s = precondNext s
end

