-- ==== Sys2Proof/Laws/Bytes.lean ====
section
/-! SUPPORT. Laws of byte sequences, bit sequences and the small numeric functions
(spec/00_scope.md R10, R12; 20_memory.md R55, R56). -/

namespace Sys2Proof.Machine

/-! ## Big-endian numbers -/

theorem be_foldl (acc : Nat) (bytes : List Byte) :
    bytes.foldl (fun acc b => acc * 256 + b.toNat) acc = acc * 256 ^ bytes.length + be bytes := by
  induction bytes generalizing acc with
  | nil => simp [be]
  | cons b bs ih =>
    simp only [be, List.foldl_cons, List.length_cons, ih (acc * 256 + b.toNat), ih (0 * 256 + b.toNat)]
    ring

@[simp] theorem be_nil : be [] = 0 := rfl

theorem be_cons (b : Byte) (bs : List Byte) : be (b :: bs) = b.toNat * 256 ^ bs.length + be bs := by
  simpa [be] using be_foldl b.toNat bs

theorem be_append (xs ys : List Byte) : be (xs ++ ys) = be xs * 256 ^ ys.length + be ys := by
  simpa [be] using be_foldl (be xs) ys

theorem be_lt (bytes : List Byte) : be bytes < 256 ^ bytes.length := by
  induction bytes with
  | nil => simp
  | cons b bs ih =>
    have := b.isLt
    rw [be_cons, List.length_cons, pow_succ']
    nlinarith [Nat.one_le_pow bs.length 256 (by norm_num)]

theorem be_lt_of_length {bytes : List Byte} {n : Nat} (h : bytes.length = n) : be bytes < 256 ^ n :=
  h ▸ be_lt bytes

theorem be_lt_two_pow_64 {bytes : List Byte} (h : bytes.length = 8) : be bytes < 2 ^ 64 := by
  simpa using be_lt_of_length h

@[simp] theorem beN_length (n v : Nat) : (beN n v).length = n := by
  induction n with
  | zero => rfl
  | succ n ih => simp [beN, ih]

theorem be_beN (n v : Nat) : be (beN n v) = v % 256 ^ n := by
  induction n with
  | zero => simp [beN, Nat.mod_one]
  | succ n ih =>
    rw [beN, be_cons, beN_length, ih, BitVec.toNat_ofNat, pow_succ 256 n, Nat.mod_mul, Nat.add_comm,
      Nat.mul_comm]

theorem be_beN_of_lt {n v : Nat} (h : v < 256 ^ n) : be (beN n v) = v := by
  rw [be_beN, Nat.mod_eq_of_lt h]

theorem be_beN_8 (w : Word64) : be (beN 8 w.toNat) = w.toNat := be_beN_of_lt (by simpa using w.isLt)

theorem be_beN_4 (w : Word32) : be (beN 4 w.toNat) = w.toNat := be_beN_of_lt (by simpa using w.isLt)

theorem beN_mod (n v k : Nat) (h : n ≤ k) : beN n (v % 256 ^ k) = beN n v := by
  induction n generalizing k with
  | zero => rfl
  | succ n ih =>
    have hk : 256 ^ k = 256 ^ n * (256 * 256 ^ (k - n - 1)) := by
      rw [← mul_assoc, ← pow_succ, ← pow_add]; congr 1; omega
    rw [beN, beN, ih k (by omega), hk, Nat.mod_mul_right_div_self]
    congr 1
    apply BitVec.eq_of_toNat_eq
    simp only [BitVec.toNat_ofNat]
    exact Nat.mod_mod_of_dvd _ ⟨256 ^ (k - n - 1), by norm_num⟩

theorem beN_be (bytes : List Byte) : beN bytes.length (be bytes) = bytes := by
  induction bytes with
  | nil => rfl
  | cons b bs ih =>
    have hlt := be_lt bs
    have hpos : 0 < 256 ^ bs.length := by positivity
    rw [List.length_cons, beN, be_cons, Nat.mul_comm, Nat.mul_add_div hpos, Nat.div_eq_of_lt hlt]
    congr 1
    · simp
    · rw [← beN_mod _ _ _ (le_refl bs.length), Nat.mul_add_mod, beN_mod _ _ _ (le_refl _), ih]

theorem beN_be_of_length {bytes : List Byte} {n : Nat} (h : bytes.length = n) : beN n (be bytes) = bytes :=
  h ▸ beN_be bytes

theorem be_injective {xs ys : List Byte} (hl : xs.length = ys.length) (h : be xs = be ys) : xs = ys := by
  rw [← beN_be xs, ← beN_be ys, hl, h]

/-- A number that needs `n` bytes has a first byte that is not 0. -/
theorem beN_head_ne_zero {n v : Nat} (hlo : 256 ^ n ≤ v) (hhi : v < 256 ^ (n + 1)) :
    (beN (n + 1) v).head? ≠ some 0#8 := by
  have hpos : 0 < 256 ^ n := by positivity
  have h1 : 1 ≤ v / 256 ^ n := (Nat.one_le_div_iff hpos).mpr hlo
  have h2 : v / 256 ^ n < 256 := by
    rw [Nat.div_lt_iff_lt_mul hpos, mul_comm, ← pow_succ]; exact hhi
  intro h
  simp only [beN, List.head?_cons, Option.some.injEq] at h
  have := congrArg BitVec.toNat h
  simp only [BitVec.toNat_ofNat] at this
  omega

/-! ## Slices -/

theorem slice_length {bytes : List Byte} {start len : Nat} (h : start + len ≤ bytes.length) :
    (slice bytes start len).length = len := by
  simp [slice]; omega

theorem slice_all {bytes : List Byte} {n : Nat} (h : bytes.length = n) : slice bytes 0 n = bytes := by
  simp [slice, ← h]

/-! ## Bit sequences -/

@[simp] theorem bitsOfByte_length (b : Byte) : (bitsOfByte b).length = 8 := rfl

@[simp] theorem bitsMSB_nil : bitsMSB [] = [] := rfl

@[simp] theorem bitsMSB_cons (b : Byte) (bs : List Byte) : bitsMSB (b :: bs) = bitsOfByte b ++ bitsMSB bs := by
  simp [bitsMSB]

@[simp] theorem bitsMSB_length (bytes : List Byte) : (bitsMSB bytes).length = 8 * bytes.length := by
  induction bytes with
  | nil => rfl
  | cons b bs ih => simp [ih]; ring

theorem byteOfBits_bits : ∀ b : Byte,
    byteOfBits (b.getLsbD 7) (b.getLsbD 6) (b.getLsbD 5) (b.getLsbD 4) (b.getLsbD 3) (b.getLsbD 2)
      (b.getLsbD 1) (b.getLsbD 0) = b := by decide +kernel

theorem bitsOfByte_byteOfBits : ∀ b7 b6 b5 b4 b3 b2 b1 b0 : Bool,
    bitsOfByte (byteOfBits b7 b6 b5 b4 b3 b2 b1 b0) = [b7, b6, b5, b4, b3, b2, b1, b0] := by
  decide +kernel

theorem byteOfBits_xor : ∀ a b : Byte, byteOfBits
    (a.getLsbD 7 ^^ b.getLsbD 7) (a.getLsbD 6 ^^ b.getLsbD 6) (a.getLsbD 5 ^^ b.getLsbD 5)
    (a.getLsbD 4 ^^ b.getLsbD 4) (a.getLsbD 3 ^^ b.getLsbD 3) (a.getLsbD 2 ^^ b.getLsbD 2)
    (a.getLsbD 1 ^^ b.getLsbD 1) (a.getLsbD 0 ^^ b.getLsbD 0) = a ^^^ b := by
  intro a b
  simpa only [← BitVec.getLsbD_xor] using byteOfBits_bits (a ^^^ b)

theorem bytesMSB_bitsMSB (bytes : List Byte) : bytesMSB (bitsMSB bytes) = bytes := by
  induction bytes with
  | nil => rfl
  | cons b bs ih =>
    rw [bitsMSB_cons, bitsOfByte]
    exact congrArg₂ List.cons (byteOfBits_bits b) ih

/-- A bit sequence whose length is a multiple of 8 is the bits of a byte sequence. -/
theorem exists_bitsMSB (n : Nat) : ∀ bits : List Bool, bits.length = 8 * n →
    ∃ bytes, bytes.length = n ∧ bits = bitsMSB bytes := by
  induction n with
  | zero => intro bits h; exact ⟨[], rfl, by simpa using h⟩
  | succ n ih =>
    intro bits h
    match bits, h with
    | b7 :: b6 :: b5 :: b4 :: b3 :: b2 :: b1 :: b0 :: rest, h =>
      obtain ⟨bytes, hl, hr⟩ := ih rest (by simp at h; omega)
      exact ⟨byteOfBits b7 b6 b5 b4 b3 b2 b1 b0 :: bytes, by simp [hl],
        by simp [bitsOfByte_byteOfBits, hr]⟩

theorem bitsMSB_bytesMSB {bits : List Bool} {n : Nat} (h : bits.length = 8 * n) :
    bitsMSB (bytesMSB bits) = bits := by
  obtain ⟨bytes, -, rfl⟩ := exists_bitsMSB n bits h
  rw [bytesMSB_bitsMSB]

theorem bytesMSB_length {bits : List Bool} {n : Nat} (h : bits.length = 8 * n) :
    (bytesMSB bits).length = n := by
  obtain ⟨bytes, hl, rfl⟩ := exists_bitsMSB n bits h
  rw [bytesMSB_bitsMSB, hl]

theorem bitsMSB_append (xs ys : List Byte) : bitsMSB (xs ++ ys) = bitsMSB xs ++ bitsMSB ys := by
  simp [bitsMSB]

theorem bytesMSB_append {xs ys : List Bool} {a b : Nat} (hx : xs.length = 8 * a) (hy : ys.length = 8 * b) :
    bytesMSB (xs ++ ys) = bytesMSB xs ++ bytesMSB ys := by
  obtain ⟨p, -, rfl⟩ := exists_bitsMSB a xs hx
  obtain ⟨q, -, rfl⟩ := exists_bitsMSB b ys hy
  rw [← bitsMSB_append]; simp only [bytesMSB_bitsMSB]

/-- Bit `j` of the sequence is bit `7 - j % 8` of byte `j / 8`. -/
theorem bitsMSB_getD (bytes : List Byte) (j : Nat) :
    (bitsMSB bytes).getD j false = (bytes.getD (j / 8) 0#8).getLsbD (7 - j % 8) := by
  induction bytes generalizing j with
  | nil => simp
  | cons b bs ih =>
    rw [bitsMSB_cons]
    by_cases h : j < 8
    · rw [List.getD_append _ _ _ _ (by simpa using h), Nat.div_eq_of_lt h, Nat.mod_eq_of_lt h]
      interval_cases j <;> rfl
    · obtain ⟨k, rfl⟩ : ∃ k, j = k + 8 := ⟨j - 8, by omega⟩
      rw [List.getD_append_right _ _ _ _ (by simp), bitsOfByte_length, Nat.add_sub_cancel, ih,
        Nat.add_div_right _ (by norm_num), Nat.add_mod_right]
      simp

/-- The bits of a big-endian number, most significant first, are the bits of its bytes. -/
theorem be_testBit (bytes : List Byte) {j : Nat} (h : j < 8 * bytes.length) :
    (be bytes).testBit (8 * bytes.length - 1 - j) = (bitsMSB bytes).getD j false := by
  induction bytes generalizing j with
  | nil => simp at h
  | cons b bs ih =>
    have hlt : be bs < 2 ^ (8 * bs.length) := by
      have := be_lt bs
      rwa [show (256 : Nat) = 2 ^ 8 by norm_num, ← pow_mul] at this
    rw [List.length_cons] at h
    rw [be_cons, Nat.mul_comm, show (256 : Nat) = 2 ^ 8 by norm_num, ← pow_mul,
      Nat.testBit_two_pow_mul_add _ hlt, bitsMSB_getD, List.length_cons]
    by_cases h8 : j < 8
    · rw [if_neg (by omega), Nat.div_eq_of_lt h8, Nat.mod_eq_of_lt h8]
      simp only [List.getD_cons_zero, BitVec.getLsbD]
      congr 1
      omega
    · rw [if_pos (by omega)]
      have := ih (j := j - 8) (by omega)
      rw [bitsMSB_getD] at this
      rw [show 8 * (bs.length + 1) - 1 - j = 8 * bs.length - 1 - (j - 8) by omega, this,
        show j / 8 = (j - 8) / 8 + 1 by omega, show (j - 8) % 8 = j % 8 by omega]
      simp

/-- XOR bit by bit is XOR byte by byte. -/
theorem bitsMSB_zipWith_xor (xs ys : List Byte) :
    List.zipWith xor (bitsMSB xs) (bitsMSB ys) = bitsMSB (List.zipWith (fun a b => a ^^^ b) xs ys) := by
  induction xs generalizing ys with
  | nil => simp
  | cons x xs ih =>
    cases ys with
    | nil => simp
    | cons y ys => simp [bitsOfByte, ih]

/-! ## Bit length -/

theorem bitlen_le_iff (v k : Nat) : bitlen v ≤ k ↔ v < 2 ^ k := by
  unfold bitlen
  split
  · next h => simp [h]
  · next h => rw [← Nat.log2_lt h]; omega

theorem lt_two_pow_bitlen (v : Nat) : v < 2 ^ bitlen v := (bitlen_le_iff v _).mp le_rfl

theorem two_pow_le_of_lt_bitlen {v k : Nat} (h : k < bitlen v) : 2 ^ k ≤ v := by
  by_contra hc
  have := (bitlen_le_iff v k).mpr (by omega)
  omega

/-! ## Parity and rotation -/

theorem parity_foldl (p : Nat → Bool) (l : List Nat) (acc : Bool) :
    l.foldl (fun a i => a ^^ p i) acc = (acc ^^ (l.countP p % 2 == 1)) := by
  induction l generalizing acc with
  | nil => simp
  | cons a l ih =>
    rw [List.foldl_cons, ih, List.countP_cons]
    cases hp : p a
    · simp
    · have : ((l.countP p + 1) % 2 == 1) = !(l.countP p % 2 == 1) := by
        rcases Nat.mod_two_eq_zero_or_one (l.countP p) with h | h <;>
          simp [Nat.add_mod, h]
      simp [this]

/-- `parity` as the XOR of all bits. -/
theorem parity_eq_foldl (v : Word64) :
    parity v = (List.range 64).foldl (fun acc i => acc ^^ v.getLsbD i) false := by
  rw [parity_foldl]; simp [parity, popcount]

theorem rotl_eq_rotateLeft (x : Word32) (k : Nat) (h : k < 32) : rotl x k = x.rotateLeft k := by
  rw [rotl, BitVec.rotateLeft_def, Nat.mod_eq_of_lt h]

end Sys2Proof.Machine
end

