-- ==== Sys2Proof/Laws/Decode.lean ====
section
/-! SUPPORT. Laws of the decoder and the encoder (spec/30_encoding.md R70 to R80; 10_state.md R42). -/

namespace Sys2Proof

/-! ## Register numbers (10_state.md R42) -/

/-- Well-formedness and the table agree on which registers are writable. -/
theorem Reg.rw_eq_writable (r : Reg) : r.rw = r.writable := by cases r <;> rfl

theorem Reg.ofNumber_number (r : Reg) : Reg.ofNumber r.number = some r := by
  cases r with
  | status | lastErr | retryLimit | key | hlen | tweak0 | tweak1 | tweak2 => rfl
  | lfsrLen r => cases r <;> rfl
  | lfsrTaps r => cases r <;> rfl
  | lfsrClkidx r => cases r <;> rfl
  | lfsrOutidx r => cases r <;> rfl
  | lfsrState r => cases r <;> rfl
  | h j => fin_cases j <;> rfl
  | kw j => fin_cases j <;> rfl

theorem Reg.number_of_ofNumber {k : Nat} {r : Reg} (h : Reg.ofNumber k = some r) : r.number = k := by
  have := List.find?_some h
  simpa using this

theorem LfsrSel.base_le (r : LfsrSel) : r.base ≤ 0x20 := by cases r <;> decide

theorem Reg.number_lt (r : Reg) : r.number < 2 ^ 16 := by
  cases r with
  | h j => have := j.isLt; simp [Reg.number]; omega
  | kw j => have := j.isLt; simp [Reg.number]; omega
  | lfsrLen r | lfsrTaps r | lfsrClkidx r | lfsrOutidx r | lfsrState r =>
    have := r.base_le; simp [Reg.number]; omega
  | _ => decide

/-! ## Selectors (30_encoding.md R74) -/

theorem LfsrSel.code_lt (r : LfsrSel) : r.code < 16 := by cases r <;> decide

theorem lfsrSel_code (r : LfsrSel) : lfsrSel r.code = some r := by cases r <;> rfl

theorem code_of_lfsrSel {k : Nat} {r : LfsrSel} (h : lfsrSel k = some r) : r.code = k := by
  unfold lfsrSel at h
  split at h <;> simp_all [LfsrSel.code]
  all_goals subst h; rfl

@[simp] theorem nreg_val (r : NReg) : nreg r.val = r := by simp [nreg]

theorem val_nreg {k : Nat} (h : k < 16) : (nreg k).val = k := by
  simp [nreg, Fin.ofNat, Nat.mod_eq_of_lt h]

theorem nreg_inj {a b : Nat} (ha : a < 16) (hb : b < 16) : nreg a = nreg b ↔ a = b := by
  rw [Fin.ext_iff, val_nreg ha, val_nreg hb]

/-! ## Fields of a word (30_encoding.md R71) -/

theorem mkWord_toNat {op r1 r2 low : Nat} (ho : op < 256) (h1 : r1 < 16) (h2 : r2 < 16)
    (hl : low < 2 ^ 16) :
    (mkWord op r1 r2 low).toNat = op * 2 ^ 24 + r1 * 2 ^ 20 + r2 * 2 ^ 16 + low := by
  rw [mkWord, BitVec.toNat_ofNat, Nat.mod_eq_of_lt]
  omega

/-- Every field of a word that `mkWord` put together. -/
theorem fields_mkWord {op r1 r2 low : Nat} (ho : op < 256) (h1 : r1 < 16) (h2 : r2 < 16)
    (hl : low < 2 ^ 16) :
    fUnit (mkWord op r1 r2 low) = op / 16 ∧ fFunc (mkWord op r1 r2 low) = op % 16
    ∧ fR1 (mkWord op r1 r2 low) = r1 ∧ fR2 (mkWord op r1 r2 low) = r2
    ∧ fR3 (mkWord op r1 r2 low) = low / 2 ^ 12 ∧ fR4 (mkWord op r1 r2 low) = low / 2 ^ 8 % 16
    ∧ fR5 (mkWord op r1 r2 low) = low / 2 ^ 4 % 16 ∧ fImm (mkWord op r1 r2 low) = low := by
  simp only [fUnit, fFunc, fR1, fR2, fR3, fR4, fR5, fImm, field, mkWord_toNat ho h1 h2 hl]
  refine ⟨?_, ?_, ?_, ?_, ?_, ?_, ?_, ?_⟩ <;> omega

/-- The must-be-zero slices of a word that `mkWord` put together. -/
theorem zeros_mkWord {op r1 r2 low : Nat} (ho : op < 256) (h1 : r1 < 16) (h2 : r2 < 16)
    (hl : low < 2 ^ 16) :
    field 23 0 (mkWord op r1 r2 low) = r1 * 2 ^ 20 + r2 * 2 ^ 16 + low
    ∧ field 19 0 (mkWord op r1 r2 low) = r2 * 2 ^ 16 + low
    ∧ field 23 16 (mkWord op r1 r2 low) = r1 * 2 ^ 4 + r2
    ∧ field 19 16 (mkWord op r1 r2 low) = r2
    ∧ field 11 0 (mkWord op r1 r2 low) = low % 2 ^ 12
    ∧ field 7 0 (mkWord op r1 r2 low) = low % 2 ^ 8
    ∧ field 3 0 (mkWord op r1 r2 low) = low % 2 ^ 4 := by
  simp only [field, mkWord_toNat ho h1 h2 hl]
  refine ⟨?_, ?_, ?_, ?_, ?_, ?_, ?_⟩ <;> omega

theorem lowRegs_lt {a b c : Nat} (ha : a < 16) (hb : b < 16) (hc : c < 16) : lowRegs a b c < 2 ^ 16 := by
  simp only [lowRegs]; omega

theorem lowRegs_fields {a b c : Nat} (hb : b < 16) (hc : c < 16) :
    lowRegs a b c / 2 ^ 12 = a ∧ lowRegs a b c / 2 ^ 8 % 16 = b ∧ lowRegs a b c / 2 ^ 4 % 16 = c
    ∧ lowRegs a b c % 2 ^ 4 = 0 := by
  simp only [lowRegs]
  refine ⟨?_, ?_, ?_, ?_⟩ <;> omega

theorem lowRegs_mod {a b : Nat} : lowRegs a b 0 % 2 ^ 8 = 0 ∧ lowRegs a 0 0 % 2 ^ 12 = 0 := by
  simp only [lowRegs]
  refine ⟨?_, ?_⟩ <;> omega

theorem imm16_mkWord {op r1 r2 : Nat} (ho : op < 256) (h1 : r1 < 16) (h2 : r2 < 16) (n : BitVec 16) :
    imm16 (mkWord op r1 r2 n.toNat) = n := by
  rw [imm16, (fields_mkWord ho h1 h2 n.isLt).2.2.2.2.2.2.2]
  simp

/-! ## Reading a word (30_encoding.md R71, R72) -/

theorem fUnit_eq (w : Word32) : fUnit w = field 31 24 w / 16 := by
  simp only [fUnit, field]; omega

theorem fFunc_eq (w : Word32) : fFunc w = field 31 24 w % 16 := by
  simp only [fFunc, field]; omega

theorem field_lt (hi lo : Nat) (w : Word32) : field hi lo w < 2 ^ (hi - lo + 1) :=
  Nat.mod_lt _ (by positivity)

/-- A word is its opcode, its two high selectors and its low half. -/
theorem word_eq (w : Word32) :
    mkWord (field 31 24 w) (fR1 w) (fR2 w) (fImm w) = w := by
  have := w.isLt
  apply BitVec.eq_of_toNat_eq
  have h1 : fR1 w < 16 := field_lt 23 20 w
  have h2 : fR2 w < 16 := field_lt 19 16 w
  have h3 : fImm w < 2 ^ 16 := field_lt 15 0 w
  rw [mkWord_toNat (field_lt 31 24 w) h1 h2 h3]
  simp only [field, fR1, fR2, fImm]
  omega

/-- The low half of a word is its four low selectors. -/
theorem fImm_eq (w : Word32) : fImm w = lowRegs (fR3 w) (fR4 w) (fR5 w) + field 3 0 w := by
  simp only [fImm, fR3, fR4, fR5, field, lowRegs]; omega

/-- The must-be-zero slices by selectors. -/
theorem zeros_eq (w : Word32) :
    field 23 0 w = fR1 w * 2 ^ 20 + fR2 w * 2 ^ 16 + fImm w
    ∧ field 19 0 w = fR2 w * 2 ^ 16 + fImm w
    ∧ field 23 16 w = fR1 w * 2 ^ 4 + fR2 w
    ∧ field 19 16 w = fR2 w
    ∧ field 11 0 w = fR4 w * 2 ^ 8 + fR5 w * 2 ^ 4 + field 3 0 w
    ∧ field 7 0 w = fR5 w * 2 ^ 4 + field 3 0 w := by
  refine ⟨?_, ?_, ?_, rfl, ?_, ?_⟩ <;> simp only [fR1, fR2, fR4, fR5, fImm, field] <;> omega

theorem imm16_toNat (w : Word32) : (imm16 w).toNat = fImm w := by
  rw [imm16, BitVec.toNat_ofNat]
  exact Nat.mod_eq_of_lt (field_lt 15 0 w)

/-- What a format check can answer: the rest, when the slice is zero. -/
theorem zeroBits_ok {hi lo : Nat} {w : Word32} {r : Except Reject Instr} {i : Instr} :
    zeroBits hi lo w r = .ok i ↔ field hi lo w = 0 ∧ r = .ok i := by
  unfold zeroBits
  split <;> simp_all

theorem withLfsr_ok {w : Word32} {mk : LfsrSel → Except Reject Instr} {i : Instr} :
    withLfsr w mk = .ok i ↔ ∃ r, fR1 w = r.code ∧ mk r = .ok i := by
  unfold withLfsr
  constructor
  · intro h
    split at h
    · next r hr => exact ⟨r, (code_of_lfsrSel hr).symm, h⟩
    · cases h
  · rintro ⟨r, hr, h⟩
    rw [hr, lfsrSel_code]
    exact h

theorem withReg_ok {w : Word32} {mk : Reg → Except Reject Instr} {i : Instr} :
    withReg w mk = .ok i ↔ ∃ r : Reg, fImm w = r.number ∧ mk r = .ok i := by
  unfold withReg
  constructor
  · intro h
    split at h
    · next r hr => exact ⟨r, (Reg.number_of_ofNumber hr).symm, h⟩
    · cases h
  · rintro ⟨r, hr, h⟩
    rw [hr, Reg.ofNumber_number]
    exact h

theorem fmtLfsr_ok {w : Word32} {mk : LfsrSel → Instr} {i : Instr} :
    fmtLfsr w mk = .ok i ↔ field 19 0 w = 0 ∧ ∃ r, fR1 w = r.code ∧ mk r = i := by
  rw [fmtLfsr, zeroBits_ok, withLfsr_ok]
  simp

/-! ## The word on the port (30_encoding.md R70) -/

theorem bytesOfWord_eq (w : Word32) : ∃ b0 b1 b2 b3, bytesOfWord w = [b0, b1, b2, b3]
    ∧ wordOfBytes b0 b1 b2 b3 = w := by
  refine ⟨_, _, _, _, rfl, ?_⟩
  apply BitVec.eq_of_toNat_eq
  have := w.isLt
  simp only [wordOfBytes, BitVec.toNat_append, BitVec.toNat_ofNat, field, Nat.shiftLeft_eq]
  rw [← Nat.shiftLeft_eq, ← Nat.shiftLeft_eq, ← Nat.shiftLeft_eq,
    ← Nat.shiftLeft_add_eq_or_of_lt (by omega), ← Nat.shiftLeft_add_eq_or_of_lt (by omega),
    ← Nat.shiftLeft_add_eq_or_of_lt (by omega), Nat.shiftLeft_eq, Nat.shiftLeft_eq, Nat.shiftLeft_eq]
  omega

theorem decodeBytes_bytesOfWord (w : Word32) (rest : List Byte) :
    decodeBytes (bytesOfWord w ++ rest) = (decode w).map fun i => (i, rest) := by
  obtain ⟨b0, b1, b2, b3, h, hw⟩ := bytesOfWord_eq w
  rw [h]
  simp only [List.cons_append, List.nil_append, decodeBytes, hw]
  cases decode w <;> rfl

end Sys2Proof
end

