-- ==== Sys2Proof/Laws/Memory.lean ====
section
/-! SUPPORT. Laws of the round-key memory (spec/20_memory.md R50, R53): every operation keeps the
canonical form, a read after a write gives the bytes written, other bytes stay. -/

namespace Sys2Proof.Machine

/-! ## The canonical form -/

/-- The addresses of a memory, in the order of its cells. -/
theorem Memory.rising_iff (m : Memory) : Memory.rising m = true ↔ m.Pairwise fun c d => c.1 < d.1 := by
  induction m with
  | nil => simp [Memory.rising]
  | cons c m ih =>
    cases m with
    | nil => simp [Memory.rising]
    | cons d m =>
      rw [Memory.rising, Bool.and_eq_true, ih, decide_eq_true_eq, List.pairwise_cons (a := c)]
      constructor
      · rintro ⟨h, hp⟩
        refine ⟨fun e he => ?_, hp⟩
        rcases List.mem_cons.mp he with rfl | he
        · exact h
        · exact h.trans ((List.pairwise_cons.mp hp).1 e he)
      · rintro ⟨h, hp⟩
        exact ⟨h d (by simp), hp⟩

theorem Memory.wf_iff (m : Memory) :
    m.wf = true ↔ (m.Pairwise fun c d => c.1 < d.1) ∧ ∀ c ∈ m, c.1 < rkSize := by
  simp [Memory.wf, Memory.rising_iff]

theorem Memory.wf_nil : Memory.wf [] = true := rfl

theorem Memory.mem_cells {a : Nat} {v : List Byte} {c : Host.Cell} (h : c ∈ Memory.cells a v) :
    a ≤ c.1 ∧ c.1 < a + v.length := by
  induction v generalizing a with
  | nil => simp [Memory.cells] at h
  | cons b v ih =>
    rcases List.mem_cons.mp h with rfl | h
    · simp
    · have := ih h; simp; omega

theorem Memory.cells_pairwise (a : Nat) (v : List Byte) :
    (Memory.cells a v).Pairwise fun c d => c.1 < d.1 := by
  induction v generalizing a with
  | nil => simp [Memory.cells]
  | cons b v ih =>
    refine List.pairwise_cons.mpr ⟨fun c hc => ?_, ih _⟩
    have := (Memory.mem_cells hc).1
    show a < c.1
    omega

/-- A write keeps the canonical form. -/
theorem Memory.write_wf {m : Memory} {a : Nat} {v : List Byte} (hm : m.wf = true)
    (ha : a + v.length ≤ rkSize) : (m.write a v).wf = true := by
  rw [Memory.wf_iff] at hm ⊢
  obtain ⟨hp, hb⟩ := hm
  constructor
  · rw [Memory.write, List.append_assoc, List.pairwise_append, List.pairwise_append]
    refine ⟨hp.filter _, ⟨Memory.cells_pairwise a v, hp.filter _, ?_⟩, ?_⟩
    · intro c hc d hd
      have h1 := Memory.mem_cells hc
      have h2 := (List.mem_filter.mp hd).2
      simp only [decide_eq_true_eq] at h2
      omega
    · intro c hc d hd
      have h1 := (List.mem_filter.mp hc).2
      simp only [decide_eq_true_eq] at h1
      rcases List.mem_append.mp hd with hd | hd
      · have := Memory.mem_cells hd; omega
      · have h2 := (List.mem_filter.mp hd).2
        simp only [decide_eq_true_eq] at h2
        omega
  · intro c hc
    simp only [Memory.write, List.mem_append, List.mem_filter] at hc
    rcases hc with (⟨hc, -⟩ | hc) | ⟨hc, -⟩
    · exact hb c hc
    · have := Memory.mem_cells hc; omega
    · exact hb c hc

/-! ## Reading after a write -/

theorem Memory.read_append (m m' : Memory) (x : Nat) :
    Memory.read (m ++ m') x = (m.read x).or (m'.read x) := by
  unfold Memory.read
  rw [List.find?_append]
  cases List.find? (fun c => c.1 == x) m <;> simp

theorem Memory.read_filter_of_true {m : Memory} {p : Nat → Bool} {x : Nat} (h : p x = true) :
    Memory.read (m.filter fun c => p c.1) x = m.read x := by
  unfold Memory.read
  congr 1
  rw [List.find?_filter]
  congr 1; funext c
  by_cases hc : c.1 = x <;> simp [hc, h]

theorem Memory.read_filter_of_false {m : Memory} {p : Nat → Bool} {x : Nat} (h : p x = false) :
    Memory.read (m.filter fun c => p c.1) x = none := by
  unfold Memory.read
  rw [Option.map_eq_none_iff, List.find?_eq_none]
  intro c hc
  have := (List.mem_filter.mp hc).2
  intro hx
  rw [eq_of_beq hx, h] at this
  exact absurd this (by simp)

theorem Memory.read_cells (a x : Nat) (v : List Byte) :
    Memory.read (Memory.cells a v) x = if a ≤ x then v[x - a]? else none := by
  induction v generalizing a with
  | nil => simp [Memory.cells, Memory.read]
  | cons b v ih =>
    have hc : Memory.read (Memory.cells a (b :: v)) x
        = if a = x then some b else Memory.read (Memory.cells (a + 1) v) x := by
      simp only [Memory.cells, Memory.read, List.find?_cons]
      by_cases h : a = x
      · simp [h]
      · simp [h, beq_eq_false_iff_ne.mpr h]
    rw [hc, ih]
    rcases Nat.lt_trichotomy a x with h | rfl | h
    · rw [if_neg (by omega), if_pos (by omega), if_pos (by omega),
        show x - a = (x - (a + 1)) + 1 by omega, List.getElem?_cons_succ]
    · simp
    · rw [if_neg (by omega), if_neg (by omega), if_neg (by omega)]

/-- What a byte read gives after a write: the byte written, or the old one. -/
theorem Memory.read_write (m : Memory) (a x : Nat) (v : List Byte) :
    (m.write a v).read x = if a ≤ x ∧ x < a + v.length then v[x - a]? else m.read x := by
  rw [Memory.write, Memory.read_append, Memory.read_append, Memory.read_cells]
  rcases Nat.lt_or_ge x a with h | h
  · rw [Memory.read_filter_of_true (p := fun y => decide (y < a)) (by simpa using h),
      Memory.read_filter_of_false (p := fun y => decide (a + v.length ≤ y)) (by simp; omega),
      if_neg (by omega), if_neg (by omega)]
    simp
  · rw [Memory.read_filter_of_false (p := fun y => decide (y < a)) (by simpa using h), if_pos h]
    by_cases hx : x < a + v.length
    · rw [if_pos ⟨h, hx⟩, List.getElem?_eq_getElem (by omega)]
      simp
    · rw [Memory.read_filter_of_true (p := fun y => decide (a + v.length ≤ y)) (by simp; omega),
        if_neg (by omega), List.getElem?_eq_none (by omega)]
      simp

theorem rkByte_write (m : Memory) (a x : Nat) (v : List Byte) :
    rkByte (m.write a v) x = if a ≤ x ∧ x < a + v.length then v.getD (x - a) 0#8 else rkByte m x := by
  unfold rkByte
  rw [Memory.read_write]
  by_cases h : a ≤ x ∧ x < a + v.length
  · rw [if_pos h, if_pos h, List.getD_eq_getElem?_getD, List.getElem?_eq_getElem (by omega)]
    simp
  · rw [if_neg h, if_neg h]

/-- A load of a row: no command forms an address outside the memory. -/
theorem rkLoad_row (m : Memory) (i : Fin 20) (w : Wpb) : rkLoad m (128 * i.val) (8 * w.toNat)
    = .ok ((List.range (8 * w.toNat)).map fun j => rkByte m (128 * i.val + j)) := by
  have : w.toNat ≤ 16 := by cases w <;> simp [Wpb.toNat]
  rw [rkLoad, if_pos]
  simp only [rkSize]
  omega

end Sys2Proof.Machine
end

