-- ==== Sys2Proof/Laws/State.lean ====
section
/-! SUPPORT. One lemma per field and update of State, so that no proof unfolds a record update
(spec/10_state.md). The proofs stand as `(rfl)`, in parentheses: simp then takes each lemma as an equation
and neither it nor the kernel unfolds the state to check one. -/

namespace Sys2Proof.Machine

/-! ## `take` -/

@[simp] theorem State.take_lfsr (s : State) (p : List Byte) (q : List Event) :
    (s.take p q).lfsr = s.lfsr := (rfl)
@[simp] theorem State.take_key (s : State) (p : List Byte) (q : List Event) :
    (s.take p q).key = s.key := (rfl)
@[simp] theorem State.take_keyValid (s : State) (p : List Byte) (q : List Event) :
    (s.take p q).keyValid = s.keyValid := (rfl)
@[simp] theorem State.take_scReady (s : State) (p : List Byte) (q : List Event) :
    (s.take p q).scReady = s.scReady := (rfl)
@[simp] theorem State.take_h (s : State) (p : List Byte) (q : List Event) :
    (s.take p q).h = s.h := (rfl)
@[simp] theorem State.take_hlen (s : State) (p : List Byte) (q : List Event) :
    (s.take p q).hlen = s.hlen := (rfl)
@[simp] theorem State.take_tweak0 (s : State) (p : List Byte) (q : List Event) :
    (s.take p q).tweak0 = s.tweak0 := (rfl)
@[simp] theorem State.take_tweak1 (s : State) (p : List Byte) (q : List Event) :
    (s.take p q).tweak1 = s.tweak1 := (rfl)
@[simp] theorem State.take_wpb (s : State) (p : List Byte) (q : List Event) :
    (s.take p q).wpb = s.wpb := (rfl)
@[simp] theorem State.take_kw (s : State) (p : List Byte) (q : List Event) :
    (s.take p q).kw = s.kw := (rfl)
@[simp] theorem State.take_rk (s : State) (p : List Byte) (q : List Event) :
    (s.take p q).rk = s.rk := (rfl)
@[simp] theorem State.take_rkValid (s : State) (p : List Byte) (q : List Event) :
    (s.take p q).rkValid = s.rkValid := (rfl)
@[simp] theorem State.take_n (s : State) (p : List Byte) (q : List Event) :
    (s.take p q).n = s.n := (rfl)
@[simp] theorem State.take_retryLimit (s : State) (p : List Byte) (q : List Event) :
    (s.take p q).retryLimit = s.retryLimit := (rfl)
@[simp] theorem State.take_lastErr (s : State) (p : List Byte) (q : List Event) :
    (s.take p q).lastErr = s.lastErr := (rfl)
@[simp] theorem State.take_cfg (s : State) (p : List Byte) (q : List Event) :
    (s.take p q).cfg = s.cfg := (rfl)
@[simp] theorem State.take_port (s : State) (p : List Byte) (q : List Event) :
    (s.take p q).port = q := (rfl)
@[simp] theorem State.take_pay (s : State) (p : List Byte) (q : List Event) :
    (s.take p q).pay = p := (rfl)
@[simp] theorem State.take_reply (s : State) (p : List Byte) (q : List Event) :
    (s.take p q).reply = s.reply := (rfl)
@[simp] theorem State.take_src (s : State) (p : List Byte) (q : List Event) :
    (s.take p q).src = s.src := (rfl)

/-! ## `finish` -/

@[simp] theorem State.finish_lfsr (s : State) (c : BitVec 7) (b : Bool) (r : List Byte) :
    (s.finish c b r).lfsr = s.lfsr := (rfl)
@[simp] theorem State.finish_key (s : State) (c : BitVec 7) (b : Bool) (r : List Byte) :
    (s.finish c b r).key = s.key := (rfl)
@[simp] theorem State.finish_keyValid (s : State) (c : BitVec 7) (b : Bool) (r : List Byte) :
    (s.finish c b r).keyValid = s.keyValid := (rfl)
@[simp] theorem State.finish_scReady (s : State) (c : BitVec 7) (b : Bool) (r : List Byte) :
    (s.finish c b r).scReady = s.scReady := (rfl)
@[simp] theorem State.finish_h (s : State) (c : BitVec 7) (b : Bool) (r : List Byte) :
    (s.finish c b r).h = s.h := (rfl)
@[simp] theorem State.finish_hlen (s : State) (c : BitVec 7) (b : Bool) (r : List Byte) :
    (s.finish c b r).hlen = s.hlen := (rfl)
@[simp] theorem State.finish_tweak0 (s : State) (c : BitVec 7) (b : Bool) (r : List Byte) :
    (s.finish c b r).tweak0 = s.tweak0 := (rfl)
@[simp] theorem State.finish_tweak1 (s : State) (c : BitVec 7) (b : Bool) (r : List Byte) :
    (s.finish c b r).tweak1 = s.tweak1 := (rfl)
@[simp] theorem State.finish_wpb (s : State) (c : BitVec 7) (b : Bool) (r : List Byte) :
    (s.finish c b r).wpb = s.wpb := (rfl)
@[simp] theorem State.finish_kw (s : State) (c : BitVec 7) (b : Bool) (r : List Byte) :
    (s.finish c b r).kw = s.kw := (rfl)
@[simp] theorem State.finish_rk (s : State) (c : BitVec 7) (b : Bool) (r : List Byte) :
    (s.finish c b r).rk = s.rk := (rfl)
@[simp] theorem State.finish_rkValid (s : State) (c : BitVec 7) (b : Bool) (r : List Byte) :
    (s.finish c b r).rkValid = s.rkValid := (rfl)
@[simp] theorem State.finish_n (s : State) (c : BitVec 7) (b : Bool) (r : List Byte) :
    (s.finish c b r).n = s.n := (rfl)
@[simp] theorem State.finish_retryLimit (s : State) (c : BitVec 7) (b : Bool) (r : List Byte) :
    (s.finish c b r).retryLimit = s.retryLimit := (rfl)
@[simp] theorem State.finish_lastErr (s : State) (c : BitVec 7) (b : Bool) (r : List Byte) :
    (s.finish c b r).lastErr = c := (rfl)
@[simp] theorem State.finish_cfg (s : State) (c : BitVec 7) (b : Bool) (r : List Byte) :
    (s.finish c b r).cfg = s.cfg := (rfl)
@[simp] theorem State.finish_port (s : State) (c : BitVec 7) (b : Bool) (r : List Byte) :
    (s.finish c b r).port = s.port := (rfl)
@[simp] theorem State.finish_pay (s : State) (c : BitVec 7) (b : Bool) (r : List Byte) :
    (s.finish c b r).pay = [] := (rfl)
@[simp] theorem State.finish_reply (s : State) (c : BitVec 7) (b : Bool) (r : List Byte) :
    (s.finish c b r).reply = some { status := statusWord c b r.length, response := r } := (rfl)
@[simp] theorem State.finish_src (s : State) (c : BitVec 7) (b : Bool) (r : List Byte) :
    (s.finish c b r).src = s.src := (rfl)

/-! ## `setN` -/

@[simp] theorem State.setN_lfsr (s : State) (i : NReg) (v : Int) :
    (s.setN i v).lfsr = s.lfsr := (rfl)
@[simp] theorem State.setN_key (s : State) (i : NReg) (v : Int) :
    (s.setN i v).key = s.key := (rfl)
@[simp] theorem State.setN_keyValid (s : State) (i : NReg) (v : Int) :
    (s.setN i v).keyValid = s.keyValid := (rfl)
@[simp] theorem State.setN_scReady (s : State) (i : NReg) (v : Int) :
    (s.setN i v).scReady = s.scReady := (rfl)
@[simp] theorem State.setN_h (s : State) (i : NReg) (v : Int) :
    (s.setN i v).h = s.h := (rfl)
@[simp] theorem State.setN_hlen (s : State) (i : NReg) (v : Int) :
    (s.setN i v).hlen = s.hlen := (rfl)
@[simp] theorem State.setN_tweak0 (s : State) (i : NReg) (v : Int) :
    (s.setN i v).tweak0 = s.tweak0 := (rfl)
@[simp] theorem State.setN_tweak1 (s : State) (i : NReg) (v : Int) :
    (s.setN i v).tweak1 = s.tweak1 := (rfl)
@[simp] theorem State.setN_wpb (s : State) (i : NReg) (v : Int) :
    (s.setN i v).wpb = s.wpb := (rfl)
@[simp] theorem State.setN_kw (s : State) (i : NReg) (v : Int) :
    (s.setN i v).kw = s.kw := (rfl)
@[simp] theorem State.setN_rk (s : State) (i : NReg) (v : Int) :
    (s.setN i v).rk = s.rk := (rfl)
@[simp] theorem State.setN_rkValid (s : State) (i : NReg) (v : Int) :
    (s.setN i v).rkValid = s.rkValid := (rfl)
@[simp] theorem State.setN_n (s : State) (i : NReg) (v : Int) :
    (s.setN i v).n = s.n.set i v := (rfl)
@[simp] theorem State.setN_retryLimit (s : State) (i : NReg) (v : Int) :
    (s.setN i v).retryLimit = s.retryLimit := (rfl)
@[simp] theorem State.setN_lastErr (s : State) (i : NReg) (v : Int) :
    (s.setN i v).lastErr = s.lastErr := (rfl)
@[simp] theorem State.setN_cfg (s : State) (i : NReg) (v : Int) :
    (s.setN i v).cfg = s.cfg := (rfl)
@[simp] theorem State.setN_port (s : State) (i : NReg) (v : Int) :
    (s.setN i v).port = s.port := (rfl)
@[simp] theorem State.setN_pay (s : State) (i : NReg) (v : Int) :
    (s.setN i v).pay = s.pay := (rfl)
@[simp] theorem State.setN_reply (s : State) (i : NReg) (v : Int) :
    (s.setN i v).reply = s.reply := (rfl)
@[simp] theorem State.setN_src (s : State) (i : NReg) (v : Int) :
    (s.setN i v).src = s.src := (rfl)

/-! ## `disturb` -/

@[simp] theorem State.disturb_lfsr (s : State) (r : LfsrSel) (x : Lfsr) :
    (s.disturb r x).lfsr = s.lfsr.set r x := (rfl)
@[simp] theorem State.disturb_key (s : State) (r : LfsrSel) (x : Lfsr) :
    (s.disturb r x).key = s.key := (rfl)
@[simp] theorem State.disturb_keyValid (s : State) (r : LfsrSel) (x : Lfsr) :
    (s.disturb r x).keyValid = s.keyValid := (rfl)
@[simp] theorem State.disturb_scReady (s : State) (r : LfsrSel) (x : Lfsr) :
    (s.disturb r x).scReady = false := (rfl)
@[simp] theorem State.disturb_h (s : State) (r : LfsrSel) (x : Lfsr) :
    (s.disturb r x).h = s.h := (rfl)
@[simp] theorem State.disturb_hlen (s : State) (r : LfsrSel) (x : Lfsr) :
    (s.disturb r x).hlen = s.hlen := (rfl)
@[simp] theorem State.disturb_tweak0 (s : State) (r : LfsrSel) (x : Lfsr) :
    (s.disturb r x).tweak0 = s.tweak0 := (rfl)
@[simp] theorem State.disturb_tweak1 (s : State) (r : LfsrSel) (x : Lfsr) :
    (s.disturb r x).tweak1 = s.tweak1 := (rfl)
@[simp] theorem State.disturb_wpb (s : State) (r : LfsrSel) (x : Lfsr) :
    (s.disturb r x).wpb = s.wpb := (rfl)
@[simp] theorem State.disturb_kw (s : State) (r : LfsrSel) (x : Lfsr) :
    (s.disturb r x).kw = s.kw := (rfl)
@[simp] theorem State.disturb_rk (s : State) (r : LfsrSel) (x : Lfsr) :
    (s.disturb r x).rk = s.rk := (rfl)
@[simp] theorem State.disturb_rkValid (s : State) (r : LfsrSel) (x : Lfsr) :
    (s.disturb r x).rkValid = s.rkValid := (rfl)
@[simp] theorem State.disturb_n (s : State) (r : LfsrSel) (x : Lfsr) :
    (s.disturb r x).n = s.n := (rfl)
@[simp] theorem State.disturb_retryLimit (s : State) (r : LfsrSel) (x : Lfsr) :
    (s.disturb r x).retryLimit = s.retryLimit := (rfl)
@[simp] theorem State.disturb_lastErr (s : State) (r : LfsrSel) (x : Lfsr) :
    (s.disturb r x).lastErr = s.lastErr := (rfl)
@[simp] theorem State.disturb_cfg (s : State) (r : LfsrSel) (x : Lfsr) :
    (s.disturb r x).cfg = s.cfg := (rfl)
@[simp] theorem State.disturb_port (s : State) (r : LfsrSel) (x : Lfsr) :
    (s.disturb r x).port = s.port := (rfl)
@[simp] theorem State.disturb_pay (s : State) (r : LfsrSel) (x : Lfsr) :
    (s.disturb r x).pay = s.pay := (rfl)
@[simp] theorem State.disturb_reply (s : State) (r : LfsrSel) (x : Lfsr) :
    (s.disturb r x).reply = s.reply := (rfl)
@[simp] theorem State.disturb_src (s : State) (r : LfsrSel) (x : Lfsr) :
    (s.disturb r x).src = s.src := (rfl)

/-! ## `resetBlock` -/

@[simp] theorem State.resetBlock_lfsr (s : State) :
    (s.resetBlock).lfsr = Lfsrs.reset := (rfl)
@[simp] theorem State.resetBlock_key (s : State) :
    (s.resetBlock).key = 0#64 := (rfl)
@[simp] theorem State.resetBlock_keyValid (s : State) :
    (s.resetBlock).keyValid = false := (rfl)
@[simp] theorem State.resetBlock_scReady (s : State) :
    (s.resetBlock).scReady = false := (rfl)
@[simp] theorem State.resetBlock_h (s : State) :
    (s.resetBlock).h = Accum.reset := (rfl)
@[simp] theorem State.resetBlock_hlen (s : State) :
    (s.resetBlock).hlen = 0#64 := (rfl)
@[simp] theorem State.resetBlock_tweak0 (s : State) :
    (s.resetBlock).tweak0 = 0#64 := (rfl)
@[simp] theorem State.resetBlock_tweak1 (s : State) :
    (s.resetBlock).tweak1 = 0#64 := (rfl)
@[simp] theorem State.resetBlock_wpb (s : State) :
    (s.resetBlock).wpb = .w0 := (rfl)
@[simp] theorem State.resetBlock_kw (s : State) :
    (s.resetBlock).kw = Vector.replicate 17 0#64 := (rfl)
@[simp] theorem State.resetBlock_rk (s : State) :
    (s.resetBlock).rk = [] := (rfl)
@[simp] theorem State.resetBlock_rkValid (s : State) :
    (s.resetBlock).rkValid = false := (rfl)
@[simp] theorem State.resetBlock_n (s : State) :
    (s.resetBlock).n = Vector.replicate 16 0 := (rfl)
@[simp] theorem State.resetBlock_retryLimit (s : State) :
    (s.resetBlock).retryLimit = 4096#32 := (rfl)
@[simp] theorem State.resetBlock_lastErr (s : State) :
    (s.resetBlock).lastErr = 0#7 := (rfl)
@[simp] theorem State.resetBlock_cfg (s : State) :
    (s.resetBlock).cfg = s.cfg := (rfl)
@[simp] theorem State.resetBlock_port (s : State) :
    (s.resetBlock).port = s.port := (rfl)
@[simp] theorem State.resetBlock_pay (s : State) :
    (s.resetBlock).pay = [] := (rfl)
@[simp] theorem State.resetBlock_reply (s : State) :
    (s.resetBlock).reply = none := (rfl)
@[simp] theorem State.resetBlock_src (s : State) :
    (s.resetBlock).src = s.src := (rfl)

/-! ## `scheduled` -/

@[simp] theorem State.scheduled_lfsr (s : State) (w : Wpb) :
    (s.scheduled w).lfsr = s.lfsr := (rfl)
@[simp] theorem State.scheduled_key (s : State) (w : Wpb) :
    (s.scheduled w).key = s.key := (rfl)
@[simp] theorem State.scheduled_keyValid (s : State) (w : Wpb) :
    (s.scheduled w).keyValid = s.keyValid := (rfl)
@[simp] theorem State.scheduled_scReady (s : State) (w : Wpb) :
    (s.scheduled w).scReady = s.scReady := (rfl)
@[simp] theorem State.scheduled_h (s : State) (w : Wpb) :
    (s.scheduled w).h = s.h := (rfl)
@[simp] theorem State.scheduled_hlen (s : State) (w : Wpb) :
    (s.scheduled w).hlen = s.hlen := (rfl)
@[simp] theorem State.scheduled_tweak0 (s : State) (w : Wpb) :
    (s.scheduled w).tweak0 = s.tweak0 := (rfl)
@[simp] theorem State.scheduled_tweak1 (s : State) (w : Wpb) :
    (s.scheduled w).tweak1 = s.tweak1 := (rfl)
@[simp] theorem State.scheduled_wpb (s : State) (w : Wpb) :
    (s.scheduled w).wpb = w := (rfl)
@[simp] theorem State.scheduled_kw (s : State) (w : Wpb) :
    (s.scheduled w).kw = kwVector (extWord s.cfg s.pay w.toNat) := (rfl)
@[simp] theorem State.scheduled_rk (s : State) (w : Wpb) :
    (s.scheduled w).rk = s.rk.write 0
      (rkBytes (kwVector (extWord s.cfg s.pay w.toNat)) w.toNat s.tweak0 s.tweak1) := (rfl)
@[simp] theorem State.scheduled_rkValid (s : State) (w : Wpb) :
    (s.scheduled w).rkValid = true := (rfl)
@[simp] theorem State.scheduled_n (s : State) (w : Wpb) :
    (s.scheduled w).n = s.n := (rfl)
@[simp] theorem State.scheduled_retryLimit (s : State) (w : Wpb) :
    (s.scheduled w).retryLimit = s.retryLimit := (rfl)
@[simp] theorem State.scheduled_lastErr (s : State) (w : Wpb) :
    (s.scheduled w).lastErr = s.lastErr := (rfl)
@[simp] theorem State.scheduled_cfg (s : State) (w : Wpb) :
    (s.scheduled w).cfg = s.cfg := (rfl)
@[simp] theorem State.scheduled_port (s : State) (w : Wpb) :
    (s.scheduled w).port = s.port := (rfl)
@[simp] theorem State.scheduled_pay (s : State) (w : Wpb) :
    (s.scheduled w).pay = s.pay := (rfl)
@[simp] theorem State.scheduled_reply (s : State) (w : Wpb) :
    (s.scheduled w).reply = s.reply := (rfl)
@[simp] theorem State.scheduled_src (s : State) (w : Wpb) :
    (s.scheduled w).src = s.src := (rfl)

/-! ## `writeN`: only the integer registers change -/

theorem State.writeN_eq (s : State) (d : List (NReg × Int)) :
    s.writeN d = { s with n := d.foldl (fun n p => n.set p.1 p.2) s.n } := by
  unfold State.writeN
  induction d generalizing s with
  | nil => rfl
  | cons p d ih => rw [List.foldl_cons, ih]; rfl

@[simp] theorem State.writeN_lfsr (s : State) (d : List (NReg × Int)) :
    (s.writeN d).lfsr = s.lfsr := by rw [State.writeN_eq]
@[simp] theorem State.writeN_key (s : State) (d : List (NReg × Int)) :
    (s.writeN d).key = s.key := by rw [State.writeN_eq]
@[simp] theorem State.writeN_keyValid (s : State) (d : List (NReg × Int)) :
    (s.writeN d).keyValid = s.keyValid := by rw [State.writeN_eq]
@[simp] theorem State.writeN_scReady (s : State) (d : List (NReg × Int)) :
    (s.writeN d).scReady = s.scReady := by rw [State.writeN_eq]
@[simp] theorem State.writeN_h (s : State) (d : List (NReg × Int)) :
    (s.writeN d).h = s.h := by rw [State.writeN_eq]
@[simp] theorem State.writeN_hlen (s : State) (d : List (NReg × Int)) :
    (s.writeN d).hlen = s.hlen := by rw [State.writeN_eq]
@[simp] theorem State.writeN_tweak0 (s : State) (d : List (NReg × Int)) :
    (s.writeN d).tweak0 = s.tweak0 := by rw [State.writeN_eq]
@[simp] theorem State.writeN_tweak1 (s : State) (d : List (NReg × Int)) :
    (s.writeN d).tweak1 = s.tweak1 := by rw [State.writeN_eq]
@[simp] theorem State.writeN_wpb (s : State) (d : List (NReg × Int)) :
    (s.writeN d).wpb = s.wpb := by rw [State.writeN_eq]
@[simp] theorem State.writeN_kw (s : State) (d : List (NReg × Int)) :
    (s.writeN d).kw = s.kw := by rw [State.writeN_eq]
@[simp] theorem State.writeN_rk (s : State) (d : List (NReg × Int)) :
    (s.writeN d).rk = s.rk := by rw [State.writeN_eq]
@[simp] theorem State.writeN_rkValid (s : State) (d : List (NReg × Int)) :
    (s.writeN d).rkValid = s.rkValid := by rw [State.writeN_eq]
@[simp] theorem State.writeN_n (s : State) (d : List (NReg × Int)) :
    (s.writeN d).n = d.foldl (fun n p => n.set p.1 p.2) s.n := by rw [State.writeN_eq]
@[simp] theorem State.writeN_retryLimit (s : State) (d : List (NReg × Int)) :
    (s.writeN d).retryLimit = s.retryLimit := by rw [State.writeN_eq]
@[simp] theorem State.writeN_lastErr (s : State) (d : List (NReg × Int)) :
    (s.writeN d).lastErr = s.lastErr := by rw [State.writeN_eq]
@[simp] theorem State.writeN_cfg (s : State) (d : List (NReg × Int)) :
    (s.writeN d).cfg = s.cfg := by rw [State.writeN_eq]
@[simp] theorem State.writeN_port (s : State) (d : List (NReg × Int)) :
    (s.writeN d).port = s.port := by rw [State.writeN_eq]
@[simp] theorem State.writeN_pay (s : State) (d : List (NReg × Int)) :
    (s.writeN d).pay = s.pay := by rw [State.writeN_eq]
@[simp] theorem State.writeN_reply (s : State) (d : List (NReg × Int)) :
    (s.writeN d).reply = s.reply := by rw [State.writeN_eq]
@[simp] theorem State.writeN_src (s : State) (d : List (NReg × Int)) :
    (s.writeN d).src = s.src := by rw [State.writeN_eq]

/-! ## Reading one integer register, one shift register, one accumulator after a write -/

theorem State.x_setN (s : State) (i j : NReg) (v : Int) :
    (s.setN i v).x j = if i = j then v else s.x j := by
  simp only [State.x, State.setN, Fin.getElem_fin, Vector.getElem_set, Fin.ext_iff]

@[simp] theorem Lfsrs.get_set_self (ls : Lfsrs) (r : LfsrSel) (x : Lfsr) : (ls.set r x).get r = x := by
  cases r <;> rfl

theorem Lfsrs.get_set_of_ne (ls : Lfsrs) {r r' : LfsrSel} (x : Lfsr) (h : r' ≠ r) :
    (ls.set r x).get r' = ls.get r' := by
  cases r <;> cases r' <;> first | rfl | exact absurd rfl h

@[simp] theorem Lfsrs.set_set (ls : Lfsrs) (r : LfsrSel) (x y : Lfsr) :
    (ls.set r x).set r y = ls.set r y := by
  cases r <;> rfl

@[simp] theorem Lfsrs.get_each (ls : Lfsrs) (f : Lfsr → Lfsr) (r : LfsrSel) :
    (ls.each f).get r = f (ls.get r) := by
  cases r <;> rfl

theorem Lfsrs.ext_get {a b : Lfsrs} (h : ∀ r, a.get r = b.get r) : a = b := by
  cases a; cases b
  simpa [Lfsrs.get] using And.intro (h .l0) (And.intro (h .l1) (h .l2))

@[simp] theorem Accum.get_set_self (h : Accum) (j : Fin 5) (v : Word32) : (h.set j v).get j = v := by
  fin_cases j <;> rfl

theorem Accum.get_set_of_ne (h : Accum) {j k : Fin 5} (v : Word32) (hk : k ≠ j) :
    (h.set j v).get k = h.get k := by
  fin_cases j <;> fin_cases k <;> first | rfl | exact absurd rfl hk

end Sys2Proof.Machine
end

