-- ==== Sys2Proof/Laws/Ops.lean ====
section
/-! SUPPORT. What the shared operations can do, said once for each: the status word, the end of a command,
an error, the write of integer registers, the random source (spec/30_encoding.md R84; 60_exceptions.md
R265; 44_nt_arith.md R192; 00_scope.md R16). -/

namespace Sys2Proof.Machine

/-! ## The status word (30_encoding.md R84) -/

theorem statusWord_toNat (c : BitVec 7) (b : Bool) (n : Nat) : (statusWord c b n).toNat
    = (c != 0#7).toNat * 2 ^ 31 + c.toNat * 2 ^ 24 + b.toNat * 2 ^ 16 + n % 2 ^ 16 := by
  have h1 := c.isLt
  have h2 := Bool.toNat_le (c != 0#7)
  have h3 := Bool.toNat_le b
  rw [statusWord, BitVec.toNat_ofNat, Nat.mod_eq_of_lt]
  omega

/-- The end of a successful command with a response. -/
theorem statusWord_ok {n : Nat} (h : n < 2 ^ 16) : statusWord 0#7 false n = BitVec.ofNat 32 n := by
  apply BitVec.eq_of_toNat_eq
  rw [statusWord_toNat, BitVec.toNat_ofNat]
  simp
  omega

/-- The end of a successful command with a one-bit result. -/
theorem statusWord_bit (b : Bool) :
    statusWord 0#7 b 0 = if b then 0x00010000#32 else 0x00000000#32 := by
  cases b <;> rfl

/-- The end of a failed command. -/
theorem statusWord_error : ∀ c : BitVec 7, c ≠ 0#7 →
    statusWord c false 0 = 0x80000000#32 ||| (c.setWidth 32 <<< 24) := by
  decide +kernel

theorem statusWord_fields (c : BitVec 7) (b : Bool) (n : Nat) :
    field 31 31 (statusWord c b n) = (c != 0#7).toNat
    ∧ field 30 24 (statusWord c b n) = c.toNat
    ∧ field 23 17 (statusWord c b n) = 0
    ∧ field 16 16 (statusWord c b n) = b.toNat
    ∧ field 15 0 (statusWord c b n) = n % 2 ^ 16 := by
  have h1 := c.isLt
  have h2 := Bool.toNat_le (c != 0#7)
  have h3 := Bool.toNat_le b
  simp only [field, statusWord_toNat]
  refine ⟨?_, ?_, ?_, ?_, ?_⟩ <;> omega

theorem Err.code_ne_zero (e : Err) : e.code ≠ 0#7 := by cases e <;> decide

theorem Err.code_le (e : Err) : e.code.toNat ≤ 6 := by cases e <;> decide

/-! ## Taking a transaction and ending a command -/

theorem transact_of_length {s : State} {n : Nat} (h : s.pay.length = n) (body : Answer) :
    transact n s body = body := if_pos h

theorem transact_of_ne {s : State} {n : Nat} (h : s.pay.length ≠ n) (body : Answer) :
    transact n s body = .refused .payloadLength := if_neg h

theorem transact_next {s t : State} {n : Nat} {body : Answer} :
    transact n s body = .next t ↔ s.pay.length = n ∧ body = .next t := by
  unfold transact
  split <;> simp_all

theorem complete_next {s t : State} {b : Bool} {r : List Byte} :
    complete b r s = .next t ↔ s.finish 0#7 b r = t := by
  simp [complete]

theorem raise_next {e : Err} {s t : State} : raise e s = .next t ↔ s.finish e.code false [] = t := by
  simp [raise]

theorem illegalWord_next {s t : State} :
    illegalWord s = .next t ↔ s.pay = [] ∧ s.finish 1#7 false [] = t := by
  rw [illegalWord, transact_next, raise_next, List.length_eq_zero_iff]; rfl

/-- The one thing a write of destinations can do: write all of them, or report E_RANGE. -/
theorem writeBack_next {d : List (NReg × Int)} {s t : State} : writeBack d s = .next t ↔
    ((∀ p ∈ d, fits s.cfg p.2 = true) ∧ (s.writeN d).finish 0#7 false [] = t)
    ∨ ((∃ p ∈ d, fits s.cfg p.2 = false) ∧ s.finish 4#7 false [] = t) := by
  unfold writeBack
  split
  · next h =>
    rw [List.all_eq_true] at h
    rw [complete_next]
    constructor
    · exact fun ht => .inl ⟨h, ht⟩
    · rintro (⟨-, ht⟩ | ⟨⟨p, hp, hf⟩, -⟩)
      · exact ht
      · rw [h p hp] at hf; exact absurd hf (by simp)
  · next h =>
    rw [Bool.not_eq_true, List.all_eq_false] at h
    obtain ⟨p, hp, hf⟩ := h
    rw [Bool.not_eq_true] at hf
    rw [raise_next]
    constructor
    · exact fun ht => .inr ⟨⟨p, hp, hf⟩, ht⟩
    · rintro (⟨h, -⟩ | ⟨-, ht⟩)
      · rw [h p hp] at hf; exact absurd hf (by simp)
      · exact ht

theorem writeBack_of_fits {d : List (NReg × Int)} {s : State} (h : ∀ p ∈ d, fits s.cfg p.2 = true) :
    writeBack d s = .next ((s.writeN d).finish 0#7 false []) := writeBack_next.mpr (.inl ⟨h, rfl⟩)

/-- A value fits exactly when its magnitude is below `2^NT_BITS` (44_nt_arith.md R191). -/
theorem fits_iff (cfg : Config) (v : Int) :
    fits cfg v = true ↔ ∀ b, cfg.ntBits = some b → v.natAbs < 2 ^ b := by
  unfold fits
  split <;> simp_all

theorem fits_of_natAbs_le {cfg : Config} {v w : Int} (h : v.natAbs ≤ w.natAbs) (hw : fits cfg w = true) :
    fits cfg v = true := by
  rw [fits_iff] at hw ⊢
  exact fun b hb => h.trans_lt (hw b hb)

theorem bitsBeyond_eq_false_iff (cfg : Config) (bits : Nat) :
    bitsBeyond cfg bits = false ↔ ∀ b, cfg.ntBits = some b → bits ≤ b := by
  unfold bitsBeyond
  split <;> simp_all

/-- The end of a generation command: the results, E_RANGE, or E_GENFAIL. -/
theorem generated_next {o : Option Nat × Source} {d : Nat → List (NReg × Int)} {s t : State} :
    generated o d s = .next t ↔
      (∃ c, o.1 = some c ∧ writeBack (d c) { s with src := o.2 } = .next t)
      ∨ (o.1 = none ∧ ({ s with src := o.2 } : State).finish 6#7 false [] = t) := by
  unfold generated
  split
  · next c h => simp [h]
  · next h => simp [h, raise_next, Err.code]

/-! ## The random source (00_scope.md R16) -/

/-- An answer lies in its interval. -/
theorem answerIn_mem {lo hi : Nat} (h : lo ≤ hi) (raw : Nat) :
    lo ≤ answerIn lo hi raw ∧ answerIn lo hi raw ≤ hi := by
  unfold answerIn
  split
  · assumption
  · have : raw % (hi - lo + 1) < hi - lo + 1 := Nat.mod_lt _ (by omega)
    omega

/-- An answer that lies in the interval is taken as it is. -/
theorem answerIn_of_mem {lo hi raw : Nat} (h1 : lo ≤ raw) (h2 : raw ≤ hi) : answerIn lo hi raw = raw :=
  if_pos ⟨h1, h2⟩

@[simp] theorem draw_fst (lo hi : Nat) (src : Source) : (draw lo hi src).1 = answerIn lo hi src.raw := rfl

@[simp] theorem draw_snd (lo hi : Nat) (src : Source) : (draw lo hi src).2 = src.next := rfl

end Sys2Proof.Machine
end

