-- ==== Sys2Proof/Laws/Source.lean ====
section
/-! SUPPORT. Laws of the random source and of the loops that draw from it (spec/00_scope.md R16;
45_nt_primes.md R220 to R230): answers are used up in order, and what each loop answers. -/

namespace Sys2Proof.Machine

/-! ## Answers by number -/

@[simp] theorem Source.after_zero (src : Source) : src.after 0 = src := by simp [Source.after]

theorem Source.next_eq_after (src : Source) : src.next = src.after 1 := by
  simp [Source.next, Source.after]

theorem Source.after_after (src : Source) (j k : Nat) : (src.after j).after k = src.after (j + k) := by
  simp [Source.after, Nat.add_assoc]

theorem Source.after_next (src : Source) (k : Nat) : src.next.after k = src.after (k + 1) := by
  rw [Source.next_eq_after, Source.after_after, Nat.add_comm]

theorem Source.rawAt_zero (src : Source) : src.rawAt 0 = src.raw := by
  unfold Source.rawAt Source.raw
  cases src.script <;> simp

theorem Source.rawAt_after (src : Source) (j k : Nat) : (src.after j).rawAt k = src.rawAt (j + k) := by
  simp [Source.rawAt, Source.after, Nat.add_assoc]

theorem Source.rawAt_next (src : Source) (k : Nat) : src.next.rawAt k = src.rawAt (k + 1) := by
  rw [Source.next_eq_after, Source.rawAt_after, Nat.add_comm]

/-- The answer taken next is answer 0. -/
theorem draw_eq (lo hi : Nat) (src : Source) :
    draw lo hi src = (answerIn lo hi (src.rawAt 0), src.after 1) := by
  rw [Source.rawAt_zero, ← Source.next_eq_after]; rfl

/-! ## The rounds of a primality test (45_nt_primes.md R221, R224) -/

/-- The rounds use up at most `rounds` answers, and all pass exactly when the verdict is true. -/
theorem witnessRounds_spec (pass : Nat → Bool) (n rounds : Nat) (src : Source) :
    (∃ k, k ≤ rounds ∧ (witnessRounds pass n rounds src).2 = src.after k)
    ∧ ((witnessRounds pass n rounds src).1 = true ↔
        ∀ j < rounds, pass (answerIn 2 (n - 2) (src.rawAt j)) = true) := by
  induction rounds generalizing src with
  | zero => exact ⟨⟨0, le_rfl, by simp [witnessRounds]⟩, by simp [witnessRounds]⟩
  | succ r ih =>
    rw [witnessRounds, draw_eq]
    by_cases hp : pass (answerIn 2 (n - 2) (src.rawAt 0)) = true
    · obtain ⟨⟨k, hk, hs⟩, hb⟩ := ih (src.after 1)
      simp only [hp, if_true]
      refine ⟨⟨1 + k, by omega, by rw [hs, Source.after_after]⟩, hb.trans ?_⟩
      simp only [Source.rawAt_after]
      constructor
      · intro h j hj
        cases j with
        | zero => exact hp
        | succ j => rw [Nat.add_comm j 1]; exact h j (by omega)
      · intro h j hj
        exact h (1 + j) (by omega)
    · simp only [hp]
      exact ⟨⟨1, by omega, rfl⟩, by simpa using ⟨0, by omega, by simpa using hp⟩⟩

/-- With every witness passing, the rounds answer true and use up one answer each. -/
theorem witnessRounds_passed {pass : Nat → Bool} {n rounds : Nat} {src : Source}
    (h : ∀ j < rounds, pass (answerIn 2 (n - 2) (src.rawAt j)) = true) :
    witnessRounds pass n rounds src = (true, src.after rounds) := by
  induction rounds generalizing src with
  | zero => simp [witnessRounds]
  | succ r ih =>
    rw [witnessRounds, draw_eq]
    simp only [h 0 (by omega), if_true]
    rw [ih, Source.after_after, Nat.add_comm]
    intro j hj
    rw [Source.rawAt_after, Nat.add_comm]
    exact h (j + 1) (by omega)

/-- The rounds stop at the first witness that does not pass. -/
theorem witnessRounds_failed {pass : Nat → Bool} {n rounds j : Nat} {src : Source} (hj : j < rounds)
    (hp : ∀ i < j, pass (answerIn 2 (n - 2) (src.rawAt i)) = true)
    (hf : pass (answerIn 2 (n - 2) (src.rawAt j)) = false) :
    witnessRounds pass n rounds src = (false, src.after (j + 1)) := by
  induction rounds generalizing src j with
  | zero => omega
  | succ r ih =>
    rw [witnessRounds, draw_eq]
    cases j with
    | zero => simp [hf]
    | succ j =>
      simp only [hp 0 (by omega), if_true]
      rw [ih (j := j) (by omega), Source.after_after, Nat.add_comm]
      · intro i hi
        rw [Source.rawAt_after, Nat.add_comm]
        exact hp (i + 1) (by omega)
      · rw [Source.rawAt_after, Nat.add_comm]
        exact hf

/-- The rounds either all pass and use up one answer each, or use up the answers up to the first witness that
does not pass. -/
theorem witnessRounds_cases (pass : Nat → Bool) (n rounds : Nat) (src : Source) :
    (witnessRounds pass n rounds src = (true, src.after rounds)
      ∧ ∀ j < rounds, pass (answerIn 2 (n - 2) (src.rawAt j)) = true)
    ∨ ∃ j < rounds, witnessRounds pass n rounds src = (false, src.after (j + 1))
      ∧ (∀ i < j, pass (answerIn 2 (n - 2) (src.rawAt i)) = true)
      ∧ pass (answerIn 2 (n - 2) (src.rawAt j)) = false := by
  by_cases h : ∃ j, j < rounds ∧ pass (answerIn 2 (n - 2) (src.rawAt j)) = false
  · obtain ⟨hj, hf⟩ := Nat.find_spec h
    have hp : ∀ i < Nat.find h, pass (answerIn 2 (n - 2) (src.rawAt i)) = true := fun i hi => by
      simpa [hi.trans hj] using Nat.find_min h hi
    exact .inr ⟨_, hj, witnessRounds_failed hj hp hf, hp, hf⟩
  · have hp : ∀ j < rounds, pass (answerIn 2 (n - 2) (src.rawAt j)) = true := fun j hj => by
      simpa using fun hf => h ⟨j, hj, hf⟩
    exact .inl ⟨witnessRounds_passed hp, hp⟩

/-- A test answers at once on small and even numbers, and by its rounds on odd numbers from 5 on. -/
theorem primalityTest_spec (pass : Nat → Nat → Bool) (v : Int) (rounds : Nat) (src : Source) :
    (v < 2 ∨ (v ≠ 2 ∧ v % 2 = 0) → primalityTest pass v rounds src = (false, src))
    ∧ (v = 2 ∨ v = 3 → primalityTest pass v rounds src = (true, src))
    ∧ (5 ≤ v → v % 2 = 1 →
        primalityTest pass v rounds src = witnessRounds (pass v.toNat) v.toNat rounds src) := by
  unfold primalityTest
  refine ⟨?_, ?_, ?_⟩
  · rintro (h | ⟨h1, h2⟩)
    · rw [if_pos h]
    · by_cases h3 : v < 2
      · rw [if_pos h3]
      · rw [if_neg h3, if_neg (by omega), if_pos h2]
  · intro h
    rw [if_neg (by omega), if_pos h]
  · intro h1 h2
    rw [if_neg (by omega), if_neg (by omega), if_neg (by omega)]

/-- A test uses up at most `rounds` answers. -/
theorem primalityTest_src (pass : Nat → Nat → Bool) (v : Int) (rounds : Nat) (src : Source) :
    ∃ k, k ≤ rounds ∧ (primalityTest pass v rounds src).2 = src.after k := by
  unfold primalityTest
  split
  · exact ⟨0, by omega, by simp⟩
  · split
    · exact ⟨0, by omega, by simp⟩
    · split
      · exact ⟨0, by omega, by simp⟩
      · exact (witnessRounds_spec _ _ _ _).1

/-! ## The retry frame (45_nt_primes.md R225) -/

/-- What a retry frame answers: an accepted candidate or none; it uses up answers in order. -/
theorem retry_spec {candidate : Source → Nat × Source} {accept : Nat → Source → Bool × Source}
    (hc : ∀ src, ∃ k, (candidate src).2 = src.after k)
    (ha : ∀ c src, ∃ k, (accept c src).2 = src.after k) (limit : Nat) (src : Source) :
    (∃ k, (retry candidate accept limit src).2 = src.after k)
    ∧ ∀ c, (retry candidate accept limit src).1 = some c →
        ∃ k, c = (candidate (src.after k)).1
          ∧ (accept c (candidate (src.after k)).2).1 = true := by
  induction limit generalizing src with
  | zero => exact ⟨⟨0, by simp [retry]⟩, by simp [retry]⟩
  | succ l ih =>
    rw [retry]
    by_cases hacc : (accept (candidate src).1 (candidate src).2).1 = true
    · simp only [hacc, if_true]
      obtain ⟨j, hj⟩ := hc src
      obtain ⟨k, hk⟩ := ha (candidate src).1 (candidate src).2
      refine ⟨⟨j + k, by rw [hk, hj, Source.after_after]⟩, ?_⟩
      intro c h
      cases h
      exact ⟨0, by simp, by simpa using hacc⟩
    · simp only [hacc]
      obtain ⟨j, hj⟩ := hc src
      obtain ⟨k, hk⟩ := ha (candidate src).1 (candidate src).2
      have hsrc : (accept (candidate src).1 (candidate src).2).2 = src.after (j + k) := by
        rw [hk, hj, Source.after_after]
      obtain ⟨⟨m, hm⟩, hs⟩ := ih (src.after (j + k))
      rw [hsrc]
      refine ⟨⟨j + k + m, by simpa [Source.after_after] using hm⟩, ?_⟩
      intro c h
      obtain ⟨i, h1, h2⟩ := hs c (by simpa using h)
      exact ⟨j + k + i, by rw [h1, Source.after_after], by rwa [Source.after_after] at h2⟩

/-- A retry frame whose test draws nothing makes at most `limit` draws with a one-draw candidate. -/
theorem retry_draws {candidate : Source → Nat × Source} {accept : Nat → Source → Bool × Source}
    (hc : ∀ src, (candidate src).2 = src.after 1) (ha : ∀ c src, (accept c src).2 = src)
    (limit : Nat) (src : Source) :
    ∃ k, k ≤ limit ∧ (retry candidate accept limit src).2 = src.after k := by
  induction limit generalizing src with
  | zero => exact ⟨0, le_rfl, by simp [retry]⟩
  | succ l ih =>
    rw [retry]
    split
    · exact ⟨1, by omega, by rw [ha, hc]⟩
    · obtain ⟨k, hk, hs⟩ := ih (src.after 1)
      refine ⟨1 + k, by omega, ?_⟩
      rw [ha, hc, hs, Source.after_after]

/-- The first candidate is taken when it is accepted. -/
theorem retry_first {candidate : Source → Nat × Source} {accept : Nat → Source → Bool × Source}
    {limit : Nat} {src : Source} (hl : 1 ≤ limit)
    (h : (accept (candidate src).1 (candidate src).2).1 = true) :
    retry candidate accept limit src
      = (some (candidate src).1, (accept (candidate src).1 (candidate src).2).2) := by
  obtain ⟨l, rfl⟩ : ∃ l, limit = l + 1 := ⟨limit - 1, by omega⟩
  rw [retry]
  simp only [h, if_true]

/-- Tries that fail use up one unit of the budget each and leave the source where their tests left it. -/
theorem retry_rejected {candidate : Source → Nat × Source} {accept : Nat → Source → Bool × Source}
    {pos : Nat → Nat} {src : Source} (limit : Nat) : ∀ n, n ≤ limit →
    (∀ i < n, accept (candidate (src.after (pos i))).1 (candidate (src.after (pos i))).2
      = (false, src.after (pos (i + 1)))) →
    retry candidate accept limit (src.after (pos 0))
      = retry candidate accept (limit - n) (src.after (pos n)) := by
  intro n
  induction n with
  | zero => intro _ _; rfl
  | succ n ih =>
    intro hn h
    rw [ih (by omega) fun i hi => h i (by omega)]
    obtain ⟨l, hl⟩ : ∃ l, limit - n = l + 1 := ⟨limit - n - 1, by omega⟩
    rw [hl, retry, h n (by omega), show limit - (n + 1) = l by omega]
    rfl

section
variable {candidate : Source → Nat × Source} {accept : Nat → Source → Bool × Source} {src : Source}
  (hc : ∀ src, (candidate src).2 = src.after 1) (ha : ∀ c src, (accept c src).2 = src)
include hc ha

/-- Where a try draws its candidate and nothing else, `n` tries that fail use up `n` answers. -/
theorem retry_rejected_draws {n limit : Nat} (hn : n ≤ limit)
    (h : ∀ i < n, (accept (candidate (src.after i)).1 (src.after (i + 1))).1 = false) :
    retry candidate accept limit src = retry candidate accept (limit - n) (src.after n) := by
  have hr := retry_rejected (candidate := candidate) (accept := accept) (pos := id) (src := src) limit n hn
    fun i hi => Prod.ext
      (by simpa only [id, hc, Source.after_after] using h i hi)
      (by rw [ha, hc, Source.after_after]; rfl)
  simpa only [id, Source.after_zero] using hr

/-- Where a try draws its candidate and nothing else, the first accepted candidate is taken and its answer is
the last one used up. -/
theorem retry_accepted_draws {n limit : Nat} (hn : n < limit)
    (h : ∀ i < n, (accept (candidate (src.after i)).1 (src.after (i + 1))).1 = false)
    (hacc : (accept (candidate (src.after n)).1 (src.after (n + 1))).1 = true) :
    retry candidate accept limit src = (some (candidate (src.after n)).1, src.after (n + 1)) := by
  rw [retry_rejected_draws hc ha hn.le h, retry_first (by omega), ha, hc, Source.after_after]
  rwa [hc, Source.after_after]

/-- Where a try draws its candidate and nothing else, a frame that fails has used up `limit` answers. -/
theorem retry_exhausted_draws {limit : Nat}
    (h : ∀ i < limit, (accept (candidate (src.after i)).1 (src.after (i + 1))).1 = false) :
    retry candidate accept limit src = (none, src.after limit) := by
  rw [retry_rejected_draws hc ha le_rfl h, Nat.sub_self]
  rfl
end

/-- With no candidate accepted, every one of the `limit` tries is used up. -/
theorem retry_never {candidate : Source → Nat × Source} {accept : Nat → Source → Bool × Source}
    (h : ∀ src, accept (candidate src).1 (candidate src).2 = (false, src.after 1)) (limit : Nat)
    (src : Source) : retry candidate accept limit src = (none, src.after limit) := by
  induction limit generalizing src with
  | zero => simp [retry]
  | succ l ih =>
    rw [retry]
    simp only [h, Bool.false_eq_true, if_false, ih, Source.after_after, Nat.add_comm]

/-! ## Candidates (45_nt_primes.md R229) -/

theorem cand_eq (w : Nat) (src : Source) :
    cand w src = (answerIn 0 (2 ^ w - 1) (src.rawAt 0) ||| 2 ^ (w - 1) ||| 1, src.after 1) := by
  rw [cand, draw_eq]

/-- A candidate has exactly `w` bits and is odd. -/
theorem cand_spec {w : Nat} (hw : 1 ≤ w) (src : Source) :
    2 ^ (w - 1) ≤ (cand w src).1 ∧ (cand w src).1 < 2 ^ w ∧ (cand w src).1 % 2 = 1 := by
  rw [cand_eq]
  have hpow : 2 ^ (w - 1) < 2 ^ w := Nat.pow_lt_pow_right (by norm_num) (by omega)
  have hpos : 0 < 2 ^ w := by positivity
  have hraw := (answerIn_mem (Nat.zero_le (2 ^ w - 1)) (src.rawAt 0)).2
  refine ⟨?_, ?_, ?_⟩
  · exact (Nat.right_le_or).trans Nat.left_le_or
  · refine Nat.or_lt_two_pow (Nat.or_lt_two_pow (by omega) hpow) ?_
    exact Nat.one_lt_two_pow (by omega)
  · simp

/-- The test of `NT.GENSAFE` uses up answers in order; it accepts when both numbers passed. -/
theorem safeAccept_spec (q : Nat) (src : Source) : (∃ k, (safeAccept q src).2 = src.after k)
    ∧ ((safeAccept q src).1 = true →
        (mr q genRounds src).1 = true
        ∧ ∃ src', (mr (2 * (q : Int) + 1) genRounds src').1 = true) := by
  unfold safeAccept
  by_cases h : (mr q genRounds src).1 = true
  · simp only [h, if_true]
    obtain ⟨j, -, hj⟩ := primalityTest_src mrPass q genRounds src
    obtain ⟨k, -, hk⟩ := primalityTest_src mrPass (2 * (q : Int) + 1) genRounds (mr q genRounds src).2
    refine ⟨⟨j + k, ?_⟩, fun h2 => ⟨trivial, _, h2⟩⟩
    rw [mr, hk, mr, hj, Source.after_after]
  · simp only [h]
    obtain ⟨j, -, hj⟩ := primalityTest_src mrPass q genRounds src
    exact ⟨⟨j, hj⟩, fun h2 => absurd h2 h⟩

end Sys2Proof.Machine
end

