-- ==== Sys2Proof/Laws/Exec.lean ====
section
/-! SUPPORT. What each command can do, said once: every next state a meaning answers, with the condition
under which it answers it (spec/40_lfsr.md to 46_sys.md). Later proofs cite these and do not unfold a
meaning. -/

namespace Sys2Proof.Machine

variable {s t : State}

/-! ## SYS -/

theorem execSysNop_cases (h : execSysNop s = .next t) : s.pay = [] ∧ t = s.finish 0#7 false [] := by
  rw [execSysNop, transact_next, complete_next] at h
  exact ⟨List.length_eq_zero_iff.mp h.1, h.2.symm⟩

theorem execSysReset_cases (h : execSysReset s = .next t) :
    s.pay = [] ∧ t = s.resetBlock.finish 0#7 false [] := by
  rw [execSysReset, transact_next, complete_next] at h
  exact ⟨List.length_eq_zero_iff.mp h.1, h.2.symm⟩

theorem execSysRdreg_cases {num : Reg} (h : execSysRdreg num s = .next t) :
    s.pay = [] ∧ t = s.finish 0#7 false (beN 8 (regRead s num).toNat) := by
  rw [execSysRdreg, transact_next, complete_next] at h
  exact ⟨List.length_eq_zero_iff.mp h.1, h.2.symm⟩

theorem execSysWrreg_cases {num : Reg} (h : execSysWrreg num s = .next t) :
    (num.writable = true ∧ s.pay.length = 8
      ∧ ((regNarrow num = true ∧ 2 ^ 32 ≤ s.payNat 0 8 ∧ t = s.finish 3#7 false [])
        ∨ ((regNarrow num = true → s.payNat 0 8 < 2 ^ 32)
          ∧ t = (regWrite s num (s.payNat 0 8)).finish 0#7 false [])))
    ∨ (num.writable = false ∧ s.pay = [] ∧ t = s.finish 1#7 false []) := by
  unfold execSysWrreg at h
  split at h
  · next hw =>
    rw [transact_next] at h
    obtain ⟨hl, h⟩ := h
    refine .inl ⟨hw, hl, ?_⟩
    split at h
    · next hc =>
      rw [Bool.and_eq_true, decide_eq_true_eq] at hc
      exact .inl ⟨hc.1, hc.2, (raise_next.mp h).symm⟩
    · next hc =>
      rw [Bool.and_eq_true, decide_eq_true_eq] at hc
      exact .inr ⟨fun hn => Nat.lt_of_not_le fun hle => hc ⟨hn, hle⟩, (complete_next.mp h).symm⟩
  · next hw =>
    obtain ⟨hp, h⟩ := illegalWord_next.mp h
    exact .inr ⟨by simpa using hw, hp, h.symm⟩

/-! ## LFSR -/

theorem execLfsrConf_cases {r : LfsrSel} (h : execLfsrConf r s = .next t) :
    s.pay.length = 12
    ∧ ((confBad s = true ∧ t = s.finish 3#7 false [])
      ∨ (confBad s = false ∧ t = (s.disturb r (confLfsr s)).finish 0#7 false [])) := by
  rw [execLfsrConf, transact_next] at h
  obtain ⟨hl, h⟩ := h
  refine ⟨hl, ?_⟩
  split at h
  · next hc => exact .inl ⟨hc, (raise_next.mp h).symm⟩
  · next hc => exact .inr ⟨by simpa using hc, (complete_next.mp h).symm⟩

theorem execLfsrLoad_cases {r : LfsrSel} (h : execLfsrLoad r s = .next t) :
    s.pay.length = 8
    ∧ ((2 ^ (s.lfsr.get r).len.toNat ≤ s.payNat 0 8 ∧ t = s.finish 3#7 false [])
      ∨ (s.payNat 0 8 < 2 ^ (s.lfsr.get r).len.toNat
        ∧ t = (s.disturb r { s.lfsr.get r with s := BitVec.ofNat 64 (s.payNat 0 8) }).finish 0#7 false
            [])) := by
  rw [execLfsrLoad, transact_next] at h
  obtain ⟨hl, h⟩ := h
  refine ⟨hl, ?_⟩
  split at h
  · next hc => exact .inl ⟨hc, (raise_next.mp h).symm⟩
  · next hc => exact .inr ⟨Nat.lt_of_not_le hc, (complete_next.mp h).symm⟩

theorem execLfsrRead_cases {r : LfsrSel} (h : execLfsrRead r s = .next t) :
    s.pay = [] ∧ t = s.finish 0#7 false (beN 8 (s.lfsr.get r).s.toNat) := by
  rw [execLfsrRead, transact_next, complete_next] at h
  exact ⟨List.length_eq_zero_iff.mp h.1, h.2.symm⟩

theorem execLfsrShift_cases {r : LfsrSel} (h : execLfsrShift r s = .next t) :
    s.pay = []
    ∧ t = (s.disturb r ((s.lfsr.get r).shifted (s.lfsr.get r).fb)).finish 0#7 false [] := by
  rw [execLfsrShift, transact_next, complete_next] at h
  exact ⟨List.length_eq_zero_iff.mp h.1, h.2.symm⟩

theorem execLfsrShifto_cases {r : LfsrSel} {b : Bool} (h : execLfsrShifto r b s = .next t) :
    s.pay = [] ∧ t = (s.disturb r ((s.lfsr.get r).shifted b)).finish 0#7 false [] := by
  rw [execLfsrShifto, transact_next, complete_next] at h
  exact ⟨List.length_eq_zero_iff.mp h.1, h.2.symm⟩

theorem execLfsrFb_cases {r : LfsrSel} (h : execLfsrFb r s = .next t) :
    s.pay = [] ∧ t = s.finish 0#7 (s.lfsr.get r).fb [] := by
  rw [execLfsrFb, transact_next, complete_next] at h
  exact ⟨List.length_eq_zero_iff.mp h.1, h.2.symm⟩

theorem execLfsrOut_cases {r : LfsrSel} (h : execLfsrOut r s = .next t) :
    s.pay = [] ∧ t = s.finish 0#7 (s.lfsr.get r).outbit [] := by
  rw [execLfsrOut, transact_next, complete_next] at h
  exact ⟨List.length_eq_zero_iff.mp h.1, h.2.symm⟩

theorem execLfsrClk_cases {r : LfsrSel} (h : execLfsrClk r s = .next t) :
    s.pay = [] ∧ t = s.finish 0#7 (s.lfsr.get r).clkbit [] := by
  rw [execLfsrClk, transact_next, complete_next] at h
  exact ⟨List.length_eq_zero_iff.mp h.1, h.2.symm⟩

/-! ## SC -/

theorem execScSetkey_cases (h : execScSetkey s = .next t) :
    s.pay.length = 8
    ∧ t = ({ s with key := BitVec.ofNat 64 (s.payNat 0 8), keyValid := true, scReady := false }
        : State).finish 0#7 false [] := by
  rw [execScSetkey, transact_next, complete_next] at h
  exact ⟨h.1, h.2.symm⟩

theorem execScInit_cases (h : execScInit s = .next t) :
    s.pay = []
    ∧ ((s.keyValid = true
        ∧ t = ({ s with lfsr := keyload s.key s.lfsr, scReady := true } : State).finish 0#7 false [])
      ∨ (s.keyValid = false ∧ t = s.finish 2#7 false [])) := by
  rw [execScInit, transact_next] at h
  obtain ⟨hl, h⟩ := h
  refine ⟨List.length_eq_zero_iff.mp hl, ?_⟩
  split at h
  · next hc => exact .inl ⟨hc, (complete_next.mp h).symm⟩
  · next hc => exact .inr ⟨by simpa using hc, (raise_next.mp h).symm⟩

theorem execScStep_cases (h : execScStep s = .next t) :
    s.pay = []
    ∧ ((s.scReady = true
        ∧ t = ({ s with lfsr := s.lfsr.clock } : State).finish 0#7 s.lfsr.clock.outXor [])
      ∨ (s.scReady = false ∧ t = s.finish 2#7 false [])) := by
  rw [execScStep, transact_next] at h
  obtain ⟨hl, h⟩ := h
  refine ⟨List.length_eq_zero_iff.mp hl, ?_⟩
  split at h
  · next hc => exact .inl ⟨hc, (complete_next.mp h).symm⟩
  · next hc => exact .inr ⟨by simpa using hc, (raise_next.mp h).symm⟩

theorem execScGen_cases {n : BitVec 16} (h : execScGen n s = .next t) :
    s.pay = []
    ∧ ((s.scReady = true
        ∧ t = ({ s with lfsr := (keystream (8 * n.toNat) s.lfsr).2 } : State).finish 0#7 false
            (bytesMSB (keystream (8 * n.toNat) s.lfsr).1))
      ∨ (s.scReady = false ∧ t = s.finish 2#7 false [])) := by
  rw [execScGen, transact_next] at h
  obtain ⟨hl, h⟩ := h
  refine ⟨List.length_eq_zero_iff.mp hl, ?_⟩
  split at h
  · next hc => exact .inl ⟨hc, (complete_next.mp h).symm⟩
  · next hc => exact .inr ⟨by simpa using hc, (raise_next.mp h).symm⟩

theorem execScRun_cases {n : BitVec 16} (h : execScRun n s = .next t) :
    s.pay.length = n.toNat
    ∧ ((s.keyValid = true
        ∧ t = ({ s with
              lfsr := (keystream (8 * n.toNat) (keyload s.key s.lfsr)).2
              scReady := true } : State).finish 0#7 false
            (bytesMSB (List.zipWith xor (bitsMSB s.pay)
              (keystream (8 * n.toNat) (keyload s.key s.lfsr)).1)))
      ∨ (s.keyValid = false ∧ t = s.finish 2#7 false [])) := by
  rw [execScRun, transact_next] at h
  obtain ⟨hl, h⟩ := h
  refine ⟨hl, ?_⟩
  split at h
  · next hc => exact .inl ⟨hc, (complete_next.mp h).symm⟩
  · next hc => exact .inr ⟨by simpa using hc, (raise_next.mp h).symm⟩

/-! ## SHA -/

theorem execShaInit_cases (h : execShaInit s = .next t) :
    s.pay = [] ∧ t = ({ s with h := Accum.reset, hlen := 0#64 } : State).finish 0#7 false [] := by
  rw [execShaInit, transact_next, complete_next] at h
  exact ⟨List.length_eq_zero_iff.mp h.1, h.2.symm⟩

theorem execShaBlock_cases (h : execShaBlock s = .next t) :
    s.pay.length = 64
    ∧ t = ({ s with h := compress s.h s.pay, hlen := s.hlen + 64#64 } : State).finish 0#7 false [] := by
  rw [execShaBlock, transact_next, complete_next] at h
  exact ⟨h.1, h.2.symm⟩

theorem execShaFinal_cases {n : Fin 64} (h : execShaFinal n s = .next t) :
    s.pay.length = n.val
    ∧ ∃ h' : Accum, t = ({ s with
        h := h'
        hlen := BitVec.ofNat 64 ((s.hlen.toNat + n.val) % 2 ^ 64) } : State).finish 0#7 false [] := by
  rw [execShaFinal, transact_next, complete_next] at h
  exact ⟨h.1, _, h.2.symm⟩

theorem execShaDigest_cases (h : execShaDigest s = .next t) :
    s.pay = [] ∧ t = s.finish 0#7 false (digest s.h) := by
  rw [execShaDigest, transact_next, complete_next] at h
  exact ⟨List.length_eq_zero_iff.mp h.1, h.2.symm⟩

theorem execShaHash_cases {n : BitVec 16} (h : execShaHash n s = .next t) :
    s.pay.length = n.toNat
    ∧ t = ({ s with h := compressAll (pad s.pay) Accum.reset, hlen := n.setWidth 64 } : State).finish
        0#7 false (digest (compressAll (pad s.pay) Accum.reset)) := by
  rw [execShaHash, transact_next, complete_next] at h
  exact ⟨h.1, h.2.symm⟩

/-! ## KS -/

theorem execKsSettweak_cases (h : execKsSettweak s = .next t) :
    s.pay.length = 16
    ∧ t = ({ s with
        tweak0 := BitVec.ofNat 64 (s.payNat 0 8)
        tweak1 := BitVec.ofNat 64 (s.payNat 8 8)
        rkValid := false } : State).finish 0#7 false [] := by
  rw [execKsSettweak, transact_next, complete_next] at h
  exact ⟨h.1, h.2.symm⟩

theorem execKsSched_cases {bs : BitVec 16} (h : execKsSched bs s = .next t) :
    s.pay.length = bs.toNat
    ∧ ((wpbOfSize bs.toNat = none ∧ t = s.finish 3#7 false [])
      ∨ ∃ w, wpbOfSize bs.toNat = some w ∧ t = (s.scheduled w).finish 0#7 false []) := by
  rw [execKsSched, transact_next] at h
  obtain ⟨hl, h⟩ := h
  refine ⟨hl, ?_⟩
  split at h
  · next hc => exact .inl ⟨hc, (raise_next.mp h).symm⟩
  · next w hc => exact .inr ⟨w, hc, (complete_next.mp h).symm⟩

theorem execKsRdrk_cases {i : Fin 20} (h : execKsRdrk i s = .next t) :
    s.pay = []
    ∧ ((s.rkValid = true
        ∧ t = s.finish 0#7 false
            ((List.range (8 * s.wpb.toNat)).map fun j => rkByte s.rk (128 * i.val + j)))
      ∨ (s.rkValid = false ∧ t = s.finish 2#7 false [])) := by
  rw [execKsRdrk, transact_next] at h
  obtain ⟨hl, h⟩ := h
  refine ⟨List.length_eq_zero_iff.mp hl, ?_⟩
  split at h
  · next hc =>
    rw [rkLoad_row] at h
    exact .inl ⟨hc, (complete_next.mp h).symm⟩
  · next hc => exact .inr ⟨by simpa using hc, (raise_next.mp h).symm⟩

/-! ## NT, deterministic arithmetic -/

/-- What a command that writes destinations can end with: all of them written and each in range, or an
error of the NT unit and nothing written (44_nt_arith.md R192). -/
def NtEnd (s t : State) : Prop :=
  (∃ d : List (NReg × Int), (∀ p ∈ d, fits s.cfg p.2 = true) ∧ t = (s.writeN d).finish 0#7 false [])
  ∨ ∃ c : BitVec 7, (c = 1#7 ∨ c = 3#7 ∨ c = 4#7 ∨ c = 5#7 ∨ c = 6#7) ∧ t = s.finish c false []

theorem NtEnd.of_writeBack {d : List (NReg × Int)} (h : writeBack d s = .next t) : NtEnd s t := by
  rcases writeBack_next.mp h with ⟨hf, h⟩ | ⟨-, h⟩
  · exact .inl ⟨d, hf, h.symm⟩
  · exact .inr ⟨4#7, by simp, h.symm⟩

theorem NtEnd.of_raise {e : Err} (he : e ≠ .state) (h : raise e s = .next t) : NtEnd s t :=
  .inr ⟨e.code, by cases e <;> simp [Err.code] at he ⊢, (raise_next.mp h).symm⟩

theorem NtEnd.of_illegal (h : illegalWord s = .next t) : NtEnd s t :=
  .inr ⟨1#7, by simp, (illegalWord_next.mp h).2.symm⟩

theorem execNtLd_cases {rd : NReg} {n : BitVec 16} (h : execNtLd rd n s = .next t) :
    s.pay.length = 1 + n.toNat ∧ NtEnd s t := by
  rw [execNtLd, transact_next] at h
  obtain ⟨hl, h⟩ := h
  refine ⟨hl, ?_⟩
  simp only at h
  split at h
  · exact .of_writeBack h
  · split at h
    · exact .of_writeBack h
    · exact .of_raise (by simp) h

theorem execNtSt_cases {rs : NReg} (h : execNtSt rs s = .next t) :
    s.pay = []
    ∧ ((65535 < 1 + magBytes (s.x rs) ∧ t = s.finish 4#7 false [])
      ∨ (1 + magBytes (s.x rs) ≤ 65535 ∧ t = s.finish 0#7 false (intBytes (s.x rs)))) := by
  rw [execNtSt, transact_next] at h
  obtain ⟨hl, h⟩ := h
  refine ⟨List.length_eq_zero_iff.mp hl, ?_⟩
  split at h
  · next hc => exact .inl ⟨hc, (raise_next.mp h).symm⟩
  · next hc => exact .inr ⟨Nat.le_of_not_lt hc, (complete_next.mp h).symm⟩

theorem execNtXgcd_cases {rg rx ry ra rb : NReg} (h : execNtXgcd rg rx ry ra rb s = .next t) :
    s.pay = [] ∧ NtEnd s t := by
  unfold execNtXgcd at h
  split at h
  · exact ⟨(illegalWord_next.mp h).1, .of_illegal h⟩
  · rw [transact_next] at h
    obtain ⟨hl, h⟩ := h
    refine ⟨List.length_eq_zero_iff.mp hl, ?_⟩
    split at h
    · exact .of_raise (by simp) h
    · exact .of_writeBack h

theorem execNtModinv_cases {rd rn rm : NReg} (h : execNtModinv rd rn rm s = .next t) :
    s.pay = [] ∧ NtEnd s t := by
  rw [execNtModinv, transact_next] at h
  obtain ⟨hl, h⟩ := h
  refine ⟨List.length_eq_zero_iff.mp hl, ?_⟩
  split at h
  · exact .of_raise (by simp) h
  · simp only at h
    split at h
    · exact .of_writeBack h
    · exact .of_raise (by simp) h

theorem execNtCrt_cases {rd : NReg} {k : BitVec 16} (h : execNtCrt rd k s = .next t) :
    s.pay = [] ∧ NtEnd s t := by
  unfold execNtCrt at h
  split at h
  · exact ⟨(illegalWord_next.mp h).1, .of_illegal h⟩
  · rw [transact_next] at h
    obtain ⟨hl, h⟩ := h
    refine ⟨List.length_eq_zero_iff.mp hl, ?_⟩
    split at h
    · exact .of_raise (by simp) h
    · split at h
      · exact .of_raise (by simp) h
      · exact .of_writeBack h

theorem execNtModpow_cases {rd rb re rm : NReg} (h : execNtModpow rd rb re rm s = .next t) :
    s.pay = [] ∧ NtEnd s t := by
  rw [execNtModpow, transact_next] at h
  obtain ⟨hl, h⟩ := h
  refine ⟨List.length_eq_zero_iff.mp hl, ?_⟩
  split at h
  · exact .of_raise (by simp) h
  · split at h
    · exact .of_raise (by simp) h
    · exact .of_writeBack h

/-! ## NT, primality and generation -/

/-- What a test can end with: a verdict, with answers used up, or E_PRECOND without a draw. -/
def TestEnd (s t : State) : Prop :=
  (∃ (b : Bool) (k : Nat), t = ({ s with src := s.src.after k } : State).finish 0#7 b [])
  ∨ t = s.finish 3#7 false []

theorem execNtFermat_cases {rn : NReg} {rounds : BitVec 16} (h : execNtFermat rn rounds s = .next t) :
    s.pay = [] ∧ TestEnd s t := by
  rw [execNtFermat, transact_next] at h
  obtain ⟨hl, h⟩ := h
  refine ⟨List.length_eq_zero_iff.mp hl, ?_⟩
  split at h
  · exact .inr (raise_next.mp h).symm
  · obtain ⟨k, -, hk⟩ := primalityTest_src fermatPass (s.x rn) rounds.toNat s.src
    simp only [complete_next, fermat, hk] at h
    exact .inl ⟨_, k, h.symm⟩

theorem execNtMr_cases {rn : NReg} {rounds : BitVec 16} (h : execNtMr rn rounds s = .next t) :
    s.pay = [] ∧ TestEnd s t := by
  rw [execNtMr, transact_next] at h
  obtain ⟨hl, h⟩ := h
  refine ⟨List.length_eq_zero_iff.mp hl, ?_⟩
  split at h
  · exact .inr (raise_next.mp h).symm
  · obtain ⟨k, -, hk⟩ := primalityTest_src mrPass (s.x rn) rounds.toNat s.src
    simp only [complete_next, mr, hk] at h
    exact .inl ⟨_, k, h.symm⟩

/-- What a generation command can end with: the end of an NT command in the state whose random source has
been used. -/
def GenEnd (s t : State) : Prop := ∃ k, NtEnd { s with src := s.src.after k } t

theorem GenEnd.of_ntEnd (h : NtEnd s t) : GenEnd s t := ⟨0, by simpa using h⟩

theorem GenEnd.of_generated {o : Option Nat × Source} {d : Nat → List (NReg × Int)}
    (hs : ∃ k, o.2 = s.src.after k) (h : generated o d s = .next t) : GenEnd s t := by
  obtain ⟨k, hk⟩ := hs
  refine ⟨k, ?_⟩
  rcases generated_next.mp h with ⟨c, -, hw⟩ | ⟨-, hf⟩
  · rw [hk] at hw; exact .of_writeBack hw
  · rw [hk] at hf; exact .inr ⟨6#7, by simp, hf.symm⟩

theorem execNtGenprime_cases {rd : NReg} {bits : BitVec 16} (h : execNtGenprime rd bits s = .next t) :
    s.pay = [] ∧ GenEnd s t := by
  rw [execNtGenprime, transact_next] at h
  obtain ⟨hl, h⟩ := h
  refine ⟨List.length_eq_zero_iff.mp hl, ?_⟩
  split at h
  · exact .of_ntEnd (.of_raise (by simp) h)
  · split at h
    · exact .of_ntEnd (.of_raise (by simp) h)
    · refine .of_generated (retry_spec (fun src => ⟨1, by rw [cand_eq]⟩) (fun c src => ?_) _ _).1 h
      obtain ⟨k, -, hk⟩ := primalityTest_src mrPass c genRounds src
      exact ⟨k, hk⟩

theorem execNtGensafe_cases {rp rq : NReg} {bits : BitVec 16} (h : execNtGensafe rp rq bits s = .next t) :
    s.pay = [] ∧ GenEnd s t := by
  unfold execNtGensafe at h
  split at h
  · exact ⟨(illegalWord_next.mp h).1, .of_ntEnd (.of_illegal h)⟩
  · rw [transact_next] at h
    obtain ⟨hl, h⟩ := h
    refine ⟨List.length_eq_zero_iff.mp hl, ?_⟩
    split at h
    · exact .of_ntEnd (.of_raise (by simp) h)
    · split at h
      · exact .of_ntEnd (.of_raise (by simp) h)
      · exact .of_generated
          (retry_spec (fun src => ⟨1, by rw [cand_eq]⟩) (fun c src => (safeAccept_spec c src).1) _ _).1 h

theorem execNtFindgen_cases {rd rp rq : NReg} (h : execNtFindgen rd rp rq s = .next t) :
    s.pay = [] ∧ GenEnd s t := by
  rw [execNtFindgen, transact_next] at h
  obtain ⟨hl, h⟩ := h
  refine ⟨List.length_eq_zero_iff.mp hl, ?_⟩
  split at h
  · exact .of_ntEnd (.of_raise (by simp) h)
  · split at h
    · exact .of_ntEnd (.of_raise (by simp) h)
    · exact .of_generated
        (retry_spec (fun src => ⟨1, by rw [draw_eq]⟩) (fun _ src => ⟨0, by simp [genAccept]⟩) _ _).1 h

/-! ## Every command -/

/-- `regWrite` writes one register and at most clears RKVALID. -/
theorem regWrite_frame (s : State) (num : Reg) (v : Nat) :
    (regWrite s num v).lfsr = s.lfsr ∧ (regWrite s num v).key = s.key
    ∧ (regWrite s num v).keyValid = s.keyValid ∧ (regWrite s num v).scReady = s.scReady
    ∧ (regWrite s num v).wpb = s.wpb ∧ (regWrite s num v).kw = s.kw ∧ (regWrite s num v).rk = s.rk
    ∧ (regWrite s num v).n = s.n ∧ (regWrite s num v).lastErr = s.lastErr
    ∧ (regWrite s num v).cfg = s.cfg ∧ (regWrite s num v).port = s.port
    ∧ (regWrite s num v).pay = s.pay ∧ (regWrite s num v).reply = s.reply
    ∧ (regWrite s num v).src = s.src
    ∧ ((regWrite s num v).rkValid = true → s.rkValid = true
        ∧ (regWrite s num v).tweak0 = s.tweak0 ∧ (regWrite s num v).tweak1 = s.tweak1) := by
  cases num <;> simp [regWrite]

end Sys2Proof.Machine
end

