-- ==== Sys2Proof/Laws/Ks.lean ====
section
/-! SUPPORT. Laws of the key-schedule unit (spec/43_key_schedule.md R172 to R176; 20_memory.md R50): what
KW and RK hold after a schedule was stored, entry by entry. -/

namespace Sys2Proof.Machine

/-! ## Key words (R172, R173) -/

theorem kwAt_kwVector (f : Nat → Word64) (j : Nat) :
    kwAt (kwVector f) j = if j < 17 then f j else 0#64 := by
  by_cases h : j < 17
  · rw [if_pos h]
    interval_cases j <;> rfl
  · rw [if_neg h, kwAt, List.getD_eq_getElem?_getD, List.getElem?_eq_none]
    · rfl
    · simp [kwVector]; omega

theorem Wpb.toNat_le (w : Wpb) : w.toNat ≤ 16 := by cases w <;> decide

theorem Wpb.four_le {w : Wpb} (h : w ≠ .w0) : 4 ≤ w.toNat := by
  cases w <;> first | exact absurd rfl h | decide

theorem wpbOfSize_of_ne {w : Wpb} (h : w ≠ .w0) : wpbOfSize (8 * w.toNat) = some w := by
  cases w <;> first | exact absurd rfl h | rfl

theorem wpbOfSize_eq_some {bs : Nat} {w : Wpb} (h : wpbOfSize bs = some w) :
    w ≠ .w0 ∧ bs = 8 * w.toNat := by
  unfold wpbOfSize at h
  split at h
  · next hb => cases h; exact ⟨by decide, hb⟩
  · split at h
    · next hb => cases h; exact ⟨by decide, hb⟩
    · split at h
      · next hb => cases h; exact ⟨by decide, hb⟩
      · cases h

theorem wpbOfSize_eq_none {bs : Nat} (h1 : bs ≠ 32) (h2 : bs ≠ 64) (h3 : bs ≠ 128) :
    wpbOfSize bs = none := by
  rw [wpbOfSize, if_neg h1, if_neg h2, if_neg h3]

/-! ## The bytes of the schedule (20_memory.md R50) -/

theorem length_flatMap_const {α β : Type} {f : α → List β} {n : Nat} (l : List α)
    (h : ∀ a ∈ l, (f a).length = n) : (l.flatMap f).length = n * l.length := by
  induction l with
  | nil => simp
  | cons a l ih =>
    rw [List.flatMap_cons, List.length_append, h a (by simp), ih fun b hb => h b (by simp [hb]),
      List.length_cons]
    ring

/-- Part `q` of equally long parts, put one after the other. -/
theorem drop_take_flatMap {β : Type} {f : Nat → List β} {n : Nat} (h : ∀ a, (f a).length = n) (m q : Nat)
    (hq : q < m) : (((List.range m).flatMap f).drop (n * q)).take n = f q := by
  obtain ⟨d, rfl⟩ : ∃ d, m = q + (d + 1) := ⟨m - q - 1, by omega⟩
  have hl : ((List.range q).flatMap f).length = n * q := by
    simpa using length_flatMap_const (List.range q) fun a _ => h a
  rw [List.range_add, List.flatMap_append, List.drop_append_of_le_length (by omega),
    List.drop_of_length_le (by omega), List.nil_append, List.range_succ_eq_map, List.map_cons,
    List.flatMap_cons, Nat.add_zero, List.take_append_of_le_length (by rw [h]), List.take_of_length_le (by rw [h])]

theorem rkBytes_length (kw : Vector Word64 17) (w : Nat) (t0 t1 : Word64) :
    (rkBytes kw w t0 t1).length = rkSize := by
  rw [rkBytes, length_flatMap_const (n := 128)]
  · simp [ksRounds, rkSize]
  · intro i _
    rw [length_flatMap_const (n := 8)]
    · simp
    · intro k _; simp

/-- The 8 bytes of entry `k` of vector `i`. -/
theorem rkBytes_entry (kw : Vector Word64 17) (w : Nat) (t0 t1 : Word64) {i k : Nat} (hi : i < 20)
    (hk : k < 16) : ((rkBytes kw w t0 t1).drop (128 * i + 8 * k)).take 8
      = beN 8 (roundEntry kw w t0 t1 i k).toNat := by
  have h8 : ∀ i, ∀ a, (beN 8 (roundEntry kw w t0 t1 i a).toNat).length = 8 := fun _ _ => beN_length _ _
  have h128 : ∀ a, ((List.range 16).flatMap fun k => beN 8 (roundEntry kw w t0 t1 a k).toNat).length = 128 := by
    intro a
    rw [length_flatMap_const (n := 8) _ fun k _ => h8 a k]
    simp
  have hrow := drop_take_flatMap h128 20 i hi
  have hent := drop_take_flatMap (h8 i) 16 k hk
  rw [← hrow, List.drop_take, List.take_take, List.drop_drop, Nat.min_eq_left (by omega)] at hent
  exact hent

/-- An entry of RK after a schedule was stored. -/
theorem rkEntry_write (m : Memory) (kw : Vector Word64 17) (w : Nat) (t0 t1 : Word64) {i k : Nat}
    (hi : i < 20) (hk : k < 16) :
    rkEntry (m.write 0 (rkBytes kw w t0 t1)) i k = (roundEntry kw w t0 t1 i k).toNat := by
  have hb : (List.range 8).map (fun j => rkByte (m.write 0 (rkBytes kw w t0 t1)) (128 * i + 8 * k + j))
      = ((rkBytes kw w t0 t1).drop (128 * i + 8 * k)).take 8 := by
    have hl := rkBytes_length kw w t0 t1
    simp only [rkSize] at hl
    apply List.ext_getElem
    · simp; omega
    · intro j h1 h2
      simp only [List.length_map, List.length_range] at h1
      simp only [List.getElem_map, List.getElem_range, List.getElem_take, List.getElem_drop]
      rw [rkByte_write, if_pos (by omega), Nat.sub_zero, List.getD_eq_getElem _ _ (by omega)]
  rw [rkEntry, hb, rkBytes_entry _ _ _ _ hi hk, be_beN_8]

/-- A row of RK as the bytes KS.RDRK returns, entry by entry. -/
theorem row_entry (m : Memory) (i k w : Nat) (hk : k < w) :
    be ((((List.range (8 * w)).map fun j => rkByte m (128 * i + j)).drop (8 * k)).take 8)
      = rkEntry m i k := by
  rw [rkEntry]
  congr 1
  apply List.ext_getElem
  · simp; omega
  · intro j h1 h2
    simp [Nat.add_assoc]

/-! ## Entries by their place (R174) -/

theorem roundEntry_low {kw : Vector Word64 17} {w k : Nat} (t0 t1 : Word64) (i : Nat) (h : k + 3 < w) :
    roundEntry kw w t0 t1 i k = kwAt kw ((i + k) % (w + 1)) := by
  simp only [roundEntry, if_pos h]

theorem roundEntry_third {kw : Vector Word64 17} {w k : Nat} (t0 t1 : Word64) (i : Nat) (h : k + 3 = w) :
    roundEntry kw w t0 t1 i k
      = masked (kwAt kw ((i + k) % (w + 1))).toNat (tweakAt t0 t1 i).toNat := by
  simp only [roundEntry]
  rw [if_neg (by omega), if_pos h]

theorem roundEntry_second {kw : Vector Word64 17} {w k : Nat} (t0 t1 : Word64) (i : Nat) (h : k + 2 = w) :
    roundEntry kw w t0 t1 i k
      = masked (kwAt kw ((i + k) % (w + 1))).toNat (tweakAt t0 t1 (i + 1)).toNat := by
  simp only [roundEntry]
  rw [if_neg (by omega), if_neg (by omega), if_pos h]

theorem roundEntry_last {kw : Vector Word64 17} {w k : Nat} (t0 t1 : Word64) (i : Nat) (h : k + 1 = w) :
    roundEntry kw w t0 t1 i k = masked (kwAt kw ((i + k) % (w + 1))).toNat i := by
  simp only [roundEntry]
  rw [if_neg (by omega), if_neg (by omega), if_neg (by omega), if_pos h]

theorem roundEntry_beyond {kw : Vector Word64 17} {w k : Nat} (t0 t1 : Word64) (i : Nat) (h : w ≤ k) :
    roundEntry kw w t0 t1 i k = 0#64 := by
  simp only [roundEntry]
  rw [if_neg (by omega), if_neg (by omega), if_neg (by omega), if_neg (by omega)]

theorem masked_toNat (a b : Nat) : (masked a b).toNat = (a + b) % 256 := by
  rw [masked, BitVec.toNat_ofNat]
  exact Nat.mod_eq_of_lt ((Nat.mod_lt _ (by norm_num)).trans (by norm_num))

/-- A masked sum depends on the second part modulo 256 only, and on that exactly. -/
theorem masked_eq_iff (a b c : Nat) : masked a b = masked a c ↔ b % 256 = c % 256 := by
  rw [← BitVec.toNat_inj, masked_toNat, masked_toNat]
  omega

/-- Tweaks that agree modulo 256 give the same entries. -/
theorem roundEntry_congr (kw : Vector Word64 17) (w : Nat) {t0 t1 u0 u1 : Word64}
    (h0 : t0.toNat % 256 = u0.toNat % 256) (h1 : t1.toNat % 256 = u1.toNat % 256) (i k : Nat) :
    roundEntry kw w t0 t1 i k = roundEntry kw w u0 u1 i k := by
  have ht : ∀ j, (tweakAt t0 t1 j).toNat % 256 = (tweakAt u0 u1 j).toNat % 256 := by
    intro j
    unfold tweakAt
    split
    · exact h0
    · exact h1
    · simp only [BitVec.toNat_add]; omega
  simp only [roundEntry]
  split
  · rfl
  · split
    · rw [masked_eq_iff]; exact ht i
    · split
      · rw [masked_eq_iff]; exact ht (i + 1)
      · rfl

/-! ## The stored key (R172, R175) -/

theorem kwAt_key (cfg : Config) (key : List Byte) (w j : Nat) (hw : w ≤ 16) :
    kwAt (kwVector (extWord cfg key w)) j
      = if j < w then keyWord cfg key j else if j = w then parityWord cfg key w else 0#64 := by
  rw [kwAt_kwVector]
  split
  · rfl
  · rw [if_neg (by omega), if_neg (by omega)]

/-- The parity word is the constant XORed with the stored key words. -/
theorem parityWord_eq (cfg : Config) (key : List Byte) (w : Nat) (hw : w ≤ 16) :
    parityWord cfg key w
      = (List.range w).foldl (fun p j => p ^^^ kwAt (kwVector (extWord cfg key w)) j) cfg.ksConst := by
  rw [parityWord]
  apply List.foldl_ext
  intro p j hj
  rw [kwAt_key _ _ _ _ hw, if_pos (List.mem_range.mp hj)]

end Sys2Proof.Machine
end

