-- ==== Sys2Proof/Laws/Lfsr.lean ====
section
/-! SUPPORT. Laws of the shift registers and of the keystream (spec/40_lfsr.md R104, R105; 41_stream_cipher.md
R122, R123; the invariants of 10_state.md R23). -/

namespace Sys2Proof.Machine

/-! ## One shift, bit by bit (40_lfsr.md R104, R105) -/

theorem Lfsr.shifted_getLsbD (x : Lfsr) (b : Bool) {j : Nat} (hj : j < 64) :
    (x.shifted b).s.getLsbD j
      = if x.len.toNat ≤ j then false else if j = 0 then b else x.s.getLsbD (j - 1) := by
  simp only [Lfsr.shifted, BitVec.getLsbD_ofNat, Nat.testBit_mod_two_pow, hj, decide_true, Bool.true_and]
  by_cases hn : x.len.toNat ≤ j
  · simp [hn]
  · rw [if_neg hn, decide_eq_true (by omega), Bool.true_and]
    cases j with
    | zero => cases b <;> simp [Nat.testBit_zero, Nat.add_mod]
    | succ j =>
      have hb := Bool.toNat_le b
      rw [Nat.testBit_succ, show (2 * x.s.toNat + b.toNat) / 2 = x.s.toNat by omega]
      simp [BitVec.getLsbD]

/-- The feedback is the XOR of the tapped bits. -/
theorem Lfsr.fb_eq (x : Lfsr) : x.fb
    = (List.range 64).foldl (fun acc j => acc ^^ (x.taps.getLsbD j && x.s.getLsbD j)) false := by
  rw [Lfsr.fb, parity_eq_foldl]
  congr 1
  funext acc j
  rw [BitVec.getLsbD_and, Bool.and_comm]

@[simp] theorem Lfsr.shifted_len (x : Lfsr) (b : Bool) : (x.shifted b).len = x.len := rfl
@[simp] theorem Lfsr.shifted_taps (x : Lfsr) (b : Bool) : (x.shifted b).taps = x.taps := rfl
@[simp] theorem Lfsr.shifted_clkidx (x : Lfsr) (b : Bool) : (x.shifted b).clkidx = x.clkidx := rfl
@[simp] theorem Lfsr.shifted_outidx (x : Lfsr) (b : Bool) : (x.shifted b).outidx = x.outidx := rfl
@[simp] theorem Lfsr.clear_len (x : Lfsr) : x.clear.len = x.len := rfl
@[simp] theorem Lfsr.clear_taps (x : Lfsr) : x.clear.taps = x.taps := rfl
@[simp] theorem Lfsr.clear_clkidx (x : Lfsr) : x.clear.clkidx = x.clkidx := rfl
@[simp] theorem Lfsr.clear_outidx (x : Lfsr) : x.clear.outidx = x.outidx := rfl
@[simp] theorem Lfsr.clear_s (x : Lfsr) : x.clear.s = 0#64 := rfl

/-! ## The invariants of a register (10_state.md R23) -/

theorem Lfsr.Ok.shifted {x : Lfsr} (h : x.Ok) (b : Bool) : (x.shifted b).Ok where
  lenPos := h.lenPos
  lenMax := h.lenMax
  taps := h.taps
  clkidx := h.clkidx
  outidx := h.outidx
  contents := by
    show (BitVec.ofNat 64 _).toNat < 2 ^ x.len.toNat
    rw [BitVec.toNat_ofNat]
    exact (Nat.mod_le _ _).trans_lt (Nat.mod_lt _ (by positivity))

theorem Lfsr.Ok.clear {x : Lfsr} (h : x.Ok) : x.clear.Ok where
  lenPos := h.lenPos
  lenMax := h.lenMax
  taps := h.taps
  clkidx := h.clkidx
  outidx := h.outidx
  contents := by simp

theorem Lfsr.Ok.clockIf {x : Lfsr} (h : x.Ok) (m : Bool) : (x.clockIf m).Ok := by
  unfold Lfsr.clockIf
  split
  · exact h.shifted _
  · exact h

/-! ## Key-loading (41_stream_cipher.md R122) -/

/-- Each register is loaded on its own. -/
theorem get_foldl_each (r : LfsrSel) (f : Nat → Lfsr → Lfsr) (l : List Nat) (ls : Lfsrs) :
    (l.foldl (fun t i => t.each (f i)) ls).get r = l.foldl (fun x i => f i x) (ls.get r) := by
  induction l generalizing ls with
  | nil => rfl
  | cons i l ih => rw [List.foldl_cons, List.foldl_cons, ih, Lfsrs.get_each]

theorem keyload_get (key : Word64) (ls : Lfsrs) (r : LfsrSel) : (keyload key ls).get r
    = (List.range 64).foldl (fun x i => x.keyShift (keyBit key i)) (ls.get r).clear := by
  rw [keyload, get_foldl_each, Lfsrs.get_each]

theorem foldl_ok {f : Nat → Lfsr → Lfsr} (hf : ∀ i x, x.Ok → (f i x).Ok) (l : List Nat) {x : Lfsr}
    (hx : x.Ok) : (l.foldl (fun x i => f i x) x).Ok := by
  induction l generalizing x with
  | nil => exact hx
  | cons i l ih => exact ih (hf i x hx)

theorem keyload_ok {key : Word64} {ls : Lfsrs} (h : ∀ r, (ls.get r).Ok) (r : LfsrSel) :
    ((keyload key ls).get r).Ok := by
  rw [keyload_get]
  exact foldl_ok (f := fun i x => x.keyShift (keyBit key i)) (fun i x hx => hx.shifted _) _ (h r).clear

/-- Key-loading depends on the configuration only, not on the contents. -/
theorem keyload_congr {key : Word64} {ls ls' : Lfsrs} (h : ∀ r, (ls.get r).clear = (ls'.get r).clear) :
    keyload key ls = keyload key ls' := by
  apply Lfsrs.ext_get
  intro r
  rw [keyload_get, keyload_get, h r]

/-! ## The keystream (41_stream_cipher.md R123) -/

theorem clock_get (ls : Lfsrs) (r : LfsrSel) : ls.clock.get r
    = (ls.get r).clockIf (majority ls.l0.clkbit ls.l1.clkbit ls.l2.clkbit) := by
  rw [Lfsrs.clock, Lfsrs.get_each]

/-- The majority rule of the source is the plain majority. -/
theorem majority_eq : ∀ c0 c1 c2 : Bool,
    majority c0 c1 c2 = ((c0 && c1) || (c0 && c2) || (c1 && c2)) := by decide

theorem clock_ok {ls : Lfsrs} (h : ∀ r, (ls.get r).Ok) (r : LfsrSel) : (ls.clock.get r).Ok := by
  rw [clock_get]; exact (h r).clockIf _

@[simp] theorem keystream_length (k : Nat) (ls : Lfsrs) : (keystream k ls).1.length = k := by
  induction k generalizing ls with
  | zero => rfl
  | succ k ih => simp [keystream, ih]

theorem keystream_ok {k : Nat} {ls : Lfsrs} (h : ∀ r, (ls.get r).Ok) (r : LfsrSel) :
    ((keystream k ls).2.get r).Ok := by
  induction k generalizing ls with
  | zero => exact h r
  | succ k ih => exact ih (clock_ok h)

/-- The registers after `k` steps. -/
def clocks (ls : Lfsrs) : Nat → Lfsrs
  | 0 => ls
  | k + 1 => (clocks ls k).clock

theorem clocks_clock (ls : Lfsrs) (k : Nat) : clocks ls.clock k = (clocks ls k).clock := by
  induction k with
  | zero => rfl
  | succ k ih => rw [clocks, ih, clocks]

theorem keystream_snd (k : Nat) (ls : Lfsrs) : (keystream k ls).2 = clocks ls k := by
  induction k generalizing ls with
  | zero => rfl
  | succ k ih => rw [keystream]; simp only [ih]; rw [clocks_clock, clocks]

theorem keystream_getD {k j : Nat} (h : j < k) (ls : Lfsrs) :
    (keystream k ls).1.getD j false = (clocks ls (j + 1)).outXor := by
  induction k generalizing ls j with
  | zero => omega
  | succ k ih =>
    cases j with
    | zero => rfl
    | succ j =>
      have := ih (j := j) (by omega) ls.clock
      rw [clocks_clock] at this
      rw [keystream, clocks, ← this]
      simp

theorem keystream_add (a b : Nat) (ls : Lfsrs) : keystream (a + b) ls
    = ((keystream a ls).1 ++ (keystream b (keystream a ls).2).1, (keystream b (keystream a ls).2).2) := by
  induction a generalizing ls with
  | zero => simp [keystream]
  | succ a ih => rw [Nat.add_right_comm, keystream, ih]; simp [keystream]

end Sys2Proof.Machine
end

