-- ==== Sys2Proof/Laws/Nt.lean ====
section
/-! SUPPORT. Laws of the number-theory unit (spec/44_nt_arith.md R195, R199, R201; 45_nt_primes.md R224): what
the loops compute, in integers. -/

namespace Sys2Proof.Machine

/-! ## Extended GCD (44_nt_arith.md R195) -/

/-- One step of the remainder sequence keeps the greatest common divisor. -/
theorem gcd_step (r0 r1 : Int) : Int.gcd r1 (r0 - r0 / r1 * r1) = Int.gcd r0 r1 := by
  rw [Int.gcd_comm r0 r1]
  exact Int.gcd_sub_mul_right_right r1 r0 (r0 / r1)

/-- The loop answers the greatest common divisor and keeps the Bezout identity. -/
theorem xgcdLoop_spec (a b : Int) (fuel : Nat) : ∀ r0 r1 s0 s1 t0 t1 : Int, 0 ≤ r0 → 0 ≤ r1 →
    r1.toNat < fuel → a * s0 + b * t0 = r0 → a * s1 + b * t1 = r1 →
    (xgcdLoop fuel r0 r1 s0 s1 t0 t1).1 = Int.gcd r0 r1
    ∧ a * (xgcdLoop fuel r0 r1 s0 s1 t0 t1).2.1 + b * (xgcdLoop fuel r0 r1 s0 s1 t0 t1).2.2
      = (xgcdLoop fuel r0 r1 s0 s1 t0 t1).1 := by
  induction fuel with
  | zero => intro r0 r1 s0 s1 t0 t1 _ _ h; omega
  | succ fuel ih =>
    intro r0 r1 s0 s1 t0 t1 h0 h1 hf e0 e1
    rw [xgcdLoop]
    split
    · next hz => subst hz; exact ⟨by simp [abs_of_nonneg h0], e0⟩
    · next hz =>
      have hm := Int.emod_nonneg r0 hz
      have hlt := Int.emod_lt_of_pos r0 (by omega : 0 < r1)
      have hd : r0 - r0 / r1 * r1 = r0 % r1 := by rw [mul_comm, ← Int.emod_def]
      have := ih r1 (r0 - r0 / r1 * r1) s1 (s0 - r0 / r1 * s1) t1 (t0 - r0 / r1 * t1) h1 (by omega)
        (by omega) e1 (by rw [← e0, ← e1]; ring)
      rw [gcd_step] at this
      exact this

/-- The signs of a coefficient pair alternate, and its weighted sum is constant. -/
def Alternating (u0 u1 r0 r1 c : Int) : Prop :=
  (0 ≤ u0 ∧ u1 ≤ 0 ∧ u0 * r1 - u1 * r0 = c) ∨ (u0 ≤ 0 ∧ 0 ≤ u1 ∧ u1 * r0 - u0 * r1 = c)

theorem Alternating.step {u0 u1 r0 r1 c q : Int} (h : Alternating u0 u1 r0 r1 c) (hq : 0 ≤ q) :
    Alternating u1 (u0 - q * u1) r1 (r0 - q * r1) c := by
  rcases h with ⟨h0, h1, h⟩ | ⟨h0, h1, h⟩
  · exact .inr ⟨h1, by nlinarith, by rw [← h]; ring⟩
  · exact .inl ⟨h1, by nlinarith, by rw [← h]; ring⟩

theorem Alternating.natAbs_le {u0 u1 r0 r1 c : Int} (h : Alternating u0 u1 r0 r1 c) (h0 : 1 ≤ r0)
    (h1 : 0 ≤ r1) : u1.natAbs ≤ c.natAbs := by
  rcases h with ⟨hu0, hu1, h⟩ | ⟨hu0, hu1, h⟩
  · have : -u1 ≤ c := by nlinarith
    omega
  · have : u1 ≤ c := by nlinarith
    omega

/-- The coefficients of the loop are at most the operands. -/
theorem xgcdLoop_bounds (a b : Int) (fuel : Nat) : ∀ r0 r1 s0 s1 t0 t1 : Int, 1 ≤ r0 → 0 ≤ r1 →
    r1.toNat < fuel → Alternating s0 s1 r0 r1 b → Alternating t0 t1 r0 r1 a →
    s0.natAbs ≤ b.natAbs → t0.natAbs ≤ a.natAbs →
    (xgcdLoop fuel r0 r1 s0 s1 t0 t1).2.1.natAbs ≤ b.natAbs
    ∧ (xgcdLoop fuel r0 r1 s0 s1 t0 t1).2.2.natAbs ≤ a.natAbs := by
  induction fuel with
  | zero => intro r0 r1 s0 s1 t0 t1 _ _ h; omega
  | succ fuel ih =>
    intro r0 r1 s0 s1 t0 t1 h0 h1 hf hs ht bs bt
    rw [xgcdLoop]
    split
    · exact ⟨bs, bt⟩
    · next hz =>
      have hm := Int.emod_nonneg r0 hz
      have hlt := Int.emod_lt_of_pos r0 (by omega : 0 < r1)
      have hd : r0 - r0 / r1 * r1 = r0 % r1 := by rw [mul_comm, ← Int.emod_def]
      have hq : 0 ≤ r0 / r1 := Int.ediv_nonneg (by omega) h1
      exact ih _ _ _ _ _ _ (by omega) (by omega) (by omega) (hs.step hq) (ht.step hq)
        (hs.natAbs_le h0 h1) (ht.natAbs_le h0 h1)

/-- `xgcd` answers the greatest common divisor with a Bezout pair. -/
theorem xgcd_spec {a b : Int} (ha : 0 ≤ a) (hb : 0 ≤ b) :
    (xgcd a b).1 = Int.gcd a b ∧ a * (xgcd a b).2.1 + b * (xgcd a b).2.2 = (xgcd a b).1 :=
  xgcdLoop_spec a b _ a b 1 0 0 1 ha hb (by omega) (by ring) (by ring)

/-- The loop walks the remainder sequence: each remainder and coefficient is the one before the last minus
the quotient times the last, up to the first remainder 0. -/
theorem xgcdLoop_sequence (fuel : Nat) : ∀ r0 r1 s0 s1 t0 t1 : Int, 0 ≤ r1 → r1.toNat < fuel →
    ∃ (n : Nat) (r s t : Nat → Int),
      (r 0 = r0 ∧ r 1 = r1) ∧ (s 0 = s0 ∧ s 1 = s1) ∧ (t 0 = t0 ∧ t 1 = t1)
      ∧ (∀ i < n, r (i + 1) ≠ 0
        ∧ r (i + 2) = r i - r i / r (i + 1) * r (i + 1)
        ∧ s (i + 2) = s i - r i / r (i + 1) * s (i + 1)
        ∧ t (i + 2) = t i - r i / r (i + 1) * t (i + 1))
      ∧ r (n + 1) = 0 ∧ xgcdLoop fuel r0 r1 s0 s1 t0 t1 = (r n, s n, t n) := by
  induction fuel with
  | zero => intro r0 r1 s0 s1 t0 t1 _ h; omega
  | succ fuel ih =>
    intro r0 r1 s0 s1 t0 t1 h1 hf
    rw [xgcdLoop]
    split
    · next hz =>
      exact ⟨0, fun i => if i = 0 then r0 else r1, fun i => if i = 0 then s0 else s1,
        fun i => if i = 0 then t0 else t1, ⟨rfl, rfl⟩, ⟨rfl, rfl⟩, ⟨rfl, rfl⟩, by simp, hz, rfl⟩
    · next hz =>
      have hm := Int.emod_nonneg r0 hz
      have hlt := Int.emod_lt_of_pos r0 (by omega : 0 < r1)
      have hd : r0 - r0 / r1 * r1 = r0 % r1 := by rw [mul_comm, ← Int.emod_def]
      obtain ⟨n, r, s, t, hr, hs, ht, hstep, hend, heq⟩ := ih r1 (r0 - r0 / r1 * r1) s1
        (s0 - r0 / r1 * s1) t1 (t0 - r0 / r1 * t1) (by omega) (by omega)
      refine ⟨n + 1, fun i => i.casesOn r0 r, fun i => i.casesOn s0 s, fun i => i.casesOn t0 t,
        ⟨rfl, hr.1⟩, ⟨rfl, hs.1⟩, ⟨rfl, ht.1⟩, ?_, hend, heq⟩
      rintro (_ | i) hi
      · simp only [hr, hs, ht]
        exact ⟨hz, rfl, rfl, rfl⟩
      · exact hstep i (by omega)

/-- With positive operands the coefficients are at most the operands. -/
theorem xgcd_bounds {a b : Int} (ha : 0 < a) (hb : 0 < b) :
    (xgcd a b).2.1.natAbs ≤ b.natAbs ∧ (xgcd a b).2.2.natAbs ≤ a.natAbs :=
  xgcdLoop_bounds a b _ a b 1 0 0 1 (by omega) (by omega) (by omega)
    (.inl ⟨by omega, le_rfl, by ring⟩) (.inr ⟨le_rfl, by omega, by ring⟩) (by omega) (by omega)

theorem xgcd_right_zero (a : Int) : xgcd a 0 = (a, 1, 0) := rfl

theorem xgcd_left_zero {b : Int} (hb : 0 < b) : xgcd 0 b = (b, 0, 1) := by
  obtain ⟨n, hn⟩ : ∃ n, b.toNat = n + 1 := ⟨b.toNat - 1, by omega⟩
  rw [xgcd, hn, xgcdLoop, if_neg (by omega)]
  simp [xgcdLoop]

theorem xgcd_self {a : Int} (ha : 0 < a) : xgcd a a = (a, 0, 1) := by
  obtain ⟨n, hn⟩ : ∃ n, a.toNat = n + 1 := ⟨a.toNat - 1, by omega⟩
  rw [xgcd, hn, xgcdLoop, if_neg (by omega)]
  simp [Int.ediv_self (by omega : a ≠ 0), xgcdLoop]

/-! ## Chinese remainders (44_nt_arith.md R199) -/

theorem modProduct_eq (ms : List Int) : modProduct ms = ms.prod := by
  have : ∀ (ms : List Int) (p : Int), ms.foldl (fun p m => p * m) p = p * ms.prod := by
    intro ms
    induction ms with
    | nil => simp
    | cons m ms ih => intro p; rw [List.foldl_cons, ih, List.prod_cons, mul_assoc]
  rw [modProduct, this, one_mul]

/-- The summand of one congruence. -/
def crtTerm (m : Int) (p : Int × Int) : Int := p.1 * (m / p.2) * (xgcd (m / p.2) p.2).2.1

/-- The sum runs through when every modulus is coprime to the product of the others. -/
theorem crtSum_some (m : Int) (ps : List (Int × Int)) : ∀ acc : Int,
    (∀ p ∈ ps, (xgcd (m / p.2) p.2).1 = 1) →
    crtSum m ps acc = some (acc + (ps.map (crtTerm m)).sum) := by
  induction ps with
  | nil => intro acc _; simp [crtSum]
  | cons p ps ih =>
    intro acc h
    obtain ⟨a, mi⟩ := p
    rw [crtSum]
    simp only [h (a, mi) (by simp), if_true]
    rw [ih _ fun q hq => h q (by simp [hq])]
    simp [crtTerm, add_assoc]

/-- The sum stops when a modulus shares a factor with the product of the others. -/
theorem crtSum_none (m : Int) (ps : List (Int × Int)) : ∀ acc : Int,
    (∃ p ∈ ps, (xgcd (m / p.2) p.2).1 ≠ 1) → crtSum m ps acc = none := by
  induction ps with
  | nil => intro acc h; simp at h
  | cons p ps ih =>
    intro acc h
    obtain ⟨a, mi⟩ := p
    rw [crtSum]
    split
    · next h1 =>
      apply ih
      obtain ⟨q, hq, h⟩ := h
      rcases List.mem_cons.mp hq with rfl | hq
      · exact absurd h1 h
      · exact ⟨q, hq, h⟩
    · rfl

theorem list_prod_pos {ms : List Int} (h : ∀ m ∈ ms, 1 ≤ m) : 1 ≤ ms.prod := by
  induction ms with
  | nil => simp
  | cons m ms ih =>
    rw [List.prod_cons]
    have h1 := h m (by simp)
    have h2 := ih fun x hx => h x (by simp [hx])
    nlinarith

theorem coprime_prod_iff (ms : List Int) (x : Int) :
    Int.gcd ms.prod x = 1 ↔ ∀ m ∈ ms, Int.gcd m x = 1 := by
  induction ms with
  | nil => simp
  | cons m ms ih =>
    rw [List.prod_cons, ← Int.isCoprime_iff_gcd_eq_one, IsCoprime.mul_left_iff,
      Int.isCoprime_iff_gcd_eq_one, Int.isCoprime_iff_gcd_eq_one, ih]
    simp

/-- The product of the other moduli. -/
theorem prod_div_getElem {ms : List Int} (h : ∀ m ∈ ms, 1 ≤ m) {i : Nat} (hi : i < ms.length) :
    ms.prod / ms[i] = (ms.eraseIdx i).prod := by
  have h1 := h ms[i] (List.getElem_mem hi)
  rw [← List.CommMonoid.mul_prod_eraseIdx hi]
  exact Int.mul_ediv_cancel_left _ (by omega)

/-- All pairs of different moduli are coprime. -/
def PairwiseCoprime (ms : List Int) : Prop :=
  ∀ i j (hi : i < ms.length) (hj : j < ms.length), i ≠ j → Int.gcd ms[i] ms[j] = 1

/-- A modulus is coprime to the product of the others exactly when it is coprime to each. -/
theorem cofactor_coprime_iff {ms : List Int} (h : ∀ m ∈ ms, 1 ≤ m) {i : Nat} (hi : i < ms.length) :
    (xgcd (ms.prod / ms[i]) ms[i]).1 = 1
      ↔ ∀ j (hj : j < ms.length), j ≠ i → Int.gcd ms[j] ms[i] = 1 := by
  have h1 := h ms[i] (List.getElem_mem hi)
  have h2 : 1 ≤ (ms.eraseIdx i).prod := list_prod_pos fun m hm => h m (List.mem_of_mem_eraseIdx hm)
  rw [prod_div_getElem h hi, (xgcd_spec (by omega) (by omega)).1, Nat.cast_eq_one, coprime_prod_iff]
  constructor
  · intro hc j hj hne
    exact hc _ (List.mem_eraseIdx_iff_getElem.mpr ⟨j, hj, hne, rfl⟩)
  · intro hc m hm
    obtain ⟨j, hj, hne, rfl⟩ := List.mem_eraseIdx_iff_getElem.mp hm
    exact hc j hj hne

/-- Outside pairwise coprime moduli there is no answer. -/
theorem crt_none {rs ms : List Int} (hl : rs.length = ms.length) (h : ∀ m ∈ ms, 1 ≤ m)
    (hc : ¬ PairwiseCoprime ms) : crt rs ms = none := by
  unfold PairwiseCoprime at hc
  push Not at hc
  obtain ⟨i, j, hi, hj, hne, hg⟩ := hc
  rw [crt, modProduct_eq, crtSum_none, Option.map_none]
  refine ⟨(rs[j], ms[j]), ?_, ?_⟩
  · exact List.mem_iff_getElem.mpr ⟨j, by simp; omega, by simp⟩
  · rw [ne_eq, cofactor_coprime_iff h hj]
    push Not
    exact ⟨i, hi, hne, hg⟩

/-- With pairwise coprime moduli the answer lies in `[0, M)` and meets every congruence. -/
theorem crt_some {rs ms : List Int} (hl : rs.length = ms.length) (h : ∀ m ∈ ms, 1 ≤ m)
    (hc : PairwiseCoprime ms) : ∃ v, crt rs ms = some v ∧ 0 ≤ v ∧ v < ms.prod
      ∧ ∀ i (hi : i < ms.length), v % ms[i] = rs[i] % ms[i] := by
  have hM := list_prod_pos h
  have hlen : (rs.zip ms).length = ms.length := by simp [hl]
  have hx : ∀ j (hj : j < ms.length), (xgcd (ms.prod / ms[j]) ms[j]).1 = 1 := fun j hj =>
    (cofactor_coprime_iff h hj).mpr fun i hi hne => hc i j hi hj hne
  refine ⟨((rs.zip ms).map (crtTerm ms.prod)).sum % ms.prod, ?_, Int.emod_nonneg _ (by omega),
    Int.emod_lt_of_pos _ (by omega), ?_⟩
  · rw [crt, modProduct_eq, crtSum_some]
    · simp
    · intro p hp
      obtain ⟨j, hj, rfl⟩ := List.mem_iff_getElem.mp hp
      rw [List.getElem_zip]
      exact hx j (by omega)
  · intro i hi
    have hpos := h ms[i] (List.getElem_mem hi)
    rw [Int.emod_emod_of_dvd _ (List.dvd_prod (List.getElem_mem hi))]
    have hi' : i < ((rs.zip ms).map (crtTerm ms.prod)).length := by simpa [hl] using hi
    rw [← List.add_sum_eraseIdx hi' fun _ _ => AddCommute.all _ _]
    have hrest : ms[i] ∣ (((rs.zip ms).map (crtTerm ms.prod)).eraseIdx i).sum := by
      apply List.dvd_sum
      intro y hy
      obtain ⟨j, hj, hne, rfl⟩ := List.mem_eraseIdx_iff_getElem.mp hy
      have hj' : j < ms.length := by simpa [hl] using hj
      rw [List.getElem_map, List.getElem_zip, crtTerm]
      refine Dvd.dvd.mul_right (Dvd.dvd.mul_left ?_ _) _
      simp only
      rw [prod_div_getElem h hj']
      exact List.dvd_prod (List.mem_eraseIdx_iff_getElem.mpr ⟨i, hi, fun e => hne e.symm, rfl⟩)
    have hterm : ms[i] ∣ ((rs.zip ms).map (crtTerm ms.prod))[i] - rs[i] := by
      rw [List.getElem_map, List.getElem_zip, crtTerm]
      simp only
      have hb := (xgcd_spec (a := ms.prod / ms[i]) (b := ms[i])
        (Int.ediv_nonneg (by omega) (by omega)) (by omega)).2
      rw [hx i hi] at hb
      refine ⟨-(rs[i] * (xgcd (ms.prod / ms[i]) ms[i]).2.2), ?_⟩
      linear_combination rs[i] * hb
    obtain ⟨c, hc1⟩ := hrest
    obtain ⟨d, hd⟩ := hterm
    have : ((rs.zip ms).map (crtTerm ms.prod))[i] + (((rs.zip ms).map (crtTerm ms.prod)).eraseIdx i).sum
        = rs[i] + ms[i] * (d + c) := by linear_combination hd + hc1
    rw [this, Int.add_mul_emod_self_left]

/-! ## Modular exponentiation (44_nt_arith.md R201) -/

theorem modpowLoop_spec (m : Nat) (fuel : Nat) : ∀ e base result : Nat, e < 2 ^ fuel → result < m →
    modpowLoop fuel m e base result = result * base ^ e % m := by
  induction fuel with
  | zero =>
    intro e base result he hr
    have : e = 0 := by simpa using he
    subst this
    simp [modpowLoop, Nat.mod_eq_of_lt hr]
  | succ fuel ih =>
    intro e base result he hr
    rw [modpowLoop]
    split
    · next h0 => subst h0; simp [Nat.mod_eq_of_lt hr]
    · next h0 =>
      have hm : 0 < m := by omega
      rw [pow_succ] at he
      rw [ih _ _ _ (by omega) (by split; exacts [Nat.mod_lt _ hm, hr])]
      have hsq : (base * base % m) ^ (e / 2) % m = base ^ (2 * (e / 2)) % m := by
        rw [← Nat.pow_mod, pow_mul, pow_two]
      split
      · next h1 =>
        have he' : e = 2 * (e / 2) + 1 := by omega
        rw [Nat.mul_mod, hsq, Nat.mod_mod, ← Nat.mul_mod]
        conv_rhs => rw [he', pow_succ]
        congr 1
        ring
      · next h1 =>
        have he' : e = 2 * (e / 2) := by omega
        rw [Nat.mul_mod, hsq, ← Nat.mul_mod, ← he']

/-- `modpow(b, e, m)` is `b^e mod m`. -/
theorem modpow_eq (b : Int) (e : Nat) {m : Nat} (hm : 1 ≤ m) : (modpow b e m : Int) = b ^ e % (m : Int) := by
  have hpos : (0 : Int) < m := by omega
  rw [modpow, modpowLoop_spec _ _ _ _ _ (lt_two_pow_bitlen e) (Nat.mod_lt _ hm)]
  push_cast
  rw [Int.toNat_of_nonneg (Int.emod_nonneg _ (by omega)), Int.mul_emod, Int.emod_emod_of_dvd _ dvd_rfl,
    ← Int.mul_emod, one_mul]
  exact (Int.mod_modEq b m).pow e

theorem modpow_nat (b e : Nat) {m : Nat} (hm : 1 ≤ m) : modpow b e m = b ^ e % m := by
  have := modpow_eq b e hm
  exact_mod_cast this

/-! ## The Miller-Rabin round (45_nt_primes.md R224) -/

theorem twoPart_spec (fuel : Nat) : ∀ m : Nat, 1 ≤ m → m < 2 ^ fuel →
    m = 2 ^ (twoPart fuel m).1 * (twoPart fuel m).2 ∧ (twoPart fuel m).2 % 2 = 1 := by
  induction fuel with
  | zero => intro m h1 h2; simp at h2; omega
  | succ fuel ih =>
    intro m h1 h2
    rw [twoPart]
    split
    · next h => exact ⟨by simp, h⟩
    · next h =>
      rw [pow_succ] at h2
      obtain ⟨e, ho⟩ := ih (m / 2) (by omega) (by omega)
      refine ⟨?_, ho⟩
      simp only [pow_succ]
      rw [mul_right_comm, ← e]
      omega

/-- The decomposition into a power of two and an odd number is unique. -/
theorem twoPart_unique {r t r' t' : Nat} (h : 2 ^ r * t = 2 ^ r' * t') (ht : t % 2 = 1)
    (ht' : t' % 2 = 1) : r = r' ∧ t = t' := by
  induction r generalizing r' with
  | zero =>
    cases r' with
    | zero => simpa using h
    | succ r' => rw [pow_succ] at h; simp at h; rw [h, mul_assoc, mul_left_comm] at ht; omega
  | succ r ih =>
    cases r' with
    | zero => rw [pow_succ] at h; simp at h; rw [← h, mul_assoc, mul_left_comm] at ht'; omega
    | succ r' =>
      rw [pow_succ, pow_succ, mul_right_comm, mul_right_comm _ 2 t'] at h
      have := ih (r' := r') (by omega)
      omega

/-- One of the next `k` squares is `n - 1`. -/
theorem squaresHit_iff (n : Nat) (k : Nat) : ∀ x : Nat,
    squaresHit n k x = true ↔ ∃ j, 1 ≤ j ∧ j ≤ k ∧ x ^ 2 ^ j % n = n - 1 := by
  induction k with
  | zero => intro x; simp [squaresHit]
  | succ k ih =>
    intro x
    have hx : ∀ j, (x * x % n) ^ 2 ^ j % n = x ^ 2 ^ (j + 1) % n := by
      intro j
      rw [← Nat.pow_mod, ← pow_two, ← pow_mul, ← pow_succ']
    rw [squaresHit, Bool.or_eq_true, ih, beq_iff_eq]
    constructor
    · rintro (h | ⟨j, h1, h2, h⟩)
      · exact ⟨1, le_rfl, by omega, by simpa [pow_two] using h⟩
      · exact ⟨j + 1, by omega, by omega, by rw [← hx, h]⟩
    · rintro ⟨j, h1, h2, h⟩
      obtain ⟨i, rfl⟩ : ∃ i, j = i + 1 := ⟨j - 1, by omega⟩
      cases i with
      | zero => exact .inl (by simpa [pow_two] using h)
      | succ i => exact .inr ⟨i + 1, by omega, by omega, by rw [hx, h]⟩

/-- One round of the Miller-Rabin test by powers of the witness, for the decomposition of `n - 1`. -/
theorem mrPass_iff {n a r t : Nat} (hn : 2 ≤ n) (hrt : n - 1 = 2 ^ r * t) (ht : t % 2 = 1) :
    mrPass n a = true ↔ a ^ t % n = 1 ∨ a ^ t % n = n - 1
      ∨ ∃ j, 1 ≤ j ∧ j < r ∧ a ^ (2 ^ j * t) % n = n - 1 := by
  obtain ⟨e, ho⟩ := twoPart_spec (bitlen (n - 1)) (n - 1) (by omega) (lt_two_pow_bitlen _)
  obtain ⟨hr, htt⟩ := twoPart_unique (hrt.symm.trans e) ht ho
  have hsq : ∀ j, (a ^ t % n) ^ 2 ^ j % n = a ^ (2 ^ j * t) % n := by
    intro j
    rw [← Nat.pow_mod, ← pow_mul, mul_comm t]
  unfold mrPass
  simp only [← hr, ← htt, Bool.or_eq_true, beq_iff_eq, squaresHit_iff, modpow_nat a t (by omega : 1 ≤ n),
    hsq, or_assoc]
  constructor
  · rintro (h | h | ⟨j, h1, h2, h⟩)
    · exact .inl h
    · exact .inr (.inl h)
    · exact .inr (.inr ⟨j, h1, by omega, h⟩)
  · rintro (h | h | ⟨j, h1, h2, h⟩)
    · exact .inl h
    · exact .inr (.inl h)
    · exact .inr (.inr ⟨j, h1, by omega, h⟩)

/-- One round of the Fermat test by the power of the witness (45_nt_primes.md R221). -/
theorem fermatPass_iff {n : Nat} (hn : 1 ≤ n) (a : Nat) : fermatPass n a = true ↔ a ^ (n - 1) % n = 1 := by
  rw [fermatPass, modpow_nat a _ hn, beq_iff_eq]

end Sys2Proof.Machine
end

