-- ==== Sys2Proof/Laws/NtProperties.lean ====
section
/-! SUPPORT. The sanity properties of Machine/NtSanity.lean (spec/44_nt_arith.md R203) hold, letter by letter. -/

namespace Sys2Proof.Machine

/-! ## What a successful command wrote -/

/-- A raised error is no success. -/
theorem raise_fails {e : Err} {s t : State} : ¬ Succeeds (raise e s) t := by
  rintro ⟨h, he⟩
  rw [← raise_next.mp h] at he
  cases e <;> simp [Err.code] at he

theorem illegalWord_fails {s t : State} : ¬ Succeeds (illegalWord s) t := by
  rintro ⟨h, he⟩
  rw [← (illegalWord_next.mp h).2] at he
  simp at he

theorem Succeeds.of_transact {n : Nat} {s t : State} {body : Answer} (h : Succeeds (transact n s body) t) :
    Succeeds body t := ⟨(transact_next.mp h.1).2, h.2⟩

/-- A successful write of destinations wrote them. -/
theorem Succeeds.n_of_writeBack {d : List (NReg × Int)} {s t : State} (h : Succeeds (writeBack d s) t) :
    t.n = d.foldl (fun n p => n.set p.1 p.2) s.n := by
  obtain ⟨h, he⟩ := h
  rcases writeBack_next.mp h with ⟨-, rfl⟩ | ⟨-, rfl⟩
  · simp
  · simp at he

/-! ## (a) NT.XGCD, on top of `xgcd_spec` -/

/-- R203 (a): the first result divides both operands, and every common divisor divides it. -/
theorem xgcd_greatest {a b : Int} (ha : 0 ≤ a) (hb : 0 ≤ b) :
    (xgcd a b).1 ∣ a ∧ (xgcd a b).1 ∣ b ∧ ∀ d : Int, d ∣ a → d ∣ b → d ∣ (xgcd a b).1 := by
  rw [(xgcd_spec ha hb).1]
  exact ⟨Int.gcd_dvd_left .., Int.gcd_dvd_right .., fun _ => Int.dvd_coe_gcd⟩

theorem ntXgcd_sane : ntXgcdSanity := by
  intro rg rx ry ra rb s t h
  unfold execNtXgcd at h
  split at h
  · exact absurd h illegalWord_fails
  next hd =>
  have h := h.of_transact
  split at h
  · exact absurd h raise_fails
  next hs =>
  have hn := h.n_of_writeBack
  have ha : 0 ≤ s.x ra := by omega
  have hb : 0 ≤ s.x rb := by omega
  have hg : t.x rg = (xgcd (s.x ra) (s.x rb)).1 := by simp [State.x, hn]; grind
  have hx : t.x rx = (xgcd (s.x ra) (s.x rb)).2.1 := by simp [State.x, hn]; grind
  have hy : t.x ry = (xgcd (s.x ra) (s.x rb)).2.2 := by simp [State.x, hn]
  obtain ⟨h1, h2, h3⟩ := xgcd_greatest ha hb
  rw [hg, hx, hy]
  refine ⟨(xgcd_spec ha hb).2, h1, h2, fun h0 d hda hdb => Int.le_of_dvd ?_ (h3 d hda hdb)⟩
  rw [(xgcd_spec ha hb).1]
  exact_mod_cast Int.gcd_pos_iff.mpr h0

/-! ## (b) NT.MODINV -/

/-- R203 (b): when the gcd is 1 the first coefficient is an inverse. -/
theorem xgcd_inverse {n m : Int} (hn : 0 ≤ n) (hm : 0 ≤ m) (hg : (xgcd n m).1 = 1) :
    n * (xgcd n m).2.1 % m = 1 % m := by
  have h := (xgcd_spec hn hm).2
  rw [hg] at h
  rw [← h, Int.add_mul_emod_self_left]

theorem ntModinv_sane : ntModinvSanity := by
  intro rd rn rm s t h
  have h := h.of_transact
  split at h
  · exact absurd h raise_fails
  next hs =>
  by_cases hg : (xgcd (s.x rn) (s.x rm)).1 = 1
  · rw [if_pos hg] at h
    have hd : t.x rd = (xgcd (s.x rn) (s.x rm)).2.1 := by simp [State.x, h.n_of_writeBack]
    rw [hd]
    exact xgcd_inverse (by omega) (by omega) hg
  · rw [if_neg hg] at h
    exact absurd h raise_fails

/-! ## (c) NT.CRT -/

/-- R203 (c): whatever residue is answered lies below the product and meets every congruence. -/
theorem crt_solves {rs ms : List Int} {v : Int} (hl : rs.length = ms.length) (h : ∀ m ∈ ms, 1 ≤ m)
    (hv : crt rs ms = some v) :
    0 ≤ v ∧ v < ms.prod ∧ ∀ i (hi : i < ms.length), v % ms[i] = rs[i] % ms[i] := by
  by_cases hc : PairwiseCoprime ms
  · obtain ⟨w, hw, hsol⟩ := crt_some hl h hc
    rw [hv] at hw
    cases hw
    exact hsol
  · rw [crt_none hl h hc] at hv
    cases hv

theorem ntCrt_sane : ntCrtSanity := by
  intro rd k s t h
  unfold execNtCrt at h
  split at h
  · exact absurd h illegalWord_fails
  have h := h.of_transact
  split at h
  · exact absurd h raise_fails
  next hm =>
  split at h
  · exact absurd h raise_fails
  next v hv =>
  have hd : t.x rd = v := by simp [State.x, h.n_of_writeBack]
  have hl : (crtResidues s k.toNat).length = (crtModuli s k.toNat).length := by
    simp [crtResidues, crtModuli]
  obtain ⟨h0, hlt, hc⟩ := crt_solves hl (by simpa [List.any_eq_true] using hm) hv
  rw [hd, modProduct_eq]
  refine ⟨h0, hlt, fun i hi => ?_⟩
  simpa [crtResidues, crtModuli] using hc i (by simpa [crtModuli] using hi)

/-! ## (d) NT.MODPOW -/

/-- A sum of exponents is a product of powers. -/
theorem modpow_add (b : Int) (e1 e2 : Nat) {m : Nat} (hm : 1 ≤ m) :
    modpow b (e1 + e2) m = modpow b e1 m * modpow b e2 m % m := by
  have h : (modpow b (e1 + e2) m : Int) = (modpow b e1 m * modpow b e2 m % m : Nat) := by
    push_cast
    rw [modpow_eq b _ hm, modpow_eq b _ hm, modpow_eq b _ hm, pow_add, Int.mul_emod]
  exact_mod_cast h

/-! ## (e) No draw, and the same result for the same registers -/

section
variable {s s' : State} (h : SameOperands s s')
include h

theorem SameOperands.x_eq (i : NReg) : s'.x i = s.x i := by simp [State.x, h.1]

theorem SameOperands.complete (b : Bool) (r : List Byte) :
    SameEnd s s' (complete b r s) (complete b r s') :=
  .inl ⟨_, _, rfl, rfl, by simp [h.1], by simp, by simp, by simp, by simp⟩

theorem SameOperands.raise (e : Err) : SameEnd s s' (raise e s) (raise e s') :=
  .inl ⟨_, _, rfl, rfl, by simp [h.1], by simp, by simp, by simp, by simp⟩

theorem SameOperands.transact (n : Nat) {a a' : Answer} (ha : SameEnd s s' a a') :
    SameEnd s s' (transact n s a) (transact n s' a') := by
  by_cases hl : s.pay.length = n
  · rwa [transact_of_length hl, transact_of_length (by rw [h.2.1, hl])]
  · rw [transact_of_ne hl, transact_of_ne (by rwa [h.2.1])]
    exact .inr ⟨_, rfl, rfl⟩

theorem SameOperands.illegalWord : SameEnd s s' (illegalWord s) (illegalWord s') :=
  h.transact 0 (h.raise .illegal)

theorem SameOperands.writeBack (d : List (NReg × Int)) :
    SameEnd s s' (writeBack d s) (writeBack d s') := by
  unfold Machine.writeBack
  rw [h.2.2]
  split
  · exact .inl ⟨_, _, rfl, rfl, by simp [h.1], by simp, by simp, by simp, by simp⟩
  · exact h.raise .range

theorem SameOperands.payByte_eq (a : Nat) : s'.payByte a = s.payByte a := by
  rw [State.payByte, h.2.1, State.payByte]

theorem SameOperands.payNat_eq (a l : Nat) : s'.payNat a l = s.payNat a l := by
  rw [State.payNat, h.2.1, State.payNat]

end

theorem ntNoDraw_sane : ntNoDrawSanity := by
  intro s s' h
  have hx := h.x_eq
  have hb := h.payByte_eq
  have hn := h.payNat_eq
  refine ⟨?_, ?_, ?_, ?_, ?_, ?_⟩
  · intro rd n
    unfold execNtLd
    refine h.transact _ ?_
    simp only [hb, hn]
    split
    · exact h.writeBack _
    · split
      · exact h.writeBack _
      · exact h.raise _
  · intro rs
    unfold execNtSt
    refine h.transact _ ?_
    simp only [hx]
    split
    · exact h.raise _
    · exact h.complete _ _
  · intro rg rx ry ra rb
    unfold execNtXgcd
    split
    · exact h.illegalWord
    · refine h.transact _ ?_
      simp only [hx]
      split
      · exact h.raise _
      · exact h.writeBack _
  · intro rd rn rm
    unfold execNtModinv
    refine h.transact _ ?_
    simp only [hx]
    split
    · exact h.raise _
    · split
      · exact h.writeBack _
      · exact h.raise _
  · intro rd k
    have hr : crtResidues s' k.toNat = crtResidues s k.toNat := by simp only [crtResidues, hx]
    have hm : crtModuli s' k.toNat = crtModuli s k.toNat := by simp only [crtModuli, hx]
    unfold execNtCrt
    split
    · exact h.illegalWord
    · refine h.transact _ ?_
      simp only [hr, hm]
      split
      · exact h.raise _
      · split
        · exact h.raise _
        · exact h.writeBack _
  · intro rd rb re rm
    unfold execNtModpow
    refine h.transact _ ?_
    simp only [hx]
    split
    · exact h.raise _
    · split
      · exact h.raise _
      · exact h.writeBack _

/-! ## The whole rule -/

theorem ntArith_sane : ntArithSanity :=
  ⟨ntXgcd_sane, ntModinv_sane, ntCrt_sane, fun b e1 e2 _ hm => modpow_add b e1 e2 hm, ntNoDraw_sane⟩

end Sys2Proof.Machine
end

