-- ==== Sys2Proof/Laws/PerInstr.lean ====
section
/-! SUPPORT. The family Fields: what every field of the encoded word of a command holds, written from the
column "format" of spec/30_encoding.md R76 and the operand table R77, one lemma per command. -/

namespace Sys2Proof.Laws.Fields

open Sys2Proof

/-! ## The formats (30_encoding.md R72) -/

def N (w : Word32) (op : Nat) : Prop := field 31 24 w = op ∧ field 23 0 w = 0

def R (w : Word32) (op a : Nat) : Prop := field 31 24 w = op ∧ fR1 w = a ∧ field 19 0 w = 0

def I (w : Word32) (op imm : Nat) : Prop := field 31 24 w = op ∧ field 23 16 w = 0 ∧ fImm w = imm

def RI (w : Word32) (op a imm : Nat) : Prop :=
  field 31 24 w = op ∧ fR1 w = a ∧ field 19 16 w = 0 ∧ fImm w = imm

def RRI (w : Word32) (op a b imm : Nat) : Prop :=
  field 31 24 w = op ∧ fR1 w = a ∧ fR2 w = b ∧ fImm w = imm

def R3 (w : Word32) (op a b c : Nat) : Prop :=
  field 31 24 w = op ∧ fR1 w = a ∧ fR2 w = b ∧ fR3 w = c ∧ field 11 0 w = 0

def R4 (w : Word32) (op a b c d : Nat) : Prop :=
  field 31 24 w = op ∧ fR1 w = a ∧ fR2 w = b ∧ fR3 w = c ∧ fR4 w = d ∧ field 7 0 w = 0

def R5 (w : Word32) (op a b c d e : Nat) : Prop :=
  field 31 24 w = op ∧ fR1 w = a ∧ fR2 w = b ∧ fR3 w = c ∧ fR4 w = d ∧ fR5 w = e ∧ field 3 0 w = 0

/-! ## The words `mkWord` puts together have their format -/

theorem opcode_mkWord {op r1 r2 low : Nat} (ho : op < 256) (h1 : r1 < 16) (h2 : r2 < 16)
    (hl : low < 2 ^ 16) : field 31 24 (mkWord op r1 r2 low) = op := by
  simp only [field, mkWord_toNat ho h1 h2 hl]; omega

theorem mk_N {op : Nat} (ho : op < 256) : N (mkWord op 0 0 0) op :=
  ⟨opcode_mkWord ho (by decide) (by decide) (by decide),
    (zeros_mkWord ho (by decide) (by decide) (by decide)).1⟩

theorem mk_R {op a : Nat} (ho : op < 256) (ha : a < 16) : R (mkWord op a 0 0) op a :=
  ⟨opcode_mkWord ho ha (by decide) (by decide),
    (fields_mkWord ho ha (by decide) (by decide)).2.2.1,
    (zeros_mkWord ho ha (by decide) (by decide)).2.1⟩

theorem mk_I {op imm : Nat} (ho : op < 256) (hi : imm < 2 ^ 16) : I (mkWord op 0 0 imm) op imm :=
  ⟨opcode_mkWord ho (by decide) (by decide) hi,
    (zeros_mkWord ho (by decide) (by decide) hi).2.2.1,
    (fields_mkWord ho (by decide) (by decide) hi).2.2.2.2.2.2.2⟩

theorem mk_RI {op a imm : Nat} (ho : op < 256) (ha : a < 16) (hi : imm < 2 ^ 16) :
    RI (mkWord op a 0 imm) op a imm :=
  ⟨opcode_mkWord ho ha (by decide) hi, (fields_mkWord ho ha (by decide) hi).2.2.1,
    (zeros_mkWord ho ha (by decide) hi).2.2.2.1, (fields_mkWord ho ha (by decide) hi).2.2.2.2.2.2.2⟩

theorem mk_RRI {op a b imm : Nat} (ho : op < 256) (ha : a < 16) (hb : b < 16) (hi : imm < 2 ^ 16) :
    RRI (mkWord op a b imm) op a b imm :=
  ⟨opcode_mkWord ho ha hb hi, (fields_mkWord ho ha hb hi).2.2.1, (fields_mkWord ho ha hb hi).2.2.2.1,
    (fields_mkWord ho ha hb hi).2.2.2.2.2.2.2⟩

theorem mk_R5 {op a b c d e : Nat} (ho : op < 256) (ha : a < 16) (hb : b < 16) (hc : c < 16)
    (hd : d < 16) (he : e < 16) : R5 (mkWord op a b (lowRegs c d e)) op a b c d e := by
  have hl := lowRegs_lt hc hd he
  have hf := fields_mkWord ho ha hb hl
  have hz := zeros_mkWord ho ha hb hl
  have hr := lowRegs_fields (a := c) hd he
  exact ⟨opcode_mkWord ho ha hb hl, hf.2.2.1, hf.2.2.2.1, hf.2.2.2.2.1.trans hr.1,
    hf.2.2.2.2.2.1.trans hr.2.1, hf.2.2.2.2.2.2.1.trans hr.2.2.1, hz.2.2.2.2.2.2.trans hr.2.2.2⟩

theorem mk_R4 {op a b c d : Nat} (ho : op < 256) (ha : a < 16) (hb : b < 16) (hc : c < 16)
    (hd : d < 16) : R4 (mkWord op a b (lowRegs c d 0)) op a b c d := by
  obtain ⟨h1, h2, h3, h4, h5, -⟩ := mk_R5 ho ha hb hc hd (by decide : 0 < 16)
  exact ⟨h1, h2, h3, h4, h5,
    (zeros_mkWord ho ha hb (lowRegs_lt hc hd (by decide))).2.2.2.2.2.1.trans lowRegs_mod.1⟩

theorem mk_R3 {op a b c : Nat} (ho : op < 256) (ha : a < 16) (hb : b < 16) (hc : c < 16) :
    R3 (mkWord op a b (lowRegs c 0 0)) op a b c := by
  obtain ⟨h1, h2, h3, h4, -⟩ := mk_R5 ho ha hb hc (by decide : 0 < 16) (by decide : 0 < 16)
  exact ⟨h1, h2, h3, h4,
    (zeros_mkWord ho ha hb (lowRegs_lt hc (by decide) (by decide))).2.2.2.2.1.trans
      (lowRegs_mod (b := 0)).2⟩

/-! ## The commands (30_encoding.md R76, R77) -/

/-- The fields of the encoded word of a command. -/
def Statement (i : Instr) : Prop :=
  match i with
  | .sysNop => N (encode (.sysNop)) 0x00
  | .sysReset => N (encode (.sysReset)) 0x01
  | .sysRdreg num => I (encode (.sysRdreg num)) 0x02 num.number
  | .sysWrreg num => I (encode (.sysWrreg num)) 0x03 num.number
  | .lfsrConf r => R (encode (.lfsrConf r)) 0x10 r.code
  | .lfsrLoad r => R (encode (.lfsrLoad r)) 0x11 r.code
  | .lfsrRead r => R (encode (.lfsrRead r)) 0x12 r.code
  | .lfsrShift r => R (encode (.lfsrShift r)) 0x13 r.code
  | .lfsrShifto r b => RI (encode (.lfsrShifto r b)) 0x14 r.code b.toNat
  | .lfsrFb r => R (encode (.lfsrFb r)) 0x15 r.code
  | .lfsrOut r => R (encode (.lfsrOut r)) 0x16 r.code
  | .lfsrClk r => R (encode (.lfsrClk r)) 0x17 r.code
  | .scSetkey => N (encode (.scSetkey)) 0x20
  | .scInit => N (encode (.scInit)) 0x21
  | .scStep => N (encode (.scStep)) 0x22
  | .scGen n => I (encode (.scGen n)) 0x23 n.toNat
  | .scRun n => I (encode (.scRun n)) 0x24 n.toNat
  | .shaInit => N (encode (.shaInit)) 0x30
  | .shaBlock => N (encode (.shaBlock)) 0x31
  | .shaFinal n => I (encode (.shaFinal n)) 0x32 n.val
  | .shaDigest => N (encode (.shaDigest)) 0x33
  | .shaHash n => I (encode (.shaHash n)) 0x34 n.toNat
  | .ksSettweak => N (encode (.ksSettweak)) 0x40
  | .ksSched bs => I (encode (.ksSched bs)) 0x41 bs.toNat
  | .ksRdrk i => I (encode (.ksRdrk i)) 0x42 i.val
  | .ntLd rd n => RI (encode (.ntLd rd n)) 0x50 rd.val n.toNat
  | .ntSt rs => R (encode (.ntSt rs)) 0x51 rs.val
  | .ntXgcd rg rx ry ra rb => R5 (encode (.ntXgcd rg rx ry ra rb)) 0x52 rg.val rx.val ry.val ra.val rb.val
  | .ntModinv rd rn rm => R3 (encode (.ntModinv rd rn rm)) 0x53 rd.val rn.val rm.val
  | .ntCrt rd k => RI (encode (.ntCrt rd k)) 0x54 rd.val k.toNat
  | .ntModpow rd rb re rm => R4 (encode (.ntModpow rd rb re rm)) 0x55 rd.val rb.val re.val rm.val
  | .ntFermat rn rounds => RI (encode (.ntFermat rn rounds)) 0x56 rn.val rounds.toNat
  | .ntMr rn rounds => RI (encode (.ntMr rn rounds)) 0x57 rn.val rounds.toNat
  | .ntGenprime rd bits => RI (encode (.ntGenprime rd bits)) 0x58 rd.val bits.toNat
  | .ntGensafe rp rq bits => RRI (encode (.ntGensafe rp rq bits)) 0x59 rp.val rq.val bits.toNat
  | .ntFindgen rd rp rq => R3 (encode (.ntFindgen rd rp rq)) 0x5A rd.val rp.val rq.val

theorem sysNop : Statement .sysNop := mk_N (by decide)

theorem sysReset : Statement .sysReset := mk_N (by decide)

theorem sysRdreg (num : Reg) : Statement (.sysRdreg num) := mk_I (by decide) num.number_lt

theorem sysWrreg (num : Reg) : Statement (.sysWrreg num) := mk_I (by decide) num.number_lt

theorem lfsrConf (r : LfsrSel) : Statement (.lfsrConf r) := mk_R (by decide) r.code_lt

theorem lfsrLoad (r : LfsrSel) : Statement (.lfsrLoad r) := mk_R (by decide) r.code_lt

theorem lfsrRead (r : LfsrSel) : Statement (.lfsrRead r) := mk_R (by decide) r.code_lt

theorem lfsrShift (r : LfsrSel) : Statement (.lfsrShift r) := mk_R (by decide) r.code_lt

theorem lfsrShifto (r : LfsrSel) (b : Bool) : Statement (.lfsrShifto r b) :=
  mk_RI (by decide) r.code_lt (b.toNat_lt.trans (by decide))

theorem lfsrFb (r : LfsrSel) : Statement (.lfsrFb r) := mk_R (by decide) r.code_lt

theorem lfsrOut (r : LfsrSel) : Statement (.lfsrOut r) := mk_R (by decide) r.code_lt

theorem lfsrClk (r : LfsrSel) : Statement (.lfsrClk r) := mk_R (by decide) r.code_lt

theorem scSetkey : Statement .scSetkey := mk_N (by decide)

theorem scInit : Statement .scInit := mk_N (by decide)

theorem scStep : Statement .scStep := mk_N (by decide)

theorem scGen (n : BitVec 16) : Statement (.scGen n) := mk_I (by decide) n.isLt

theorem scRun (n : BitVec 16) : Statement (.scRun n) := mk_I (by decide) n.isLt

theorem shaInit : Statement .shaInit := mk_N (by decide)

theorem shaBlock : Statement .shaBlock := mk_N (by decide)

theorem shaFinal (n : Fin 64) : Statement (.shaFinal n) :=
  mk_I (by decide) (n.isLt.trans (by decide))

theorem shaDigest : Statement .shaDigest := mk_N (by decide)

theorem shaHash (n : BitVec 16) : Statement (.shaHash n) := mk_I (by decide) n.isLt

theorem ksSettweak : Statement .ksSettweak := mk_N (by decide)

theorem ksSched (bs : BitVec 16) : Statement (.ksSched bs) := mk_I (by decide) bs.isLt

theorem ksRdrk (i : Fin 20) : Statement (.ksRdrk i) := mk_I (by decide) (i.isLt.trans (by decide))

theorem ntLd (rd : NReg) (n : BitVec 16) : Statement (.ntLd rd n) :=
  mk_RI (by decide) rd.isLt n.isLt

theorem ntSt (rs : NReg) : Statement (.ntSt rs) := mk_R (by decide) rs.isLt

theorem ntXgcd (rg : NReg) (rx : NReg) (ry : NReg) (ra : NReg) (rb : NReg) : Statement (.ntXgcd rg rx ry ra rb) :=
  mk_R5 (by decide) rg.isLt rx.isLt ry.isLt ra.isLt rb.isLt

theorem ntModinv (rd : NReg) (rn : NReg) (rm : NReg) : Statement (.ntModinv rd rn rm) :=
  mk_R3 (by decide) rd.isLt rn.isLt rm.isLt

theorem ntCrt (rd : NReg) (k : BitVec 16) : Statement (.ntCrt rd k) :=
  mk_RI (by decide) rd.isLt k.isLt

theorem ntModpow (rd : NReg) (rb : NReg) (re : NReg) (rm : NReg) : Statement (.ntModpow rd rb re rm) :=
  mk_R4 (by decide) rd.isLt rb.isLt re.isLt rm.isLt

theorem ntFermat (rn : NReg) (rounds : BitVec 16) : Statement (.ntFermat rn rounds) :=
  mk_RI (by decide) rn.isLt rounds.isLt

theorem ntMr (rn : NReg) (rounds : BitVec 16) : Statement (.ntMr rn rounds) :=
  mk_RI (by decide) rn.isLt rounds.isLt

theorem ntGenprime (rd : NReg) (bits : BitVec 16) : Statement (.ntGenprime rd bits) :=
  mk_RI (by decide) rd.isLt bits.isLt

theorem ntGensafe (rp : NReg) (rq : NReg) (bits : BitVec 16) : Statement (.ntGensafe rp rq bits) :=
  mk_RRI (by decide) rp.isLt rq.isLt bits.isLt

theorem ntFindgen (rd : NReg) (rp : NReg) (rq : NReg) : Statement (.ntFindgen rd rp rq) :=
  mk_R3 (by decide) rd.isLt rp.isLt rq.isLt

end Sys2Proof.Laws.Fields
end

