-- ==== Sys2Proof/Laws/Sha.lean ====
section
/-! SUPPORT. Laws of the hash unit (spec/42_hasher.md R142 to R148): the rounds as a sequence of working
states, the schedule by its recurrence, the blocks of a message as a sequence of accumulators, the
padding. -/

namespace Sys2Proof.Machine

/-! ## Rounds (R143) -/

/-- The working state after the first `k` rounds. -/
def working (ws : List Word32) (v : Accum) : Nat → Accum
  | 0 => v
  | k + 1 => hashRound k (ws.getD k 0) (working ws v k)

theorem rounds_working (ws : List Word32) (v : Accum) (k : Nat) : ∀ i, i + k = ws.length →
    rounds i (ws.drop i) (working ws v i) = working ws v ws.length := by
  induction k with
  | zero => intro i h; rw [List.drop_eq_nil_of_le (by omega), rounds, ← h, Nat.add_zero]
  | succ k ih =>
    intro i h
    rw [List.drop_eq_getElem_cons (by omega), rounds, ← ih (i + 1) (by omega), working]
    congr 2
    rw [List.getD_eq_getElem _ _ (by omega)]

theorem rounds_eq (ws : List Word32) (v : Accum) : rounds 0 ws v = working ws v ws.length := by
  simpa [working] using rounds_working ws v ws.length 0 (by omega)

/-! ## The message schedule (R143) -/

theorem getD_reverse {ws : List Word32} {i : Nat} (h : i < ws.length) :
    ws.reverse.getD i 0 = ws.getD (ws.length - 1 - i) 0 := by
  rw [List.getD_eq_getElem _ _ (by simpa using h), List.getD_eq_getElem _ _ (by omega),
    List.getElem_reverse]

theorem expand_spec (k : Nat) : ∀ ws : List Word32, 16 ≤ ws.length →
    (expand k ws).length = ws.length + k
    ∧ (∀ i < ws.length, (expand k ws).reverse.getD i 0 = ws.reverse.getD i 0)
    ∧ ∀ i, ws.length ≤ i → i < ws.length + k → (expand k ws).reverse.getD i 0
        = rotl ((expand k ws).reverse.getD (i - 3) 0 ^^^ (expand k ws).reverse.getD (i - 8) 0
            ^^^ (expand k ws).reverse.getD (i - 14) 0 ^^^ (expand k ws).reverse.getD (i - 16) 0) 1 := by
  induction k with
  | zero => intro ws _; exact ⟨rfl, fun _ _ => rfl, fun i h1 h2 => by omega⟩
  | succ k ih =>
    intro ws hw
    rw [expand]
    generalize hx : rotl (ws.getD 2 0 ^^^ ws.getD 7 0 ^^^ ws.getD 13 0 ^^^ ws.getD 15 0) 1 = x
    obtain ⟨hl, hlo, hhi⟩ := ih (x :: ws) (by rw [List.length_cons]; omega)
    rw [List.length_cons] at hl hlo hhi
    have hold : ∀ i < ws.length, (expand k (x :: ws)).reverse.getD i 0 = ws.reverse.getD i 0 := by
      intro i hi
      rw [hlo i (by omega), List.reverse_cons, List.getD_append _ _ _ _ (by simpa using hi)]
    refine ⟨by omega, hold, ?_⟩
    intro i h1 h2
    by_cases hi : i = ws.length
    · subst hi
      rw [hlo _ (by omega), hold _ (by omega), hold _ (by omega), hold _ (by omega),
        hold _ (by omega), getD_reverse (ws := x :: ws) (by simp), getD_reverse (by omega),
        getD_reverse (by omega), getD_reverse (by omega), getD_reverse (by omega),
        show ws.length - 1 - (ws.length - 3) = 2 by omega,
        show ws.length - 1 - (ws.length - 8) = 7 by omega,
        show ws.length - 1 - (ws.length - 14) = 13 by omega,
        show ws.length - 1 - (ws.length - 16) = 15 by omega, hx]
      simp
    · exact hhi i (by omega) (by omega)

theorem schedule_length (block : List Byte) : (schedule block).length = 80 := by
  rw [schedule, List.length_reverse, (expand_spec 64 _ (by simp [blockWords])).1]
  simp [blockWords]

/-- The first 16 schedule words are the words of the block. -/
theorem schedule_block (block : List Byte) {i : Nat} (h : i < 16) :
    (schedule block).getD i 0 = BitVec.ofNat 32 (be (slice block (4 * i) 4)) := by
  rw [schedule, (expand_spec 64 _ (by simp [blockWords])).2.1 i (by simpa [blockWords] using h),
    List.reverse_reverse, List.getD_eq_getElem _ _ (by simpa [blockWords] using h)]
  simp [blockWords]

/-- The recurrence of the other schedule words. -/
theorem schedule_rec (block : List Byte) {i : Nat} (h1 : 16 ≤ i) (h2 : i < 80) :
    (schedule block).getD i 0
      = rotl ((schedule block).getD (i - 3) 0 ^^^ (schedule block).getD (i - 8) 0
          ^^^ (schedule block).getD (i - 14) 0 ^^^ (schedule block).getD (i - 16) 0) 1 :=
  (expand_spec 64 _ (by simp [blockWords])).2.2 i (by simpa [blockWords] using h1)
    (by simpa [blockWords] using h2)

theorem compress_eq (h : Accum) (block : List Byte) :
    compress h block = h.add (working (schedule block) h 80) := by
  rw [compress, rounds_eq, schedule_length]

/-! ## The blocks of a message (R146, R150) -/

/-- The accumulators after the first `k` blocks. -/
def absorbed (bytes : List Byte) (h : Accum) : Nat → Accum
  | 0 => h
  | k + 1 => compress (absorbed bytes h k) ((bytes.drop (64 * k)).take 64)

theorem blocks_absorbed (bytes : List Byte) (h : Accum) (k : Nat) : ∀ j,
    (blocks k (bytes.drop (64 * j))).foldl compress (absorbed bytes h j) = absorbed bytes h (j + k) := by
  induction k with
  | zero => intro j; rfl
  | succ k ih =>
    intro j
    rw [blocks, List.foldl_cons, List.drop_drop, ← absorbed, show 64 * j + 64 = 64 * (j + 1) by ring, ih]
    congr 1
    omega

theorem compressAll_eq (bytes : List Byte) (h : Accum) :
    compressAll bytes h = absorbed bytes h (bytes.length / 64) := by
  have := blocks_absorbed bytes h (bytes.length / 64) 0
  rwa [Nat.mul_zero, List.drop_zero, Nat.zero_add] at this

theorem absorbed_congr {xs ys : List Byte} (h : Accum) {k : Nat}
    (hk : ∀ j < k, (xs.drop (64 * j)).take 64 = (ys.drop (64 * j)).take 64) :
    absorbed xs h k = absorbed ys h k := by
  induction k with
  | zero => rfl
  | succ k ih => rw [absorbed, absorbed, ih fun j hj => hk j (by omega), hk k (by omega)]

/-- Absorbing whole blocks and then a rest is absorbing all of it. -/
theorem compressAll_append {xs ys : List Byte} (h : Accum) (hx : xs.length % 64 = 0) :
    compressAll (xs ++ ys) h = compressAll ys (compressAll xs h) := by
  obtain ⟨k, hk⟩ : ∃ k, xs.length = 64 * k := ⟨xs.length / 64, by omega⟩
  have hxs : compressAll xs h = absorbed (xs ++ ys) h k := by
    rw [compressAll_eq, hk, Nat.mul_div_cancel_left _ (by norm_num)]
    refine absorbed_congr h fun j hj => ?_
    rw [List.drop_append_of_le_length (by omega), List.take_append_of_le_length]
    simp; omega
  have hys : ys = (xs ++ ys).drop (64 * k) := by rw [← hk, List.drop_left]
  rw [hxs, compressAll_eq, compressAll]
  have hb := blocks_absorbed (xs ++ ys) h (ys.length / 64) k
  rw [← hys] at hb
  rw [hb, List.length_append, hk]
  congr 1
  omega

/-! ## Padding (R142) -/

/-- `zeroCount` is the least number of zero bytes that completes a block up to its last 8 bytes. -/
theorem zeroCount_spec (t : Nat) : (t + 1 + zeroCount t) % 64 = 56
    ∧ ∀ y, (t + 1 + y) % 64 = 56 → zeroCount t ≤ y := by
  unfold zeroCount
  exact ⟨by omega, fun y hy => by omega⟩

theorem padding_length (t total : Nat) : (padding t total).length = 9 + zeroCount t := by
  simp [padding]; omega

/-- A message with its padding is a whole number of blocks. -/
theorem padded_length (t total : Nat) : (t + (padding t total).length) % 64 = 0 := by
  have := (zeroCount_spec t).1
  rw [padding_length]
  omega

theorem digest_length (h : Accum) : (digest h).length = 20 := by simp [digest]

end Sys2Proof.Machine
end

