-- ==== Sys2Proof/Tests/Slice0.lean ====
section
/-! SUPPORT. Tests. Expected values come from spec/95_test_vectors.md (V1 to V74) and from the tables of
30_encoding.md R76; none is the model's own answer. After them, for every statement with hypotheses, a
concrete state and operands that meet them (`witness_<statement>`). -/

set_option Elab.async false

namespace Sys2Proof.Tests

open Sys2Proof.Machine

/-! ## Helpers -/

/-- The answer is a next state of which the check holds. -/
def yields (a : Answer) (check : State → Bool) : Bool :=
  match a with
  | .next t => check t
  | .fault _ => false
  | .refused _ => false

/-- The state's last answer is this status word with this response. -/
def replied (status : Word32) (response : List Nat) (t : State) : Bool :=
  decide (t.reply = some { status := status, response := response.map (BitVec.ofNat 8) })

/-- The reset state with a payload. -/
def paying (bytes : List Nat) : State := { State.reset with pay := bytes.map (BitVec.ofNat 8) }

/-- The reset state with integer registers 0, 1, 2, 3 set. -/
def holding (a b c d : Int) : State := ((((State.reset.setN 0 a).setN 1 b).setN 2 c).setN 3 d)

/-- The state with answers of the random source supplied. -/
def scripted (draws : List Nat) (s : State) : State := { s with src := { script := draws, count := 0 } }

/-- The contents of the three shift registers at the reset configuration. -/
def shifted3 (a b c : Word64) : Lfsrs :=
  { l0 := { Lfsrs.reset.l0 with s := a }
    l1 := { Lfsrs.reset.l1 with s := b }
    l2 := { Lfsrs.reset.l2 with s := c } }

/-- The key of V10 loaded, key-loading done: the state of V12. -/
def v12 : State :=
  { State.reset with
    key := 0x0123456789ABCDEF#64
    keyValid := true
    scReady := true
    lfsr := shifted3 0x144E3#64 0x153561#64 0x190DF5#64 }

/-- The tweaks of V40. -/
def v40 (bytes : List Nat) : State :=
  { paying bytes with tweak0 := 0x0706050403020100#64, tweak1 := 0x0F0E0D0C0B0A0908#64 }

theorem next_of_yields {a : Answer} {check : State → Bool} (h : yields a check = true) :
    ∃ t, a = .next t ∧ check t = true := by
  cases a with
  | next t => exact ⟨t, rfl, h⟩
  | fault f => cases h
  | refused r => cases h

/-! ## WellFormed refuses ill-formed terms (30_encoding.md R88 (g), (h), (i)) -/

theorem test_wf_wrreg_read_only : (Instr.sysWrreg .status).wf = false := by decide
theorem test_wf_wrreg_tweak2 : (Instr.sysWrreg .tweak2).wf = false := by decide
theorem test_wf_xgcd_rg_rx : (Instr.ntXgcd 1 1 3 4 5).wf = false := by decide
theorem test_wf_xgcd_rg_ry : (Instr.ntXgcd 1 2 1 4 5).wf = false := by decide
theorem test_wf_xgcd_rx_ry : (Instr.ntXgcd 1 2 2 4 5).wf = false := by decide
theorem test_wf_crt_zero : (Instr.ntCrt 4 0#16).wf = false := by decide
theorem test_wf_crt_nine : (Instr.ntCrt 4 9#16).wf = false := by decide
theorem test_wf_gensafe_equal : (Instr.ntGensafe 1 1 6#16).wf = false := by decide
theorem test_wf_good :
    (Instr.sysWrreg .hlen).wf ∧ (Instr.ntXgcd 1 2 3 1 2).wf ∧ (Instr.ntCrt 4 8#16).wf
      ∧ (Instr.ntGensafe 0 1 6#16).wf := by decide

/-! ## Words written out from 30_encoding.md R76 and 95_test_vectors.md V70, one per constructor -/

theorem test_decode_sysNop : decode 0x00000000#32 = .ok .sysNop := by decide
theorem test_decode_sysReset : decode 0x01000000#32 = .ok .sysReset := by decide
theorem test_decode_sysRdreg : decode 0x02000052#32 = .ok (.sysRdreg .tweak2) := by decide
theorem test_decode_sysWrreg : decode 0x03000050#32 = .ok (.sysWrreg .tweak0) := by decide
theorem test_decode_lfsrConf : decode 0x10200000#32 = .ok (.lfsrConf .l2) := by decide
theorem test_decode_lfsrLoad : decode 0x11100000#32 = .ok (.lfsrLoad .l1) := by decide
theorem test_decode_lfsrRead : decode 0x12100000#32 = .ok (.lfsrRead .l1) := by decide
theorem test_decode_lfsrShift : decode 0x13000000#32 = .ok (.lfsrShift .l0) := by decide
theorem test_decode_lfsrShifto : decode 0x14200001#32 = .ok (.lfsrShifto .l2 true) := by decide
theorem test_decode_lfsrFb : decode 0x15100000#32 = .ok (.lfsrFb .l1) := by decide
theorem test_decode_lfsrOut : decode 0x16200000#32 = .ok (.lfsrOut .l2) := by decide
theorem test_decode_lfsrClk : decode 0x17200000#32 = .ok (.lfsrClk .l2) := by decide
theorem test_decode_scSetkey : decode 0x20000000#32 = .ok .scSetkey := by decide
theorem test_decode_scInit : decode 0x21000000#32 = .ok .scInit := by decide
theorem test_decode_scStep : decode 0x22000000#32 = .ok .scStep := by decide
theorem test_decode_scGen : decode 0x23000010#32 = .ok (.scGen 16#16) := by decide
theorem test_decode_scRun : decode 0x24000005#32 = .ok (.scRun 5#16) := by decide
theorem test_decode_shaInit : decode 0x30000000#32 = .ok .shaInit := by decide
theorem test_decode_shaBlock : decode 0x31000000#32 = .ok .shaBlock := by decide
theorem test_decode_shaFinal : decode 0x3200003F#32 = .ok (.shaFinal 63) := by decide
theorem test_decode_shaDigest : decode 0x33000000#32 = .ok .shaDigest := by decide
theorem test_decode_shaHash : decode 0x3400FFFF#32 = .ok (.shaHash 65535#16) := by decide
theorem test_decode_ksSettweak : decode 0x40000000#32 = .ok .ksSettweak := by decide
theorem test_decode_ksSched : decode 0x41000010#32 = .ok (.ksSched 16#16) := by decide
theorem test_decode_ksRdrk : decode 0x42000013#32 = .ok (.ksRdrk 19) := by decide
theorem test_decode_ntLd : decode 0x50300002#32 = .ok (.ntLd 3 2#16) := by decide
theorem test_decode_ntSt : decode 0x51700000#32 = .ok (.ntSt 7) := by decide
theorem test_decode_ntXgcd : decode 0x52123450#32 = .ok (.ntXgcd 1 2 3 4 5) := by decide
theorem test_decode_ntModinv : decode 0x53201000#32 = .ok (.ntModinv 2 0 1) := by decide
theorem test_decode_ntCrt : decode 0x54F00008#32 = .ok (.ntCrt 15 8#16) := by decide
theorem test_decode_ntModpow : decode 0x55FEDC00#32 = .ok (.ntModpow 15 14 13 12) := by decide
theorem test_decode_ntFermat : decode 0x56200001#32 = .ok (.ntFermat 2 1#16) := by decide
theorem test_decode_ntMr : decode 0x57000001#32 = .ok (.ntMr 0 1#16) := by decide
theorem test_decode_ntGenprime : decode 0x58100008#32 = .ok (.ntGenprime 1 8#16) := by decide
theorem test_decode_ntGensafe : decode 0x59010006#32 = .ok (.ntGensafe 0 1 6#16) := by decide
theorem test_decode_ntFindgen : decode 0x5A201000#32 = .ok (.ntFindgen 2 0 1) := by decide

/-- V8, V39 (d), V47, V53, V64, V70: words with no meaning. -/
theorem test_illegal_words :
    [0x00000001#32, 0x04000000#32, 0x60000000#32, 0xFFFFFFFF#32, 0x03000052#32, 0x02010002#32,
     0x02000003#32, 0x13300000#32, 0x13400000#32, 0x13000001#32, 0x14000002#32, 0x18000000#32,
     0x32000040#32, 0x42000014#32, 0x50310002#32, 0x52123451#32, 0x52113450#32, 0x53201001#32,
     0x54400000#32, 0x54400009#32, 0x59110006#32, 0x59220006#32, 0x5B000000#32].all
      fun w => !(decode w).isOk := by decide

/-- V70: an illegal word answers 0x81000000 and changes only LASTERR. -/
theorem test_illegal_step :
    yields (step { v12 with port := [.command 0x52113450#32 []] })
      (fun t => replied 0x81000000#32 [] t && decide (t.lastErr = 1#7) && decide (t.lfsr = v12.lfsr))
      = true := by decide +kernel

/-- V70: PLEN told from the word alone. -/
theorem test_plen :
    plenOfWord 0x03000050#32 = 8 ∧ plenOfWord 0x10200000#32 = 12 ∧ plenOfWord 0x3400FFFF#32 = 65535
      ∧ plenOfWord 0x50300002#32 = 3 ∧ plenOfWord 0x59110006#32 = 0 := by decide

/-! ## SYS -/

/-- V71: SYS.NOP succeeds and overwrites the code of the illegal word before it. -/
theorem test_sysNop :
    yields (exec .sysNop { State.reset with lastErr := 1#7 })
      (fun t => replied 0x00000000#32 [] t && decide (t.lastErr = 0#7)) = true := by decide +kernel

/-- V73: SYS.RESET. -/
theorem test_sysReset :
    yields (exec .sysReset { v12 with h := { Accum.reset with h0 := 5#32 }, retryLimit := 2#32 })
      (fun t => replied 0x00000000#32 [] t && decide (t.retryLimit = 0x1000#32)
        && decide (t.lfsr.l0.s = 0#64) && decide (t.key = 0#64) && decide (t.h.h0 = 0x67452301#32)
        && !t.keyValid && !t.scReady) = true := by decide +kernel

/-- V1: the reset taps of instance 2. -/
theorem test_sysRdreg_taps :
    yields (exec (.sysRdreg (.lfsrTaps .l2)) State.reset)
      (replied 0x00000008#32 [0, 0, 0, 0, 0, 0x70, 0, 0x80]) = true := by decide +kernel

/-- V40: TWEAK2 wraps. -/
theorem test_sysRdreg_tweak2 :
    yields (exec (.sysRdreg .tweak2)
        { State.reset with tweak0 := 0xFFFFFFFFFFFFFFFF#64, tweak1 := 1#64 })
      (replied 0x00000008#32 [0, 0, 0, 0, 0, 0, 0, 0]) = true := by decide +kernel

/-- V72: a 32-bit register takes its value. -/
theorem test_sysWrreg_h0 :
    yields (exec (.sysWrreg (.h 0)) (paying [0, 0, 0, 0, 0xDE, 0xAD, 0xBE, 0xEF]))
      (fun t => replied 0x00000000#32 [] t && decide (t.h.h0 = 0xDEADBEEF#32)
        && decide (t.h.h1 = 0xEFCDAB89#32)) = true := by decide +kernel

/-- V72: 2^32 does not fit RETRY_LIMIT. -/
theorem test_sysWrreg_wide :
    yields (exec (.sysWrreg .retryLimit) (paying [0, 0, 0, 1, 0, 0, 0, 0]))
      (fun t => replied 0x83000000#32 [] t && decide (t.retryLimit = 4096#32)) = true := by
  decide +kernel

/-! ## LFSR -/

/-- V2: the 4-bit register of the example. -/
theorem test_lfsrConf :
    yields (exec (.lfsrConf .l0) (paying [4, 1, 3, 0, 0, 0, 0, 0, 0, 0, 0, 0x0C]))
      (fun t => replied 0x00000000#32 [] t && decide (t.lfsr.l0 =
        { len := 4#7, taps := 0xC#64, clkidx := 1#6, outidx := 3#6, s := 0#64 })) = true := by
  decide +kernel

/-- V6: a tap beyond the register. -/
theorem test_lfsrConf_tap :
    yields (exec (.lfsrConf .l0) (paying [4, 1, 3, 0, 0, 0, 0, 0, 0, 0, 0, 0x10]))
      (fun t => replied 0x83000000#32 [] t && decide (t.lfsr = Lfsrs.reset)) = true := by
  decide +kernel

/-- V3: the contents before the walk. -/
theorem test_lfsrLoad :
    yields (exec (.lfsrLoad .l0) (paying [0, 0, 0, 0, 0, 4, 0, 0]))
      (fun t => replied 0x00000000#32 [] t && decide (t.lfsr.l0.s = 0x40000#64)) = true := by
  decide +kernel

/-- V6: 2^19 does not fit 19 bits. -/
theorem test_lfsrLoad_wide :
    yields (exec (.lfsrLoad .l0) (paying [0, 0, 0, 0, 0, 8, 0, 0])) (replied 0x83000000#32 []) = true := by
  decide +kernel

/-- V5. -/
theorem test_lfsrRead :
    yields (exec (.lfsrRead .l1) v12) (replied 0x00000008#32 [0, 0, 0, 0, 0, 0x15, 0x35, 0x61]) = true := by
  decide +kernel

/-- V17: the shift of instance 0 clears SC_READY. -/
theorem test_lfsrShift :
    yields (exec (.lfsrShift .l0) v12)
      (fun t => replied 0x00000000#32 [] t && decide (t.lfsr.l0.s = 0x289C7#64) && !t.scReady) = true := by
  decide +kernel

/-- V7 (b): at 64 bits index 63 is dropped. -/
theorem test_lfsrShift_64 :
    yields (exec (.lfsrShift .l2) { State.reset with
        lfsr := Lfsrs.reset.set .l2 { len := 64#7, taps := 0x8000000000000001#64, clkidx := 0#6,
                                      outidx := 0#6, s := 0x8000000000000001#64 } })
      (fun t => decide (t.lfsr.l2.s = 2#64)) = true := by decide +kernel

/-- V4: the override replaces a feedback of 1. -/
theorem test_lfsrShifto :
    yields (exec (.lfsrShifto .l0 false) { State.reset with lfsr := shifted3 0x40000#64 0#64 0#64 })
      (fun t => decide (t.lfsr.l0.s = 0#64)) = true := by decide +kernel

/-- V4. -/
theorem test_lfsrShifto_one :
    yields (exec (.lfsrShifto .l0 true) { State.reset with lfsr := shifted3 0x40000#64 0#64 0#64 })
      (fun t => decide (t.lfsr.l0.s = 1#64)) = true := by decide +kernel

/-- V5. -/
theorem test_lfsrFb : yields (exec (.lfsrFb .l0) v12) (replied 0x00010000#32 []) = true := by
  decide +kernel

/-- V2, shift 12: the taps cancel. -/
theorem test_lfsrFb_cancel :
    yields (exec (.lfsrFb .l0) { State.reset with
        lfsr := Lfsrs.reset.set .l0 { len := 4#7, taps := 0xC#64, clkidx := 1#6, outidx := 3#6,
                                      s := 0xF#64 } })
      (replied 0x00000000#32 []) = true := by decide +kernel

/-- V5. -/
theorem test_lfsrOut : yields (exec (.lfsrOut .l2) v12) (replied 0x00000000#32 []) = true := by
  decide +kernel

/-- V2, shift 8. -/
theorem test_lfsrOut_one :
    yields (exec (.lfsrOut .l0) { State.reset with
        lfsr := Lfsrs.reset.set .l0 { len := 4#7, taps := 0xC#64, clkidx := 1#6, outidx := 3#6,
                                      s := 0xA#64 } })
      (replied 0x00010000#32 []) = true := by decide +kernel

/-- V5. -/
theorem test_lfsrClk : yields (exec (.lfsrClk .l1) v12) (replied 0x00010000#32 []) = true := by
  decide +kernel

/-- V5. -/
theorem test_lfsrClk_zero : yields (exec (.lfsrClk .l0) v12) (replied 0x00000000#32 []) = true := by
  decide +kernel

/-! ## SC -/

/-- V10. -/
theorem test_scSetkey :
    yields (exec .scSetkey (paying [0x01, 0x23, 0x45, 0x67, 0x89, 0xAB, 0xCD, 0xEF]))
      (fun t => decide (t.key = 0x0123456789ABCDEF#64) && t.keyValid && !t.scReady) = true := by
  decide +kernel

/-- V12. -/
theorem test_scInit :
    yields (exec .scInit
        { State.reset with key := 0x0123456789ABCDEF#64, keyValid := true, lfsr := shifted3 1#64 2#64 3#64 })
      (fun t => decide (t.lfsr = shifted3 0x144E3#64 0x153561#64 0x190DF5#64) && t.scReady) = true := by
  decide +kernel

/-- V16: the key with only its first bit set. -/
theorem test_scInit_first_bit :
    yields (exec .scInit { State.reset with key := 0x8000000000000000#64, keyValid := true })
      (fun t => decide (t.lfsr = shifted3 0x7B240#64 0x280001#64 0x2AAD81#64)) = true := by
  decide +kernel

/-- V13, step 0. -/
theorem test_scStep :
    yields (exec .scStep v12)
      (fun t => replied 0x00010000#32 [] t
        && decide (t.lfsr = shifted3 0x144E3#64 0x2A6AC3#64 0x321BEA#64)) = true := by decide +kernel

/-- V13, step 5: the majority is 0. -/
theorem test_scStep_zeros :
    yields (exec .scStep { v12 with lfsr := shifted3 0x44E3C#64 0x29AB0F#64 0x21BEAD#64 })
      (fun t => replied 0x00000000#32 [] t
        && decide (t.lfsr = shifted3 0x09C79#64 0x13561F#64 0x21BEAD#64)) = true := by decide +kernel

/-- V14. -/
theorem test_scGen :
    yields (exec (.scGen 16#16) v12)
      (fun t => replied 0x00000010#32 [0xF0, 0x46, 0x7A, 0x0F, 0x9E, 0xC2, 0x85, 0x95, 0x01, 0xB1, 0x95,
          0x50, 0x42, 0x3C, 0x5C, 0x3C] t
        && decide (t.lfsr = shifted3 0x67E45#64 0x31BF15#64 0x1039FE#64)) = true := by decide +kernel

/-- V11. -/
theorem test_scGen_not_ready :
    yields (exec (.scGen 1#16) State.reset) (replied 0x82000000#32 []) = true := by decide +kernel

/-- V15. -/
theorem test_scRun :
    yields (exec (.scRun 5#16) { v12 with scReady := false, pay := [0x48#8, 0x45#8, 0x4C#8, 0x4C#8, 0x4F#8] })
      (fun t => replied 0x00000005#32 [0xB8, 0x03, 0x36, 0x43, 0xD1] t && t.scReady
        && decide (t.lfsr = shifted3 0x5A4E5#64 0x2FD103#64 0x22F27C#64)) = true := by decide +kernel

/-- V15: no bytes. -/
theorem test_scRun_empty :
    yields (exec (.scRun 0#16) { v12 with lfsr := shifted3 1#64 2#64 3#64 })
      (fun t => replied 0x00000000#32 [] t && decide (t.lfsr = v12.lfsr)) = true := by decide +kernel

/-! ## SHA -/

/-- R141. -/
theorem test_shaInit :
    yields (exec .shaInit { State.reset with h := { Accum.reset with h4 := 1#32 }, hlen := 65#64 })
      (fun t => decide (t.h.h4 = 0xC3D2E1F0#32) && decide (t.hlen = 0#64)) = true := by decide +kernel

/-- V39 (c): 64 bytes "a". -/
theorem test_shaBlock :
    yields (exec .shaBlock (paying (List.replicate 64 0x61)))
      (fun t => decide (t.h = { h0 := 0xDA4968EB#32, h1 := 0x2E377C1F#32, h2 := 0x884E8F52#32,
                                h3 := 0x83524BEB#32, h4 := 0xE74EBDBD#32 })
        && decide (t.hlen = 64#64)) = true := by decide +kernel

/-- V72: the count of the tail comes from HLEN. -/
theorem test_shaFinal :
    yields (exec (.shaFinal 1) { paying [0x61] with hlen := 0x40#64 })
      (fun t => decide (t.h = { h0 := 0xD4C464F4#32, h1 := 0xE2607B5D#32, h2 := 0xC31E11CA#32,
                                h3 := 0x4166E871#32, h4 := 0xE603559D#32 })
        && decide (t.hlen = 65#64)) = true := by decide +kernel

/-- V30: an aligned message gets no padding. -/
theorem test_shaFinal_aligned :
    yields (exec (.shaFinal 0) State.reset) (fun t => decide (t.h = Accum.reset)) = true := by
  decide +kernel

/-- V30. -/
theorem test_shaDigest :
    yields (exec .shaDigest State.reset)
      (replied 0x00000014#32 [0x67, 0x45, 0x23, 0x01, 0xEF, 0xCD, 0xAB, 0x89, 0x98, 0xBA, 0xDC, 0xFE,
        0x10, 0x32, 0x54, 0x76, 0xC3, 0xD2, 0xE1, 0xF0]) = true := by decide +kernel

/-- V31: "abc". -/
theorem test_shaHash :
    yields (exec (.shaHash 3#16) (paying [0x61, 0x62, 0x63]))
      (fun t => replied 0x00000014#32 [0xA9, 0x99, 0x3E, 0x36, 0x47, 0x06, 0x81, 0x6A, 0xBA, 0x3E, 0x25,
          0x71, 0x78, 0x50, 0xC2, 0x6C, 0x9C, 0xD0, 0xD8, 0x9D] t
        && decide (t.hlen = 3#64)) = true := by decide +kernel

/-- V33: 56 bytes "a", the padding spills into a second block. -/
theorem test_shaHash_spill :
    yields (exec (.shaHash 56#16) (paying (List.replicate 56 0x61)))
      (replied 0x00000014#32 [0xC2, 0xDB, 0x33, 0x0F, 0x60, 0x83, 0x85, 0x4C, 0x99, 0xD4, 0xB5, 0xBF,
        0xB6, 0xE8, 0xF2, 0x9F, 0x20, 0x1B, 0xE6, 0x99]) = true := by decide +kernel

/-! ## KS -/

/-- V40. -/
theorem test_ksSettweak :
    yields (exec .ksSettweak { paying [7, 6, 5, 4, 3, 2, 1, 0, 15, 14, 13, 12, 11, 10, 9, 8] with
        rkValid := true })
      (fun t => decide (t.tweak0 = 0x0706050403020100#64) && decide (t.tweak1 = 0x0F0E0D0C0B0A0908#64)
        && !t.rkValid) = true := by decide +kernel

/-- V41, row 7 and the parity word. -/
theorem test_ksSched :
    yields (exec (.ksSched 32#16) (v40 (List.range 32)))
      (fun t => decide (t.wpb = .w4) && t.rkValid && decide (t.kw[4] = 0x1BD11BDAA9FC1A22#64)
        && decide (rkLoad t.rk (128 * 7) 32 = .ok ([0x10, 0x11, 0x12, 0x13, 0x14, 0x15, 0x16, 0x17,
          0, 0, 0, 0, 0, 0, 0, 0x27, 0, 0, 0, 0, 0, 0, 0, 0x2A, 0, 0, 0, 0, 0, 0, 0, 0x0E].map
            (BitVec.ofNat 8)))) = true := by decide +kernel

/-- V47. -/
theorem test_ksSched_16 :
    yields (exec (.ksSched 16#16) (v40 (List.range 16))) (replied 0x83000000#32 []) = true := by
  decide +kernel

/-- V47. -/
theorem test_ksRdrk_not_valid :
    yields (exec (.ksRdrk 0) State.reset) (replied 0x82000000#32 []) = true := by decide +kernel

/-- V41: KS.RDRK 19 after the schedule. -/
theorem test_ksRdrk :
    yields (runCommands [(.ksSched 32#16, (List.range 32).map (BitVec.ofNat 8)), (.ksRdrk 19, [])] (v40 []))
      (replied 0x00000020#32 [0x1B, 0xD1, 0x1B, 0xDA, 0xA9, 0xFC, 0x1A, 0x22, 0, 0, 0, 0, 0, 0, 0, 0x0F,
        0, 0, 0, 0, 0, 0, 0, 0x17, 0, 0, 0, 0, 0, 0, 0, 0x2A]) = true := by decide +kernel

/-! ## NT -/

/-- V50. -/
theorem test_ntLd :
    yields (exec (.ntLd 3 2#16) (paying [0, 1, 0xF1])) (fun t => decide (t.n[3] = 497)) = true := by
  decide +kernel

/-- V50: a negative value. -/
theorem test_ntLd_negative :
    yields (exec (.ntLd 0 1#16) (paying [1, 3])) (fun t => decide (t.n[0] = -3)) = true := by
  decide +kernel

/-- V50. -/
theorem test_ntSt :
    yields (exec (.ntSt 0) (holding (-367) 0 0 0)) (replied 0x00000003#32 [1, 1, 0x6F]) = true := by
  decide +kernel

/-- V50: a magnitude of two bytes. -/
theorem test_ntSt_256 :
    yields (exec (.ntSt 1) (holding 0 256 0 0)) (replied 0x00000003#32 [0, 1, 0]) = true := by
  decide +kernel

/-- V51. -/
theorem test_ntXgcd :
    yields (exec (.ntXgcd 2 3 4 0 1) (holding 240 46 0 0))
      (fun t => decide (t.n[2] = 2) && decide (t.n[3] = -9) && decide (t.n[4] = 47)) = true := by
  decide +kernel

/-- V51: equal operands, sources also destinations. -/
theorem test_ntXgcd_same :
    yields (exec (.ntXgcd 0 1 2 0 1) (holding 17 17 9 0))
      (fun t => decide (t.n[0] = 17) && decide (t.n[1] = 0) && decide (t.n[2] = 1)) = true := by
  decide +kernel

/-- V52. -/
theorem test_ntModinv :
    yields (exec (.ntModinv 2 0 1) (holding 17 3120 0 0)) (fun t => decide (t.n[2] = -367)) = true := by
  decide +kernel

/-- V52: no inverse. -/
theorem test_ntModinv_none :
    yields (exec (.ntModinv 2 0 1) (holding 12 18 0 0)) (replied 0x85000000#32 []) = true := by
  decide +kernel

/-- V53. -/
theorem test_ntCrt :
    yields (exec (.ntCrt 4 3#16) ((((holding 2 3 2 0).setN 8 3).setN 9 5).setN 10 7))
      (fun t => decide (t.n[4] = 23)) = true := by decide +kernel

/-- V53: not coprime. -/
theorem test_ntCrt_shared :
    yields (exec (.ntCrt 4 2#16) (((holding 3 3 0 0).setN 8 4).setN 9 6)) (replied 0x83000000#32 [])
      = true := by decide +kernel

/-- V54. -/
theorem test_ntModpow :
    yields (exec (.ntModpow 0 1 2 3) (holding 0 4 13 497)) (fun t => decide (t.n[0] = 445)) = true := by
  decide +kernel

/-- V54: a negative base. -/
theorem test_ntModpow_negative :
    yields (exec (.ntModpow 0 1 2 3) (holding 0 (-3) 3 10)) (fun t => decide (t.n[0] = 3)) = true := by
  decide +kernel

/-- V62: a Fermat liar of 561. -/
theorem test_ntFermat :
    yields (exec (.ntFermat 2 1#16) (scripted [2] (holding 0 0 561 0))) (replied 0x00010000#32 [])
      = true := by decide +kernel

/-- V62. -/
theorem test_ntFermat_fails :
    yields (exec (.ntFermat 2 1#16) (scripted [3] (holding 0 0 561 0))) (replied 0x00000000#32 [])
      = true := by decide +kernel

/-- V61: a strong liar, then a witness; two draws. -/
theorem test_ntMr :
    yields (exec (.ntMr 0 2#16) (scripted [174, 137, 5] (holding 221 0 0 0)))
      (fun t => replied 0x00000000#32 [] t && decide (t.src = { script := [5], count := 2 })) = true := by
  decide +kernel

/-- V61: a strong liar passes by the squared sequence. -/
theorem test_ntMr_liar :
    yields (exec (.ntMr 0 1#16) (scripted [174] (holding 221 0 0 0))) (replied 0x00010000#32 [])
      = true := by decide +kernel

/-- V63: 145 rejected, 149 accepted, 131 draws. -/
theorem test_ntGenprime :
    yields (exec (.ntGenprime 1 8#16) (scripted ([0x10, 2, 0x15] ++ List.replicate 128 147) State.reset))
      (fun t => replied 0x00000000#32 [] t && decide (t.n[1] = 149) && decide (t.src.count = 131)
        && decide (t.src.script = [])) = true := by decide +kernel

/-- V66: the budget is spent. -/
theorem test_ntGenprime_budget :
    yields (exec (.ntGenprime 1 8#16)
        { scripted [0x10, 2, 0x00, 2, 9] State.reset with retryLimit := 2#32 })
      (fun t => replied 0x86000000#32 [] t && decide (t.n[1] = 0)
        && decide (t.src = { script := [9], count := 4 })) = true := by decide +kernel

/-- V64: 47 and 23, 257 draws. -/
theorem test_ntGensafe :
    yields (exec (.ntGensafe 2 3 6#16)
        (scripted ([6] ++ List.replicate 128 2 ++ List.replicate 128 45) State.reset))
      (fun t => decide (t.n[2] = 47) && decide (t.n[3] = 23)
        && decide (t.src = { script := [], count := 257 })) = true := by decide +kernel

/-- V64: three bits give 7 and 3. -/
theorem test_ntGensafe_3 :
    yields (exec (.ntGensafe 2 3 3#16) (scripted ([0] ++ List.replicate 128 5) State.reset))
      (fun t => decide (t.n[2] = 7) && decide (t.n[3] = 3) && decide (t.src.count = 129)) = true := by
  decide +kernel

/-- V65. -/
theorem test_ntFindgen :
    yields (exec (.ntFindgen 2 0 1) (scripted [2, 22, 5] (holding 23 11 0 0)))
      (fun t => decide (t.n[2] = 5) && decide (t.src.count = 3)) = true := by decide +kernel

/-- V65: the value 0 is accepted (93_implementation_defined.md U9). -/
theorem test_ntFindgen_zero :
    yields (exec (.ntFindgen 2 0 1) (scripted [0] (holding 23 11 7 0)))
      (fun t => replied 0x00000000#32 [] t && decide (t.n[2] = 0)) = true := by decide +kernel

/-! ## Witnesses: states and operands that meet the hypotheses of the statements, clause by clause -/

/-- A command that ends with the code named. -/
def endsWith (a : Answer) (code : BitVec 7) : Bool := yields a fun t => decide (t.lastErr = code)

theorem next_of_endsWith {a : Answer} {code : BitVec 7} (h : endsWith a code = true) :
    ∃ t, a = .next t ∧ t.lastErr = code := by
  obtain ⟨t, ht, hc⟩ := next_of_yields h
  exact ⟨t, ht, of_decide_eq_true hc⟩

theorem replied_of_endsWith {a : Answer} {code : BitVec 7} {p : State → Bool}
    (h : yields a (fun t => decide (t.lastErr = code) && p t) = true) :
    ∃ t, a = .next t ∧ t.lastErr = code ∧ p t = true := by
  obtain ⟨t, ht, hc⟩ := next_of_yields h
  rw [Bool.and_eq_true] at hc
  exact ⟨t, ht, of_decide_eq_true hc.1, hc.2⟩

/-- The reset state with a finite NT_BITS. -/
def bounded (b : Nat) (s : State) : State := { s with cfg := { Config.default with ntBits := some b } }

theorem within_unbounded (v : Int) : Claims.Within Config.default v := by intro b hb; cases hb

theorem below_power {k e : Nat} (hk : k < 65536) (he : 2 ≤ e) : k < 256 ^ e :=
  Nat.lt_of_lt_of_le hk (Nat.pow_le_pow_right (n := 256) (i := 2) (Nat.succ_pos _) he)

theorem witness_DecodeOfEncode :
    (Instr.sysWrreg .hlen).wf = true ∧ (Instr.ntXgcd 13 14 15 0 15).wf = true
      ∧ (Instr.ntCrt 15 1#16).wf = true ∧ (Instr.ntCrt 0 8#16).wf = true
      ∧ (Instr.ntGensafe 15 0 65535#16).wf = true := by decide

theorem witness_EncodeOfDecode : decode 0x59F0FFFF#32 = .ok (.ntGensafe 15 0 65535#16) := by decide

/-- One word for each of the conditions (a), (b), (c) of R88, at the edge of the range. -/
theorem witness_IllegalWords :
    Claims.Illegal 0x60000000#32 ∧ Claims.Illegal 0x00800000#32 ∧ Claims.Illegal 0x17300000#32 := by
  refine ⟨Or.inl ?_, Or.inr (Or.inl ⟨.N, ?_, ?_⟩), Or.inr (Or.inr (Or.inl ?_))⟩
  · intro f; cases f <;> decide
  · decide
  · unfold Claims.Format.unusedZero; decide
  · decide

/-- One word for each of the conditions (d) to (i) of R88, at the edges of the ranges. -/
theorem witness_IllegalWords_operands :
    (field 31 24 0x14000002#32 = 0x14 ∧ 2 ≤ field 15 0 0x14000002#32)
    ∧ (field 31 24 0x32000040#32 = 0x32 ∧ 64 ≤ field 15 0 0x32000040#32)
    ∧ (field 31 24 0x42000014#32 = 0x42 ∧ 20 ≤ field 15 0 0x42000014#32)
    ∧ (field 31 24 0x54000000#32 = 0x54 ∧ field 15 0 0x54000000#32 = 0)
    ∧ (field 31 24 0x54000009#32 = 0x54 ∧ 8 < field 15 0 0x54000009#32)
    ∧ (field 31 24 0x52121000#32 = 0x52 ∧ field 23 20 0x52121000#32 = field 15 12 0x52121000#32)
    ∧ (field 31 24 0x59110006#32 = 0x59 ∧ field 23 20 0x59110006#32 = field 19 16 0x59110006#32)
    ∧ (field 31 24 0x02000071#32 = 0x02 ∧ ¬ Claims.Mapped (field 15 0 0x02000071#32))
    ∧ (field 31 24 0x03000052#32 = 0x03 ∧ ¬ Claims.MappedRW (field 15 0 0x03000052#32)) := by
  unfold Claims.Mapped Claims.MappedRW; decide

theorem witness_IllegalWords_step :
    ({ State.reset with port := [.command 0x60000000#32 []] } : State).port
      = .command 0x60000000#32 [] :: [] := rfl

theorem witness_PortSplitsCommands :
    ([0x48#8, 0x45#8, 0x4C#8, 0x4C#8, 0x4F#8] : List Byte).length = plenOfWord 0x24000005#32
      ∧ ([] : List Byte).length = plenOfWord 0xFFFFFFFF#32 := by decide

theorem witness_StepRunsDecodedCommand :
    ({ State.reset with port := [.command 0x22000000#32 [], .hardReset] } : State).port
        = .command 0x22000000#32 [] :: [.hardReset]
      ∧ decode 0x22000000#32 = .ok .scStep ∧ State.reset.port = [] := by
  refine ⟨rfl, by decide, rfl⟩

theorem witness_IllFormedTransactionRefused :
    (paying [1]).pay.length ≠ Instr.sysNop.plen
      ∧ ([1#8] : List Byte).length ≠ plenOfWord 0x60000000#32
      ∧ ([1#8] : List Byte).length ≠ plenOfWord 0x20000000#32 := by decide

theorem witness_WellFormedTransactionCompletes :
    (∀ e rest, ({ State.reset with port := [.hardReset, .command 0x22000000#32 []] } : State).port
        = e :: rest → e.wellFormed)
      ∧ (paying [1, 2, 3]).pay.length = (Instr.shaFinal 3).plen := by
  refine ⟨?_, by decide⟩
  intro e rest h
  obtain ⟨rfl, -⟩ := List.cons.inj h
  exact trivial

theorem witness_ResetValues :
    v12.pay = [] ∧ ({ v12 with port := [.hardReset] } : State).port = .hardReset :: [] := ⟨rfl, rfl⟩

/-- A state with a key schedule of four words in KW, a loaded key and a command to run. -/
def scheduledTwo : State :=
  { v12 with
    wpb := .w4
    kw := kwVector fun j => if j = 3 then 5#64 else if j = 4 then 0x1BD11BDAA9FC1A27#64 else 0#64
    lastErr := 6#7
    reply := some { status := 0x86000000#32, response := [] }
    port := [.command 0x22000000#32 []] }

theorem scheduledTwo_inv : scheduledTwo.Inv where
  lfsr := by intro r; cases r <;> (constructor <;> decide)
  ready := by intro _; rfl
  kwTail := by
    intro j hj
    have hj : 4 < j := hj
    by_cases h : j < 17
    · have := fun k : Fin 17 => (by decide +revert : 4 < k.val → kwAt scheduledTwo.kw k.val = 0#64)
      exact this ⟨j, h⟩ hj
    · rw [kwAt, List.getD_eq_default]
      simpa using Nat.le_of_not_lt h
  kwNone := by intro h; exact absurd h (by decide)
  kwParity := by intro _; decide
  rkForm := rfl
  rkSched := by intro h; exact absurd h (by decide)
  nFits := by decide
  errCode := by decide
  noPayload := rfl
  replyOk := by
    intro r hr
    obtain rfl : r = { status := 0x86000000#32, response := [] } := (Option.some.inj hr).symm
    constructor <;> decide

theorem witness_StepKeepsInvariant :
    scheduledTwo.Inv ∧ ∃ t, step scheduledTwo = .next t ∧ t.lastErr = 0#7 :=
  ⟨scheduledTwo_inv, next_of_endsWith (by decide +kernel)⟩

theorem witness_StatusWordFields :
    (∃ t, exec (.lfsrFb .l0) v12 = .next t ∧ t.lastErr = 0#7)
      ∧ ∃ t, exec (.scGen 1#16) State.reset = .next t ∧ t.lastErr = 2#7 :=
  ⟨next_of_endsWith (by decide +kernel), next_of_endsWith (by decide +kernel)⟩

/-- A command of each error code, one of them a generation command. -/
theorem witness_FailedCommandChangesOnlyLasterr :
    (∃ t, exec .scInit State.reset = .next t ∧ t.lastErr = 2#7)
      ∧ (∃ t, exec (.lfsrLoad .l0) (paying [0, 0, 0, 0, 0, 8, 0, 0]) = .next t ∧ t.lastErr = 3#7)
      ∧ (∃ t, exec (.ntLd 0 1#16) (bounded 7 (paying [0, 128])) = .next t ∧ t.lastErr = 4#7)
      ∧ (∃ t, exec (.ntModinv 2 0 1) (holding 12 18 0 0) = .next t ∧ t.lastErr = 5#7)
      ∧ ∃ t, exec (.ntGenprime 0 1#16) { scripted [0] State.reset with retryLimit := 1#32 } = .next t
        ∧ t.lastErr = 6#7 :=
  ⟨next_of_endsWith (by decide +kernel), next_of_endsWith (by decide +kernel),
    next_of_endsWith (by decide +kernel), next_of_endsWith (by decide +kernel),
    next_of_endsWith (by decide +kernel)⟩

theorem witness_UnitIsolation :
    (Instr.shaInit.owner ≠ .sys ∧ Instr.shaInit.owner ≠ .lfsr ∧ Instr.shaInit.owner ≠ .sc
        ∧ Instr.shaInit.owner ≠ .ks ∧ Instr.shaInit.owner ≠ .nt ∧ Instr.shaInit ≠ .sysReset
        ∧ ∃ t, exec .shaInit v12 = .next t ∧ t.lastErr = 0#7)
      ∧ Instr.scStep.owner ≠ .sha ∧ ∃ t, exec .scStep v12 = .next t ∧ t.lastErr = 0#7 := by
  refine ⟨⟨by decide, by decide, by decide, by decide, by decide, by decide, ?_⟩, by decide, ?_⟩
  · exact next_of_endsWith (by decide +kernel)
  · exact next_of_endsWith (by decide +kernel)

theorem witness_SequencingFlags :
    (∃ t, exec .scInit v12 = .next t ∧ t.lastErr = 0#7)
      ∧ (∃ t, exec .scSetkey (paying [0, 0, 0, 0, 0, 0, 0, 0]) = .next t ∧ t.lastErr = 0#7)
      ∧ ∃ t, exec (.ksSched 32#16) (paying (List.range 32)) = .next t ∧ t.lastErr = 0#7 :=
  ⟨next_of_endsWith (by decide +kernel), next_of_endsWith (by decide +kernel),
    next_of_endsWith (by decide +kernel)⟩

theorem witness_OnlyFiveCommandsDraw :
    ((Instr.ntModpow 0 1 2 3).draws = false
        ∧ ∃ t, exec (.ntModpow 0 1 2 3) (holding 0 4 13 497) = .next t ∧ t.lastErr = 0#7)
      ∧ ∃ t, exec (.ntMr 0 2#16) (scripted [174, 137] (holding 221 0 0 0)) = .next t ∧ t.lastErr = 0#7 :=
  ⟨⟨rfl, next_of_endsWith (by decide +kernel)⟩, next_of_endsWith (by decide +kernel)⟩

theorem witness_ResponseLengths :
    (∃ t, exec (.scGen 16#16) v12 = .next t ∧ t.lastErr = 0#7
        ∧ (t.reply.map fun r => r.response.length) = some 16)
      ∧ ∃ t, exec (.ntSt 1) (holding 0 256 0 0) = .next t ∧ t.lastErr = 0#7
        ∧ (t.reply.map fun r => r.response.length) = some 3 := by
  refine ⟨?_, ?_⟩
  · obtain ⟨t, h, c, p⟩ := replied_of_endsWith (a := exec (.scGen 16#16) v12) (code := 0#7)
      (p := fun t => decide ((t.reply.map fun r => r.response.length) = some 16)) (by decide +kernel)
    exact ⟨t, h, c, of_decide_eq_true p⟩
  · obtain ⟨t, h, c, p⟩ := replied_of_endsWith (a := exec (.ntSt 1) (holding 0 256 0 0)) (code := 0#7)
      (p := fun t => decide ((t.reply.map fun r => r.response.length) = some 3)) (by decide +kernel)
    exact ⟨t, h, c, of_decide_eq_true p⟩

theorem witness_ReadsHaveNoSideEffect :
    (∃ t, exec (.lfsrOut .l0) v12 = .next t ∧ t.lastErr = 0#7)
      ∧ ∃ t, exec (.ksRdrk 0) v12 = .next t ∧ t.lastErr = 2#7 :=
  ⟨next_of_endsWith (by decide +kernel), next_of_endsWith (by decide +kernel)⟩

theorem witness_StateErrors :
    State.reset.pay = [] ∧ State.reset.keyValid = false ∧ State.reset.scReady = false
      ∧ State.reset.rkValid = false ∧ (paying [1, 2]).pay.length = (2#16).toNat
      ∧ (paying [1, 2]).keyValid = false
      ∧ ∃ t, exec .scStep State.reset = .next t ∧ t.lastErr = 2#7 := by
  refine ⟨rfl, rfl, rfl, rfl, rfl, rfl, next_of_endsWith (by decide +kernel)⟩

theorem witness_SysNopOnlyClearsLasterr : scheduledTwo.pay = [] ∧ scheduledTwo.lastErr = 6#7 := by decide

theorem witness_SysRdregReturnsImage : v12.pay = [] := rfl

theorem witness_SysWrregWritesRegister :
    ((paying [0, 0, 0, 0, 0xFF, 0xFF, 0xFF, 0xFF]).pay.length = 8
        ∧ be (paying [0, 0, 0, 0, 0xFF, 0xFF, 0xFF, 0xFF]).pay < 2 ^ 32)
      ∧ ((paying [0, 0, 0, 1, 0, 0, 0, 0]).pay.length = 8
        ∧ 2 ^ 32 ≤ be (paying [0, 0, 0, 1, 0, 0, 0, 0]).pay)
      ∧ Reg.tweak2.rw = false ∧ State.reset.pay = [] := by decide

theorem witness_WrregThenRdreg :
    ((Reg.h 4).rw = true ∧ ∀ j, Reg.h 4 = .retryLimit ∨ Reg.h 4 = .h j →
        be ([0#8, 0#8, 0#8, 0#8, 255#8, 255#8, 255#8, 255#8] : List Byte) < 2 ^ 32)
      ∧ Reg.hlen.rw = true ∧ ∀ j, Reg.hlen = .retryLimit ∨ Reg.hlen = .h j →
        be ([255#8, 0#8, 0#8, 0#8, 0#8, 0#8, 0#8, 0#8] : List Byte) < 2 ^ 32 := by decide

/-- The longest register at its highest indices, and each check of R101 broken at its edge. -/
theorem witness_LfsrConfConstructs :
    (let p := (paying [64, 63, 63, 0, 255, 255, 255, 255, 255, 255, 255, 255]).pay;
      p.length = 12 ∧ (p.getD 0 0#8).toNat = 64 ∧ (p.getD 1 0#8).toNat < (p.getD 0 0#8).toNat
      ∧ (p.getD 2 0#8).toNat < (p.getD 0 0#8).toNat ∧ (p.getD 3 0#8).toNat = 0
      ∧ be (p.drop 4) < 2 ^ (p.getD 0 0#8).toNat)
    ∧ (let p := (paying [1, 0, 0, 0, 0, 0, 0, 0, 0, 0, 0, 2]).pay;
      p.length = 12 ∧ ¬ be (p.drop 4) < 2 ^ (p.getD 0 0#8).toNat)
    ∧ (let p := (paying [65, 0, 0, 0, 0, 0, 0, 0, 0, 0, 0, 0]).pay;
      p.length = 12 ∧ ¬ (p.getD 0 0#8).toNat ≤ 64) := by decide

theorem witness_LfsrLoadWritesContents :
    ((paying [0, 0, 0, 0, 0, 7, 255, 255]).pay.length = 8
        ∧ be (paying [0, 0, 0, 0, 0, 7, 255, 255]).pay < 2 ^ (Lfsrs.reset.get .l0).len.toNat)
      ∧ 2 ^ (Lfsrs.reset.get .l0).len.toNat ≤ be (paying [0, 0, 0, 0, 0, 8, 0, 0]).pay := by decide

theorem witness_LfsrReadReturnsContents :
    v12.pay = [] ∧ ([0#8, 0#8, 0#8, 0#8, 0#8, 7#8, 255#8, 255#8] : List Byte).length = 8
      ∧ be ([0#8, 0#8, 0#8, 0#8, 0#8, 7#8, 255#8, 255#8] : List Byte)
        < 2 ^ (v12.lfsr.get .l0).len.toNat := by decide

theorem witness_LfsrShiftMovesBits : v12.pay = [] := rfl

theorem witness_LfsrBitsAreReported : v12.pay = [] := rfl

theorem witness_OverridesFillTheRegister :
    (List.replicate 19 true).length = (v12.lfsr.get .l0).len.toNat
      ∧ 1 ≤ (v12.lfsr.get .l0).len.toNat ∧ (v12.lfsr.get .l0).len.toNat ≤ 64 := by decide

theorem witness_ScSetkeyLoadsKey : (paying [1, 0x23, 0x45, 0x67, 0x89, 0xAB, 0xCD, 0xEF]).pay.length = 8 :=
  rfl

theorem witness_ScInitLoadsKeyBits : v12.pay = [] ∧ v12.keyValid = true := ⟨rfl, rfl⟩

theorem witness_ScStepIsMajorityClocked : v12.pay = [] ∧ v12.scReady = true := ⟨rfl, rfl⟩

theorem witness_ScGenReturnsKeystream : v12.pay = [] ∧ v12.scReady = true := ⟨rfl, rfl⟩

theorem witness_ScGenContinues :
    v12.scReady = true ∧ (16#16).toNat = (5#16).toNat + (11#16).toNat := ⟨rfl, rfl⟩

theorem witness_ScRunXorsKeystream :
    ({ v12 with pay := [1#8, 2#8] } : State).pay.length = (2#16).toNat ∧ v12.keyValid = true := ⟨rfl, rfl⟩

theorem witness_ScRunIsAnInvolution :
    ([1#8, 2#8] : List Byte).length = (2#16).toNat ∧ v12.keyValid = true
      ∧ ({ v12 with lfsr := shifted3 1#64 2#64 3#64 } : State).keyValid = true
      ∧ ({ v12 with lfsr := shifted3 1#64 2#64 3#64 } : State).key = v12.key
      ∧ ∀ r, { ({ v12 with lfsr := shifted3 1#64 2#64 3#64 } : State).lfsr.get r with s := 0#64 }
        = { v12.lfsr.get r with s := 0#64 } := by
  refine ⟨rfl, rfl, rfl, rfl, ?_⟩
  intro r; cases r <;> rfl

theorem witness_ShaInitWritesInitialValues : v12.pay = [] := rfl

theorem witness_ShaBlockCompresses : (paying (List.replicate 64 0x61)).pay.length = 64 := by decide

/-- A last part on an aligned count, and the two ways to be unaligned. -/
theorem witness_ShaFinalPads :
    ((paying []).pay.length = (0 : Fin 64).val ∧ (paying []).hlen.toNat % 64 = 0)
      ∧ ((paying (List.replicate 63 1)).pay.length = (63 : Fin 64).val ∧ (63 : Fin 64).val ≠ 0)
      ∧ ({ paying [] with hlen := 65#64 } : State).hlen.toNat % 64 ≠ 0 := by decide

theorem witness_ShaDigestReturnsAccumulators : v12.pay = [] := rfl

theorem witness_ShaHashAbsorbsPaddedMessage :
    ((paying []).pay.length = (0#16).toNat ∧ (0#16).toNat % 64 = 0)
      ∧ (paying [0x61, 0x62, 0x63]).pay.length = (3#16).toNat ∧ (3#16).toNat % 64 ≠ 0 := by decide

theorem witness_StreamedHashEqualsOneShot :
    (List.replicate 65 0x61#8).length = (65#16).toNat ∧ (1 : Fin 64).val = (65#16).toNat % 64 := by decide

theorem witness_KsSettweakLoadsTweaks : (paying (List.range 16)).pay.length = 16 := by decide

theorem witness_KsSchedStoresSchedule :
    ((paying (List.range 32)).pay.length = (32#16).toNat ∧ (32#16).toNat = 8 * Wpb.w4.toNat)
      ∧ ((paying (List.range 128)).pay.length = (128#16).toNat ∧ (128#16).toNat = 8 * Wpb.w16.toNat)
      ∧ ((paying (List.range 33)).pay.length = (33#16).toNat ∧ (33#16).toNat ≠ 32 ∧ (33#16).toNat ≠ 64
        ∧ (33#16).toNat ≠ 128) := by decide +kernel

theorem witness_KsRdrkReturnsVector :
    ({ v40 [] with rkValid := true, wpb := .w4 } : State).pay = []
      ∧ ({ v40 [] with rkValid := true, wpb := .w4 } : State).rkValid = true := ⟨rfl, rfl⟩

/-- V45: two runs whose tweaks differ modulo 256, and two whose tweaks agree modulo 256. -/
theorem witness_TweakSensitivity :
    (32#16).toNat = 8 * Wpb.w4.toNat ∧ (paying (List.range 32)).pay.length = (32#16).toNat
      ∧ (v40 (List.range 32)).pay = (paying (List.range 32)).pay
      ∧ (∃ t, exec (.ksSched 32#16) (paying (List.range 32)) = .next t ∧ t.lastErr = 0#7)
      ∧ (∃ t, exec (.ksSched 32#16) (v40 (List.range 32)) = .next t ∧ t.lastErr = 0#7)
      ∧ (v40 []).tweak0.toNat % 256 = (paying []).tweak0.toNat % 256
      ∧ (v40 []).tweak1.toNat % 256 ≠ (paying []).tweak1.toNat % 256
      ∧ (0x100#64).toNat % 256 = (paying []).tweak1.toNat % 256
      ∧ (1#64).toNat % 256 ≠ (paying []).tweak0.toNat % 256 := by
  refine ⟨rfl, by decide, rfl, ?_, ?_, by decide, by decide, by decide, by decide⟩
  · exact next_of_endsWith (by decide +kernel)
  · exact next_of_endsWith (by decide +kernel)

theorem witness_NtLdLoadsInteger :
    ((paying [0, 1, 0xF1]).pay.length = 1 + (2#16).toNat ∧ (paying [0, 1, 0xF1]).pay.head? = some 0#8
        ∧ Claims.Within (paying [0, 1, 0xF1]).cfg (be ((paying [0, 1, 0xF1]).pay.drop 1)))
      ∧ (paying [1, 3]).pay.head? = some 1#8
      ∧ ((paying [2, 7]).pay.head? ≠ some 0#8 ∧ (paying [2, 7]).pay.head? ≠ some 1#8)
      ∧ ((bounded 8 (paying [0, 1, 0])).pay.head? = some 0#8
        ∧ ¬ Claims.Within (bounded 8 (paying [0, 1, 0])).cfg
            (be ((bounded 8 (paying [0, 1, 0])).pay.drop 1))) := by
  refine ⟨⟨rfl, rfl, within_unbounded _⟩, rfl, ⟨by decide, by decide⟩, rfl, ?_⟩
  intro h
  exact absurd (h 8 rfl) (by decide)

theorem witness_NtStReturnsInteger :
    (holding (-367) 0 0 0).pay = [] ∧ ((holding (-367) 0 0 0).n[(0 : NReg)]).natAbs < 256 ^ 65534 := by
  refine ⟨rfl, ?_⟩
  have h : ((holding (-367) 0 0 0).n[(0 : NReg)]).natAbs = 367 := by decide
  rw [h]
  exact below_power (by omega) (by omega)

theorem held_magnitude (m : Nat) : m ≤ ((State.reset.setN 0 (m : Int)).n[(0 : NReg)]).natAbs := by
  have h : (State.reset.setN 0 (m : Int)).n[(0 : NReg)] = (m : Int) := by simp [State.setN]
  rw [h]; exact Nat.le_refl m

/-- The least magnitude that NT.ST refuses. -/
theorem witness_NtStReturnsInteger_range :
    ∃ s : State, s.pay = [] ∧ 256 ^ 65534 ≤ (s.n[(0 : NReg)]).natAbs :=
  ⟨State.reset.setN 0 ((256 ^ 65534 : Nat) : Int), rfl, held_magnitude _⟩

theorem witness_LdiThenStReturnsBytes :
    Claims.Within State.reset.cfg (-367) ∧ (-367 : Int).natAbs < 256 ^ 65534 := by
  refine ⟨within_unbounded _, ?_⟩
  have h : (-367 : Int).natAbs = 367 := rfl
  rw [h]
  exact below_power (by omega) (by omega)

theorem witness_NtXgcdWritesBezout :
    ((2 : NReg) ≠ 3 ∧ (2 : NReg) ≠ 4 ∧ (3 : NReg) ≠ 4 ∧ (holding 240 46 0 0).pay = []
        ∧ 0 < (holding 240 46 0 0).n[(0 : NReg)] ∧ 0 < (holding 240 46 0 0).n[(1 : NReg)]
        ∧ (holding 240 46 0 0).cfg.ntBits ≠ some 0)
      ∧ ((holding 0 5 0 0).n[(0 : NReg)] = 0 ∧ 0 < (holding 0 5 0 0).n[(1 : NReg)])
      ∧ ((holding 17 17 0 0).n[(0 : NReg)] = (holding 17 17 0 0).n[(1 : NReg)])
      ∧ ((bounded 0 State.reset).n[(0 : NReg)] = 0 ∧ (bounded 0 State.reset).cfg.ntBits = some 0)
      ∧ (holding (-1) 5 0 0).n[(0 : NReg)] < 0 := by decide

theorem witness_NtModinvInverts :
    (0 ≤ (holding 17 3120 0 0).n[(0 : NReg)] ∧ 1 ≤ (holding 17 3120 0 0).n[(1 : NReg)]
        ∧ Int.gcd ((holding 17 3120 0 0).n[(0 : NReg)]) ((holding 17 3120 0 0).n[(1 : NReg)]) = 1)
      ∧ (Int.gcd ((holding 0 1 0 0).n[(0 : NReg)]) ((holding 0 1 0 0).n[(1 : NReg)]) = 1)
      ∧ (Int.gcd ((holding 12 18 0 0).n[(0 : NReg)]) ((holding 12 18 0 0).n[(1 : NReg)]) ≠ 1)
      ∧ (holding 3 0 0 0).n[(1 : NReg)] < 1 ∧ (holding (-3) 7 0 0).n[(0 : NReg)] < 0 := by decide

theorem witness_NtCrtSolvesCongruences :
    (let s := (((holding 2 3 2 0).setN 8 3).setN 9 5).setN 10 7;
      1 ≤ (3#16).toNat ∧ (3#16).toNat ≤ 8 ∧ s.pay = []
      ∧ (∀ i < (3#16).toNat, 1 ≤ s.n.toList.getD (8 + i) 0)
      ∧ ∀ i < (3#16).toNat, ∀ j < (3#16).toNat, i ≠ j →
        Int.gcd (s.n.toList.getD (8 + i) 0) (s.n.toList.getD (8 + j) 0) = 1)
    ∧ (let s := (State.reset.setN 8 4).setN 9 6;
      (8#16).toNat ≤ 8 ∧ Int.gcd (s.n.toList.getD 8 0) (s.n.toList.getD 9 0) ≠ 1) := by decide +kernel

/-- V51, V52, V53: commands that succeed, and two states that agree on all that these commands read. -/
theorem witness_NtArithSanity :
    (∃ t, Succeeds (execNtXgcd 2 3 4 0 1 (holding 240 46 0 0)) t)
      ∧ (∃ t, Succeeds (execNtModinv 2 0 1 (holding 17 3120 0 0)) t)
      ∧ (∃ t, Succeeds (execNtCrt 4 3#16 ((((holding 2 3 2 0).setN 8 3).setN 9 5).setN 10 7)) t)
      ∧ SameOperands (holding 240 46 0 0) (scripted [1] (holding 240 46 0 0)) :=
  ⟨next_of_endsWith (by decide +kernel), next_of_endsWith (by decide +kernel),
    next_of_endsWith (by decide +kernel), rfl, rfl, rfl⟩

theorem witness_NtModpowRaises :
    (1 ≤ (holding 0 4 13 497).n[(3 : NReg)] ∧ 0 ≤ (holding 0 4 13 497).n[(2 : NReg)]
        ∧ Claims.Within (holding 0 4 13 497).cfg ((holding 0 4 13 497).n[(3 : NReg)]))
      ∧ 1 ≤ (holding 0 0 0 1).n[(3 : NReg)] ∧ (holding 0 2 5 0).n[(3 : NReg)] < 1
      ∧ (holding 0 2 (-1) 7).n[(2 : NReg)] < 0 := by
  refine ⟨⟨by decide, by decide, within_unbounded _⟩, by decide, by decide, by decide⟩

/-- A value for each clause: below 2, even, 2, 3, 5. -/
theorem witness_PrimalityVerdicts :
    State.reset.pay = [] ∧ (1#16 : BitVec 16) ≠ 0#16 ∧ (holding 1 0 0 0).n[(0 : NReg)] < 2
      ∧ ((holding 4 0 0 0).n[(0 : NReg)] ≠ 2 ∧ (holding 4 0 0 0).n[(0 : NReg)] % 2 = 0)
      ∧ (holding 2 0 0 0).n[(0 : NReg)] = 2 ∧ (holding 3 0 0 0).n[(0 : NReg)] = 3
      ∧ (5 ≤ (holding 5 0 0 0).n[(0 : NReg)] ∧ (holding 5 0 0 0).n[(0 : NReg)] % 2 = 1) := by decide

theorem witness_PrimesAlwaysPass :
    State.reset.pay = [] ∧ (1#16 : BitVec 16) ≠ 0#16 ∧ 0 ≤ (holding 97 0 0 0).n[(0 : NReg)]
      ∧ ((holding 97 0 0 0).n[(0 : NReg)]).toNat.Prime := by
  refine ⟨rfl, by decide, by decide, ?_⟩
  have h : ((holding 97 0 0 0).n[(0 : NReg)]).toNat = 97 := by decide
  rw [h]; norm_num

/-- A round of the statements is a round of the model, which can be evaluated. -/
theorem passes_iff_mrPass {m a : Nat} (hm : 2 ≤ m) : Claims.Passes m a ↔ mrPass m a = true := by
  obtain ⟨e, ho⟩ := twoPart_spec (bitlen (m - 1)) (m - 1) (by omega) (lt_two_pow_bitlen _)
  exact ⟨fun ⟨_, _, h1, h2, h⟩ => (mrPass_iff hm h1 h2).mpr h, fun h => ⟨_, _, e, ho, (mrPass_iff hm e ho).mp h⟩⟩

/-- V61: of two rounds on 221 the witness 174 passes and 137 does not, for NT.MR, so answer 1 is the first
failing one and two are used up. -/
theorem witness_PrimalityVerdicts_failed :
    (let s := scripted [174, 137] (holding 221 0 0 0);
      s.pay = [] ∧ (2#16 : BitVec 16) ≠ 0#16 ∧ 5 ≤ s.n[(0 : NReg)] ∧ s.n[(0 : NReg)] % 2 = 1
      ∧ Claims.UsesUp (fun j => Claims.Passes 221 (Claims.answer s.src j 2 219)) (2#16).toNat false 2) := by
  refine ⟨rfl, by decide, by decide, by decide, fun h => absurd h (by decide),
    fun _ => ⟨1, by decide, rfl, ?_, ?_⟩⟩
  · intro i hi
    obtain rfl : i = 0 := by omega
    exact (passes_iff_mrPass (by omega)).mpr (by decide)
  · exact fun h => absurd ((passes_iff_mrPass (by omega)).mp h) (by decide)

/-- V60: of one round on the prime 97 the witness 5 passes, for NT.FERMAT, and one answer is used up. -/
theorem witness_PrimalityVerdicts_passed :
    (let s := scripted [5] (holding 97 0 0 0);
      s.pay = [] ∧ (1#16 : BitVec 16) ≠ 0#16 ∧ 5 ≤ s.n[(0 : NReg)] ∧ s.n[(0 : NReg)] % 2 = 1
      ∧ (∀ j < (1#16).toNat, Claims.answer s.src j 2 95 ^ 96 % 97 = 1)
      ∧ Claims.UsesUp (fun j => Claims.answer s.src j 2 95 ^ 96 % 97 = 1) (1#16).toNat true 1) := by
  refine ⟨rfl, by decide, by decide, by decide, by decide, fun _ => rfl, fun h => absurd h (by decide)⟩

/-- 128 rounds with passing witnesses are a passed test. -/
theorem tested_of {src : Source} {m k : Nat}
    (h : (decide (5 ≤ m) && decide (m % 2 = 1)
      && (List.range 128).all fun j => mrPass m (Claims.answer src (k + j) 2 (m - 2))) = true) :
    Claims.Tested src m k (k + 128) := by
  rw [Bool.and_eq_true, Bool.and_eq_true, decide_eq_true_eq, decide_eq_true_eq, List.all_eq_true] at h
  refine .inr ⟨h.1.1, h.1.2, rfl, fun j hj => (passes_iff_mrPass (by omega)).mpr ?_⟩
  exact h.2 j (List.mem_range.mpr hj)

/-- A first witness that does not pass is a failed test. -/
theorem rejected_of {src : Source} {m k : Nat}
    (h : (decide (5 ≤ m) && decide (m % 2 = 1)
      && !mrPass m (Claims.answer src k 2 (m - 2))) = true) : Claims.Rejected src m k (k + 1) := by
  rw [Bool.and_eq_true, Bool.and_eq_true, decide_eq_true_eq, decide_eq_true_eq, Bool.not_eq_true'] at h
  refine .inr ⟨h.1.1, h.1.2, 0, by omega, rfl, fun i hi => absurd hi (by omega), ?_⟩
  rw [passes_iff_mrPass (by omega), Nat.add_zero, h.2]
  decide

/-- The answers of V63: 145 fails at its witness 2, then 149 passes 128 rounds. -/
def draws63 : Source := { script := [0x10, 2, 0x15] ++ List.replicate 128 147, count := 0 }

/-- V63: one failing try, then a passing one. -/
theorem witness_NtGenprimeResults_success :
    ({ State.reset with src := draws63 } : State).pay = [] ∧ 1 < State.reset.retryLimit.toNat
      ∧ Claims.TriesFail draws63 8 (Claims.Rejected draws63) 1 2
      ∧ Claims.Tested draws63 (Claims.candidate draws63 8 2) (2 + 1) 131 := by
  refine ⟨rfl, by decide, ⟨fun i => 2 * i, rfl, rfl, ?_⟩, tested_of (by decide +kernel)⟩
  intro i hi
  obtain rfl : i = 0 := by omega
  exact rejected_of (by decide +kernel)

/-- A budget of one try, which fails: 145 at its witness 2. -/
theorem witness_NtGenprimeResults_failure :
    Claims.TriesFail draws63 8 (Claims.Rejected draws63)
      ({ State.reset with src := draws63, retryLimit := 1#32 } : State).retryLimit.toNat 2 :=
  witness_NtGenprimeResults_success.2.2.1

theorem witness_NtGenprimeResults :
    State.reset.pay = [] ∧ (8#16 : BitVec 16) ≠ 0#16
      ∧ (∀ b, (bounded 8 State.reset).cfg.ntBits = some b → (8#16).toNat ≤ b)
      ∧ (∀ b, State.reset.cfg.ntBits = some b → 2 ≤ b) ∧ 1 ≤ State.reset.retryLimit.toNat := by
  refine ⟨rfl, by decide, ?_, ?_, by decide⟩
  · intro b hb
    obtain rfl : b = 8 := (Option.some.inj hb).symm
    decide
  · intro b hb; cases hb

/-- The answers of V64: 6 makes 23, which passes 128 rounds, and so does 47. -/
def draws64 : Source := { script := [6] ++ List.replicate 128 2 ++ List.replicate 128 45, count := 0 }

/-- V64: the first try passes both tests. -/
theorem witness_NtGensafeResults_success :
    0 < State.reset.retryLimit.toNat
      ∧ Claims.TriesFail draws64 5 (Claims.SafeRejected draws64) 0 0
      ∧ Claims.SafeTested draws64 (Claims.candidate draws64 5 0) (0 + 1) 257 := by
  refine ⟨by decide, ⟨fun _ => 0, rfl, rfl, fun i hi => absurd hi (by omega)⟩, 129, ?_, ?_⟩
  · exact tested_of (by decide +kernel)
  · exact tested_of (by decide +kernel)

/-- The answers of two failing tries for 5 bits: 9 fails at its witness 2; 13 passes 128 rounds, and its 27
fails at its witness 2. -/
def drawsUnsafe : Source :=
  { script := [9, 2, 13] ++ List.replicate 128 2 ++ [2], count := 0 }

/-- A budget of two tries that fail, one at `q`, one at `2q + 1`. -/
theorem witness_NtGensafeResults_failure :
    Claims.TriesFail drawsUnsafe 4 (Claims.SafeRejected drawsUnsafe)
      ({ State.reset with src := drawsUnsafe, retryLimit := 2#32 } : State).retryLimit.toNat 132 := by
  refine ⟨fun i => if i = 0 then 0 else if i = 1 then 2 else 132, rfl, rfl, ?_⟩
  intro i hi
  have hi : i < 2 := hi
  obtain rfl | rfl : i = 0 ∨ i = 1 := by omega
  · exact .inl (rejected_of (by decide +kernel))
  · exact .inr ⟨131, tested_of (by decide +kernel), rejected_of (by decide +kernel)⟩

theorem witness_NtGensafeResults :
    (0 : NReg) ≠ 1 ∧ State.reset.pay = [] ∧ (2#16).toNat < 3 ∧ 3 ≤ (6#16).toNat ∧ (3#16).toNat = 3
      ∧ (∀ b, State.reset.cfg.ntBits = some b → (6#16).toNat ≤ b) ∧ 1 ≤ State.reset.retryLimit.toNat := by
  refine ⟨by decide, rfl, by decide, by decide, by decide, ?_, by decide⟩
  intro b hb; cases hb

/-- V65: 2 is rejected and 5 accepted as the first answer; 22 is no odd modulus. -/
theorem witness_NtFindgenResults :
    (let s := scripted [5] (holding 23 11 0 0);
      3 ≤ s.n[(0 : NReg)] ∧ s.n[(0 : NReg)] % 2 = 1 ∧ 1 ≤ s.n[(1 : NReg)]
      ∧ (s.n[(0 : NReg)] - 1) % s.n[(1 : NReg)] = 0 ∧ Claims.Within s.cfg (s.n[(0 : NReg)])
      ∧ 1 ≤ s.retryLimit.toNat ∧ Claims.answer s.src 0 0 22 = 5
      ∧ 5 ^ ((23 - 1) / 2) % 23 ≠ 1 ∧ 5 ^ ((23 - 1) / 11) % 23 ≠ 1)
    ∧ ¬ (holding 22 11 0 0).n[(0 : NReg)] % 2 = 1 := by
  refine ⟨⟨by decide, by decide, by decide, by decide, within_unbounded _, by decide, by decide,
    by decide, by decide⟩, by decide⟩

/-- V65: 2 and 22 are not accepted and 5 is, at the third try. -/
theorem witness_NtFindgenResults_success :
    (let s := scripted [2, 22, 5] (holding 23 11 0 0);
      let drawn := fun i : Nat => Claims.answer s.src i 0 22;
      let accepted := fun a : Nat => a ^ ((23 - 1) / 2) % 23 ≠ 1 ∧ a ^ ((23 - 1) / 11) % 23 ≠ 1;
      s.pay = [] ∧ 2 < s.retryLimit.toNat ∧ (∀ i < 2, ¬ accepted (drawn i)) ∧ accepted (drawn 2)) := by
  decide

/-- V65 with a budget of two tries: neither 2 nor 22 is accepted. -/
theorem witness_NtFindgenResults_failure :
    (let s : State := { scripted [2, 22] (holding 23 11 0 0) with retryLimit := 2#32 };
      s.pay = [] ∧ 3 ≤ s.n[(0 : NReg)] ∧ s.n[(0 : NReg)] % 2 = 1 ∧ 1 ≤ s.n[(1 : NReg)]
      ∧ (s.n[(0 : NReg)] - 1) % s.n[(1 : NReg)] = 0
      ∧ ∀ i < s.retryLimit.toNat, ¬ (Claims.answer s.src i 0 22 ^ ((23 - 1) / 2) % 23 ≠ 1
        ∧ Claims.answer s.src i 0 22 ^ ((23 - 1) / 11) % 23 ≠ 1)) := by
  decide

theorem witness_ZeroBudgetFailsAtOnce :
    ({ holding 23 11 0 0 with retryLimit := 0#32 } : State).pay = []
      ∧ ({ holding 23 11 0 0 with retryLimit := 0#32 } : State).retryLimit = 0#32
      ∧ 3 ≤ (holding 23 11 0 0).n[(0 : NReg)] ∧ (holding 23 11 0 0).n[(0 : NReg)] % 2 = 1
      ∧ 1 ≤ (holding 23 11 0 0).n[(1 : NReg)]
      ∧ ((holding 23 11 0 0).n[(0 : NReg)] - 1) % (holding 23 11 0 0).n[(1 : NReg)] = 0
      ∧ (1#16 : BitVec 16) ≠ 0#16 ∧ 3 ≤ (3#16).toNat
      ∧ ∀ b, State.reset.cfg.ntBits = some b → (3#16).toNat ≤ b := by
  refine ⟨rfl, rfl, by decide, by decide, by decide, by decide, by decide, by decide, ?_⟩
  intro b hb; cases hb

theorem witness_BitLengthBeyondBound :
    (bounded 64 State.reset).pay = [] ∧ (bounded 64 State.reset).cfg.ntBits = some 64
      ∧ 64 < (65#16).toNat ∧ 3 ≤ (65#16).toNat
      ∧ (bounded 1 State.reset).cfg.ntBits = some 1 ∧ 1 < (2#16).toNat ∧ (2#16).toNat < 3 := by decide

end Sys2Proof.Tests
end

section
/-! Proofs of the family 30_encoding: the byte stream of the command port (spec/30_encoding.md R79), the
status word of every command that ends (R84), the illegal command words (R88). -/

namespace Sys2Proof.Encoding

open Sys2Proof.Machine Sys2Proof.Claims

/-! ## The command port as a byte stream (30_encoding.md R79) -/

/-- Behind the 4 bytes of a word, the split takes as many bytes as the word's `PLEN` says. -/
theorem splitCommand_bytesOfWord (word : Word32) {rest : List Byte} (h : plenOfWord word ≤ rest.length) :
    splitCommand (bytesOfWord word ++ rest)
      = some (.command word (rest.take (plenOfWord word)), rest.drop (plenOfWord word)) := by
  obtain ⟨b0, b1, b2, b3, hbytes, rfl⟩ := bytesOfWord_eq word
  rw [hbytes]
  exact if_pos h

/-- Settles O5: the word's `PLEN` is the length of the payload, so the split ends where the payload does. -/
theorem portSplitsCommands : Obligations.PortSplitsCommands := by
  intro word payload rest hlen
  rw [commandBytes, List.append_assoc, splitCommand_bytesOfWord word (by simp; omega), ← hlen,
    List.take_left, List.drop_left]

/-! ## How a command ends (30_encoding.md R84) -/

/-- What a command with (`hasBit`) or without a one-bit result ends with: an error code of at most 6, a bit
that is 1 only for the former and only on success, and a response that RLEN can count, empty on failure. -/
def CommandEnd (hasBit : Bool) (t : State) : Prop :=
  ∃ (u : State) (c : BitVec 7) (b : Bool) (r : List Byte), t = u.finish c b r ∧ c.toNat ≤ 6
    ∧ (b = true → hasBit = true ∧ c = 0#7) ∧ (c ≠ 0#7 → r = []) ∧ r.length < 2 ^ 16

theorem CommandEnd.code {hasBit : Bool} (u : State) (c : BitVec 7) (hc : c.toNat ≤ 6) :
    CommandEnd hasBit (u.finish c false []) :=
  ⟨u, c, false, [], rfl, hc, by simp, fun _ => rfl, by simp⟩

theorem CommandEnd.success {hasBit : Bool} (u : State) : CommandEnd hasBit (u.finish 0#7 false []) :=
  .code u 0#7 (by decide)

theorem CommandEnd.bit (u : State) (b : Bool) : CommandEnd true (u.finish 0#7 b []) :=
  ⟨u, 0#7, b, [], rfl, by decide, fun _ => ⟨rfl, rfl⟩, fun _ => rfl, by simp⟩

theorem CommandEnd.response {hasBit : Bool} (u : State) {r : List Byte} (hr : r.length < 2 ^ 16) :
    CommandEnd hasBit (u.finish 0#7 false r) :=
  ⟨u, 0#7, false, r, rfl, by decide, by simp, fun hc => absurd rfl hc, hr⟩

theorem CommandEnd.of_ntEnd {s t : State} {hasBit : Bool} (h : NtEnd s t) : CommandEnd hasBit t := by
  obtain ⟨d, -, rfl⟩ | ⟨c, hc, rfl⟩ := h
  · exact .success _
  · refine .code s c ?_
    rcases hc with rfl | rfl | rfl | rfl | rfl <;> decide

theorem CommandEnd.of_testEnd {s t : State} (h : TestEnd s t) : CommandEnd true t := by
  obtain ⟨b, k, rfl⟩ | rfl := h
  · exact .bit _ b
  · exact .code s 3#7 (by decide)

theorem CommandEnd.of_genEnd {s t : State} {hasBit : Bool} (h : GenEnd s t) : CommandEnd hasBit t := by
  obtain ⟨k, h⟩ := h
  exact .of_ntEnd h

/-- The keystream bytes of `SC.RUN` are as many as its payload has. -/
theorem scRun_response_length {n : Nat} {pay : List Byte} (h : pay.length = n) (ls : Lfsrs) :
    (bytesMSB (List.zipWith xor (bitsMSB pay) (keystream (8 * n) ls).1)).length = n :=
  bytesMSB_length (by simp [h])

@[simp] theorem intBytes_length (v : Int) : (intBytes v).length = 1 + magBytes v := by
  simp [intBytes, Nat.add_comm]

/-- Every next state `exec` answers is the end of a command of its kind. -/
theorem exec_commandEnd {i : Instr} {s t : State} (h : exec i s = .next t) : CommandEnd i.hasBit t := by
  cases i with
  | sysNop =>
    obtain ⟨-, rfl⟩ := execSysNop_cases h
    exact .success _
  | sysReset =>
    obtain ⟨-, rfl⟩ := execSysReset_cases h
    exact .success _
  | sysRdreg num =>
    obtain ⟨-, rfl⟩ := execSysRdreg_cases h
    exact .response _ (by simp)
  | sysWrreg num =>
    obtain ⟨-, -, ⟨-, -, rfl⟩ | ⟨-, rfl⟩⟩ | ⟨-, -, rfl⟩ := execSysWrreg_cases h
    · exact .code _ 3#7 (by decide)
    · exact .success _
    · exact .code _ 1#7 (by decide)
  | lfsrConf r =>
    obtain ⟨-, ⟨-, rfl⟩ | ⟨-, rfl⟩⟩ := execLfsrConf_cases h
    · exact .code _ 3#7 (by decide)
    · exact .success _
  | lfsrLoad r =>
    obtain ⟨-, ⟨-, rfl⟩ | ⟨-, rfl⟩⟩ := execLfsrLoad_cases h
    · exact .code _ 3#7 (by decide)
    · exact .success _
  | lfsrRead r =>
    obtain ⟨-, rfl⟩ := execLfsrRead_cases h
    exact .response _ (by simp)
  | lfsrShift r =>
    obtain ⟨-, rfl⟩ := execLfsrShift_cases h
    exact .success _
  | lfsrShifto r b =>
    obtain ⟨-, rfl⟩ := execLfsrShifto_cases h
    exact .success _
  | lfsrFb r =>
    obtain ⟨-, rfl⟩ := execLfsrFb_cases h
    exact .bit _ _
  | lfsrOut r =>
    obtain ⟨-, rfl⟩ := execLfsrOut_cases h
    exact .bit _ _
  | lfsrClk r =>
    obtain ⟨-, rfl⟩ := execLfsrClk_cases h
    exact .bit _ _
  | scSetkey =>
    obtain ⟨-, rfl⟩ := execScSetkey_cases h
    exact .success _
  | scInit =>
    obtain ⟨-, ⟨-, rfl⟩ | ⟨-, rfl⟩⟩ := execScInit_cases h
    · exact .success _
    · exact .code _ 2#7 (by decide)
  | scStep =>
    obtain ⟨-, ⟨-, rfl⟩ | ⟨-, rfl⟩⟩ := execScStep_cases h
    · exact .bit _ _
    · exact .code _ 2#7 (by decide)
  | scGen n =>
    obtain ⟨-, ⟨-, rfl⟩ | ⟨-, rfl⟩⟩ := execScGen_cases h
    · exact .response _ (by rw [bytesMSB_length (keystream_length _ _)]; exact n.isLt)
    · exact .code _ 2#7 (by decide)
  | scRun n =>
    obtain ⟨hlen, ⟨-, rfl⟩ | ⟨-, rfl⟩⟩ := execScRun_cases h
    · exact .response _ (by rw [scRun_response_length hlen]; exact n.isLt)
    · exact .code _ 2#7 (by decide)
  | shaInit =>
    obtain ⟨-, rfl⟩ := execShaInit_cases h
    exact .success _
  | shaBlock =>
    obtain ⟨-, rfl⟩ := execShaBlock_cases h
    exact .success _
  | shaFinal n =>
    obtain ⟨-, h', rfl⟩ := execShaFinal_cases h
    exact .success _
  | shaDigest =>
    obtain ⟨-, rfl⟩ := execShaDigest_cases h
    exact .response _ (by simp [digest_length])
  | shaHash n =>
    obtain ⟨-, rfl⟩ := execShaHash_cases h
    exact .response _ (by simp [digest_length])
  | ksSettweak =>
    obtain ⟨-, rfl⟩ := execKsSettweak_cases h
    exact .success _
  | ksSched bs =>
    obtain ⟨-, ⟨-, rfl⟩ | ⟨w, -, rfl⟩⟩ := execKsSched_cases h
    · exact .code _ 3#7 (by decide)
    · exact .success _
  | ksRdrk k =>
    obtain ⟨-, ⟨-, rfl⟩ | ⟨-, rfl⟩⟩ := execKsRdrk_cases h
    · have := s.wpb.toNat_le
      exact .response _ (by simp; omega)
    · exact .code _ 2#7 (by decide)
  | ntLd rd n => exact .of_ntEnd (execNtLd_cases h).2
  | ntSt rs =>
    obtain ⟨-, ⟨-, rfl⟩ | ⟨hlen, rfl⟩⟩ := execNtSt_cases h
    · exact .code _ 4#7 (by decide)
    · exact .response _ (by rw [intBytes_length]; omega)
  | ntXgcd rg rx ry ra rb => exact .of_ntEnd (execNtXgcd_cases h).2
  | ntModinv rd rn rm => exact .of_ntEnd (execNtModinv_cases h).2
  | ntCrt rd k => exact .of_ntEnd (execNtCrt_cases h).2
  | ntModpow rd rb re rm => exact .of_ntEnd (execNtModpow_cases h).2
  | ntFermat rn rounds => exact .of_testEnd (execNtFermat_cases h).2
  | ntMr rn rounds => exact .of_testEnd (execNtMr_cases h).2
  | ntGenprime rd bits => exact .of_genEnd (execNtGenprime_cases h).2
  | ntGensafe rp rq bits => exact .of_genEnd (execNtGensafe_cases h).2
  | ntFindgen rd rp rq => exact .of_genEnd (execNtFindgen_cases h).2

/-- ERR is 1 exactly when CODE, read as a number, is not 0. -/
theorem errBit_eq (c : BitVec 7) : (c != 0#7).toNat = if c.toNat = 0 then 0 else 1 := by
  by_cases h : c = 0#7
  · simp [h]
  · have : c.toNat ≠ 0 := fun h0 => h (BitVec.eq_of_toNat_eq h0)
    simp [h, this]

/-- Settles O12: a command ends through `finish`, and `statusWord_fields` spells out the word that writes. -/
theorem statusWordFields : Obligations.StatusWordFields := by
  intro i s t h
  obtain ⟨u, c, b, r, rfl, hc, hb, hr, hlen⟩ := exec_commandEnd h
  obtain ⟨herr, hcode, hzero, hbit, hrlen⟩ := statusWord_fields c b r.length
  refine ⟨_, State.finish_reply u c b r, ?_, hcode, hzero, ?_, ?_, ?_, hc⟩
  · rw [herr, hcode, errBit_eq]
  · intro h1
    obtain ⟨hhas, rfl⟩ := hb (by simpa [hbit] using h1)
    exact ⟨hhas, hcode⟩
  · exact hrlen.trans (Nat.mod_eq_of_lt hlen)
  · intro hne
    refine hr ?_
    rintro rfl
    exact hne hcode

/-! ## The operands a legal word may name (10_state.md R42, 30_encoding.md R74) -/

/-- The selectors of a shift register are the numbers below 3. -/
theorem exists_code_iff (k : Nat) : (∃ r : LfsrSel, k = r.code) ↔ k < 3 := by
  constructor
  · rintro ⟨r, rfl⟩
    cases r <;> decide
  · intro h
    interval_cases k
    · exact ⟨.l0, rfl⟩
    · exact ⟨.l1, rfl⟩
    · exact ⟨.l2, rfl⟩

theorem mapped_number (r : Reg) : Mapped r.number := by
  cases r with
  | lfsrLen r | lfsrTaps r | lfsrClkidx r | lfsrOutidx r | lfsrState r =>
    cases r <;> simp [Mapped, Reg.number, LfsrSel.base]
  | h j => have := j.isLt; simp only [Mapped, Reg.number]; omega
  | kw j => have := j.isLt; simp only [Mapped, Reg.number]; omega
  | _ => simp [Mapped, Reg.number]

theorem lt_of_mapped {k : Nat} (h : Mapped k) : k < 0x71 := by
  unfold Mapped at h
  omega

theorem isSome_ofNumber_of_mapped : ∀ k < 0x71, Mapped k → (Reg.ofNumber k).isSome = true := by
  unfold Mapped
  decide

theorem exists_number_iff (k : Nat) : (∃ r : Reg, k = r.number) ↔ Mapped k := by
  constructor
  · rintro ⟨r, rfl⟩
    exact mapped_number r
  · intro h
    obtain ⟨r, hr⟩ := Option.isSome_iff_exists.mp (isSome_ofNumber_of_mapped k (lt_of_mapped h) h)
    exact ⟨r, (Reg.number_of_ofNumber hr).symm⟩

/-- A mapped register is writable exactly when R42 lists its number as RW. -/
theorem mappedRW_number_iff (r : Reg) : MappedRW r.number ↔ r.writable = true := by
  cases r with
  | lfsrLen r | lfsrTaps r | lfsrClkidx r | lfsrOutidx r | lfsrState r =>
    cases r <;> simp [MappedRW, Reg.number, Reg.writable, LfsrSel.base]
  | h j => have := j.isLt; simp only [MappedRW, Reg.number, Reg.writable, iff_true]; omega
  | kw j =>
    simp only [MappedRW, Reg.number, Reg.writable, Bool.false_eq_true, iff_false]; omega
  | _ => simp [MappedRW, Reg.number, Reg.writable]

theorem mapped_of_mappedRW {k : Nat} (h : MappedRW k) : Mapped k := by
  unfold MappedRW at h
  unfold Mapped
  omega

theorem exists_writable_number_iff (k : Nat) :
    (∃ r : Reg, k = r.number ∧ r.writable = true) ↔ MappedRW k := by
  constructor
  · rintro ⟨r, rfl, hw⟩
    exact (mappedRW_number_iff r).mpr hw
  · intro h
    obtain ⟨r, rfl⟩ := (exists_number_iff k).mpr (mapped_of_mappedRW h)
    exact ⟨r, rfl, (mappedRW_number_iff r).mp h⟩

/-! ## When the decoder reads a command -/

/-- Some command is read: the word, or what is left of it to check, is legal. -/
def Reads (r : Except Reject Instr) : Prop := ∃ i, r = .ok i

@[simp] theorem reads_ok (i : Instr) : Reads (.ok i) := ⟨i, rfl⟩

@[simp] theorem not_reads_error (e : Reject) : ¬ Reads (.error e) := by
  rintro ⟨i, h⟩
  cases h

theorem not_reads_iff (r : Except Reject Instr) : ¬ Reads r ↔ ∃ e, r = .error e := by
  cases r <;> simp

@[simp] theorem reads_ite (p : Prop) [Decidable p] (i : Instr) (e : Reject) :
    Reads (if p then .ok i else .error e) ↔ p := by
  by_cases hp : p <;> simp [hp]

@[simp] theorem reads_dite (p : Prop) [Decidable p] (i : p → Instr) (e : Reject) :
    Reads (if h : p then .ok (i h) else .error e) ↔ p := by
  by_cases hp : p <;> simp [hp]

theorem reads_zeroBits {hi lo : Nat} {w : Word32} {r : Except Reject Instr} :
    Reads (zeroBits hi lo w r) ↔ field hi lo w = 0 ∧ Reads r := by
  simp [Reads, zeroBits_ok]

theorem reads_withLfsr {w : Word32} {mk : LfsrSel → Except Reject Instr} {p : Prop}
    (hmk : ∀ r, Reads (mk r) ↔ p) : Reads (withLfsr w mk) ↔ fR1 w < 3 ∧ p := by
  have hreads : Reads (withLfsr w mk) ↔ ∃ r : LfsrSel, fR1 w = r.code ∧ Reads (mk r) := by
    simp only [Reads, withLfsr_ok]
    exact ⟨fun ⟨i, r, hr, h⟩ => ⟨r, hr, i, h⟩, fun ⟨r, hr, i, h⟩ => ⟨i, r, hr, h⟩⟩
  simp only [hreads, hmk, ← exists_code_iff, exists_and_right]

theorem reads_withReg {w : Word32} {mk : Reg → Except Reject Instr} :
    Reads (withReg w mk) ↔ ∃ r : Reg, fImm w = r.number ∧ Reads (mk r) := by
  simp only [Reads, withReg_ok]
  exact ⟨fun ⟨i, r, hr, h⟩ => ⟨r, hr, i, h⟩, fun ⟨r, hr, i, h⟩ => ⟨i, r, hr, h⟩⟩

/-! ## Illegal command words (30_encoding.md R88) -/

/-- Conditions (c) to (i) of R88 on the operands of a word whose opcode is `op`. -/
def OperandsIllegal (op : Nat) (w : Word32) : Prop :=
  (0x10 ≤ op ∧ op ≤ 0x17 ∧ 3 ≤ fR1 w)
  ∨ (op = 0x14 ∧ 2 ≤ fImm w)
  ∨ (op = 0x32 ∧ 64 ≤ fImm w)
  ∨ (op = 0x42 ∧ 20 ≤ fImm w)
  ∨ (op = 0x54 ∧ (fImm w = 0 ∨ 8 < fImm w))
  ∨ (op = 0x52 ∧ (fR1 w = fR2 w ∨ fR1 w = fR3 w ∨ fR2 w = fR3 w))
  ∨ (op = 0x59 ∧ fR1 w = fR2 w)
  ∨ (op = 0x02 ∧ ¬ Mapped (fImm w))
  ∨ (op = 0x03 ∧ ¬ MappedRW (fImm w))

/-- Conditions (a), (b), and (c) to (i) together. -/
theorem illegal_iff (w : Word32) : Illegal w ↔ (∀ f, (field 31 24 w, f) ∉ formats)
    ∨ (∃ f, (field 31 24 w, f) ∈ formats ∧ ¬ f.unusedZero w) ∨ OperandsIllegal (field 31 24 w) w :=
  .rfl

/-- An opcode has one format. -/
theorem formats_functional : ∀ p ∈ formats, ∀ q ∈ formats, p.1 = q.1 → p.2 = q.2 := by decide

/-- The function numbers of each unit are assigned from 0 up (30_encoding.md R76). -/
theorem formats_bounds : ∀ p ∈ formats, p.1 / 16 ≤ 5
    ∧ (p.1 / 16 = 0 → p.1 % 16 < 4) ∧ (p.1 / 16 = 1 → p.1 % 16 < 8) ∧ (p.1 / 16 = 2 → p.1 % 16 < 5)
    ∧ (p.1 / 16 = 3 → p.1 % 16 < 5) ∧ (p.1 / 16 = 4 → p.1 % 16 < 3)
    ∧ (p.1 / 16 = 5 → p.1 % 16 < 11) := by decide

theorem assigned_bounds {w : Word32} {f : Format} (hf : (field 31 24 w, f) ∈ formats) : fUnit w ≤ 5
    ∧ (fUnit w = 0 → fFunc w < 4) ∧ (fUnit w = 1 → fFunc w < 8) ∧ (fUnit w = 2 → fFunc w < 5)
    ∧ (fUnit w = 3 → fFunc w < 5) ∧ (fUnit w = 4 → fFunc w < 3) ∧ (fUnit w = 5 → fFunc w < 11) := by
  rw [fUnit_eq, fFunc_eq]
  exact formats_bounds _ hf

/-- A word of an assigned opcode is legal when its unused bits are 0 and its operands break no condition. -/
theorem not_illegal_iff {w : Word32} {op : Nat} (f : Format) (hop : field 31 24 w = op)
    (hf : (op, f) ∈ formats) : ¬ Illegal w ↔ f.unusedZero w ∧ ¬ OperandsIllegal op w := by
  subst hop
  have hassigned : ¬ ∀ f, (field 31 24 w, f) ∉ formats := fun h => h f hf
  have hunused : (∃ g, (field 31 24 w, g) ∈ formats ∧ ¬ g.unusedZero w) ↔ ¬ f.unusedZero w := by
    constructor
    · rintro ⟨g, hg, hz⟩
      have hfg : f = g := formats_functional _ hf _ hg rfl
      rwa [hfg]
    · exact fun hz => ⟨f, hf, hz⟩
  rw [illegal_iff, hunused]
  tauto

/-- The decoder's check of a format's unused bits is condition (b); what is left to check after it are the
operands. -/
theorem reads_format {w : Word32} {op hi lo : Nat} (f : Format) {r : Except Reject Instr}
    (hop : field 31 24 w = op) (hf : (op, f) ∈ formats) (hz : f.unusedZero w ↔ field hi lo w = 0)
    (hr : Reads r ↔ ¬ OperandsIllegal op w) : Reads (zeroBits hi lo w r) ↔ ¬ Illegal w := by
  rw [reads_zeroBits, not_illegal_iff f hop hf, hz, hr]

/-- A command whose operands may be anything. -/
theorem reads_format_ok {w : Word32} {op hi lo : Nat} (f : Format) {i : Instr}
    (hop : field 31 24 w = op) (hf : (op, f) ∈ formats) (hz : f.unusedZero w ↔ field hi lo w = 0)
    (hr : ¬ OperandsIllegal op w) : Reads (zeroBits hi lo w (.ok i)) ↔ ¬ Illegal w :=
  reads_format f hop hf hz (by simp [hr])

theorem reads_fmtLfsr {w : Word32} {op : Nat} {mk : LfsrSel → Instr} (hop : field 31 24 w = op)
    (hf : (op, Format.R) ∈ formats) (hr : OperandsIllegal op w ↔ 3 ≤ fR1 w) :
    Reads (fmtLfsr w mk) ↔ ¬ Illegal w :=
  reads_format .R hop hf .rfl (by rw [reads_withLfsr (p := True) (by simp), hr]; simp)

theorem reads_unassigned {w : Word32} (h : ∀ f, (field 31 24 w, f) ∉ formats) :
    Reads (.error .unassignedOpcode) ↔ ¬ Illegal w := by
  have : Illegal w := .inl h
  simp [this]

theorem opcode_eq {w : Word32} {u k : Nat} (hu : fUnit w = u) (hk : fFunc w = k) :
    field 31 24 w = 16 * u + k := by
  rw [← hu, ← hk, fUnit_eq, fFunc_eq]
  omega

/-! The decoder unit by unit: one case per function number, grouped by the format of the word, and last the
function numbers that no command has. -/

section
variable {w : Word32}

theorem reads_decodeSys (hu : fUnit w = 0) : Reads (decodeSys w) ↔ ¬ Illegal w := by
  unfold decodeSys
  split
  case h_1 hk | h_2 hk =>
    exact reads_format_ok .N (opcode_eq hu hk) (by decide) .rfl (by simp [OperandsIllegal])
  case h_3 hk =>
    refine reads_format .I (opcode_eq hu hk) (by decide) .rfl ?_
    rw [reads_withReg]
    simp [OperandsIllegal, exists_number_iff]
  case h_4 hk =>
    refine reads_format .I (opcode_eq hu hk) (by decide) .rfl ?_
    rw [reads_withReg]
    simp [OperandsIllegal, exists_writable_number_iff]
  case h_5 => exact reads_unassigned fun f hf => by grind [assigned_bounds hf]

theorem reads_decodeLfsr (hu : fUnit w = 1) : Reads (decodeLfsr w) ↔ ¬ Illegal w := by
  unfold decodeLfsr
  split
  case h_1 hk | h_2 hk | h_3 hk | h_4 hk | h_6 hk | h_7 hk | h_8 hk =>
    exact reads_fmtLfsr (opcode_eq hu hk) (by decide) (by simp [OperandsIllegal])
  case h_5 hk =>
    refine reads_format .RI (opcode_eq hu hk) (by decide) .rfl ?_
    rw [reads_withLfsr fun r => reads_ite _ _ _]
    simp [OperandsIllegal]
  case h_9 => exact reads_unassigned fun f hf => by grind [assigned_bounds hf]

theorem reads_decodeSc (hu : fUnit w = 2) : Reads (decodeSc w) ↔ ¬ Illegal w := by
  unfold decodeSc
  split
  case h_1 hk | h_2 hk | h_3 hk =>
    exact reads_format_ok .N (opcode_eq hu hk) (by decide) .rfl (by simp [OperandsIllegal])
  case h_4 hk | h_5 hk =>
    exact reads_format_ok .I (opcode_eq hu hk) (by decide) .rfl (by simp [OperandsIllegal])
  case h_6 => exact reads_unassigned fun f hf => by grind [assigned_bounds hf]

theorem reads_decodeSha (hu : fUnit w = 3) : Reads (decodeSha w) ↔ ¬ Illegal w := by
  unfold decodeSha
  split
  case h_1 hk | h_2 hk | h_4 hk =>
    exact reads_format_ok .N (opcode_eq hu hk) (by decide) .rfl (by simp [OperandsIllegal])
  case h_3 hk =>
    exact reads_format .I (opcode_eq hu hk) (by decide) .rfl (by simp [OperandsIllegal])
  case h_5 hk =>
    exact reads_format_ok .I (opcode_eq hu hk) (by decide) .rfl (by simp [OperandsIllegal])
  case h_6 => exact reads_unassigned fun f hf => by grind [assigned_bounds hf]

theorem reads_decodeKs (hu : fUnit w = 4) : Reads (decodeKs w) ↔ ¬ Illegal w := by
  unfold decodeKs
  split
  case h_1 hk =>
    exact reads_format_ok .N (opcode_eq hu hk) (by decide) .rfl (by simp [OperandsIllegal])
  case h_2 hk =>
    exact reads_format_ok .I (opcode_eq hu hk) (by decide) .rfl (by simp [OperandsIllegal])
  case h_3 hk =>
    exact reads_format .I (opcode_eq hu hk) (by decide) .rfl (by simp [OperandsIllegal])
  case h_4 => exact reads_unassigned fun f hf => by grind [assigned_bounds hf]

theorem reads_decodeNt (hu : fUnit w = 5) : Reads (decodeNt w) ↔ ¬ Illegal w := by
  unfold decodeNt
  split
  case h_1 hk | h_7 hk | h_8 hk | h_9 hk =>
    exact reads_format_ok .RI (opcode_eq hu hk) (by decide) .rfl (by simp [OperandsIllegal])
  case h_2 hk =>
    exact reads_format_ok .R (opcode_eq hu hk) (by decide) .rfl (by simp [OperandsIllegal])
  case h_3 hk =>
    exact reads_format .R5 (opcode_eq hu hk) (by decide) .rfl (by simp [OperandsIllegal])
  case h_4 hk | h_11 hk =>
    exact reads_format_ok .R3 (opcode_eq hu hk) (by decide) .rfl (by simp [OperandsIllegal])
  case h_5 hk =>
    refine reads_format .RI (opcode_eq hu hk) (by decide) .rfl ?_
    simp [OperandsIllegal, Nat.one_le_iff_ne_zero]
  case h_6 hk =>
    exact reads_format_ok .R4 (opcode_eq hu hk) (by decide) .rfl (by simp [OperandsIllegal])
  case h_10 hk =>
    rw [reads_ite, not_illegal_iff .RRI (opcode_eq hu hk) (by decide)]
    simp [OperandsIllegal, Format.unusedZero]
  case h_12 => exact reads_unassigned fun f hf => by grind [assigned_bounds hf]

theorem reads_decode : Reads (decode w) ↔ ¬ Illegal w := by
  unfold decode
  split
  · next hu => exact reads_decodeSys hu
  · next hu => exact reads_decodeLfsr hu
  · next hu => exact reads_decodeSc hu
  · next hu => exact reads_decodeSha hu
  · next hu => exact reads_decodeKs hu
  · next hu => exact reads_decodeNt hu
  · exact reads_unassigned fun f hf => by grind [assigned_bounds hf]

end

/-! ## What an illegal word does -/

/-- A step that takes an illegal word answers as an illegal word. -/
theorem step_of_decode_error {s : State} {word : Word32} {payload : List Byte} {rest : List Event}
    {e : Reject} (hport : s.port = .command word payload :: rest) (hdec : decode word = .error e) :
    step s = illegalWord (s.take payload rest) := by
  rw [step, hport]
  simp only [hdec]

theorem illegalWord_take (s : State) (rest : List Event) :
    illegalWord (s.take [] rest) = illegalNext { s with port := rest } :=
  rfl

/-- Settles O4: the decoder checks the unused bits of the word's format, then its operands. -/
theorem illegalWords : Obligations.IllegalWords := by
  intro w
  have hiff : Illegal w ↔ ∃ e, decode w = .error e := by
    rw [← not_reads_iff, reads_decode, not_not]
  refine ⟨hiff, fun hill => ?_⟩
  obtain ⟨e, hdec⟩ := hiff.mp hill
  refine ⟨by simp [plenOfWord, hdec], fun s rest hport => ?_⟩
  rw [step_of_decode_error hport hdec, illegalWord_take]

end Sys2Proof.Encoding
end

section
/-! Proofs of the family 40_lfsr: the shift of one register (spec/40_lfsr.md R105) and the commands that
report one of its bits (R104). -/

namespace Sys2Proof.ShiftRegisters

open Sys2Proof.Machine Sys2Proof.Claims

/-! ## How a command without a payload ends (20_memory.md R59, 30_encoding.md R84) -/

theorem transact_of_no_payload {s : State} (h : s.pay = []) (body : Answer) : transact 0 s body = body :=
  transact_of_length (List.length_eq_zero_iff.mpr h) body

theorem complete_bit (b : Bool) (s : State) :
    complete b [] s = .next (ended s 0#7 (bitStatus b) []) := by
  rw [complete, State.finish, List.length_nil, statusWord_bit]
  rfl

theorem complete_eq_okNext (s : State) : complete false [] s = okNext s := complete_bit false s

/-! ## The datapath as the statements describe it (40_lfsr.md R104, R105) -/

theorem fb_eq_tapXor (x : Lfsr) : x.fb = tapXor x := x.fb_eq

theorem pushed_shifted (x : Lfsr) (b : Bool) : Pushed x b (x.shifted b) :=
  ⟨rfl, rfl, rfl, rfl, fun _ hj => x.shifted_getLsbD b hj⟩

/-! ## The shift commands (40_lfsr.md R106, R107) -/

theorem exec_lfsrShifto {s : State} (h : s.pay = []) (r : LfsrSel) (b : Bool) :
    exec (.lfsrShifto r b) s = okNext (s.disturb r ((s.lfsr.get r).shifted b)) :=
  (transact_of_no_payload h _).trans (complete_eq_okNext _)

/-- `LFSR.SHIFT` is `LFSR.SHIFTO` with the feedback as the override. -/
theorem exec_lfsrShift (r : LfsrSel) (s : State) :
    exec (.lfsrShift r) s = exec (.lfsrShifto r (tapXor (s.lfsr.get r))) s := by
  rw [← fb_eq_tapXor]
  rfl

/-- Settles O27: both commands store `shifted`, which pushes its bit; the feedback is the XOR of the taps. -/
theorem lfsrShiftMovesBits : Obligations.LfsrShiftMovesBits := by
  have hshifto : ∀ (r : LfsrSel) (b : Bool) (s : State), s.pay = [] → ∃ y, Pushed (s.lfsr.get r) b y
      ∧ exec (.lfsrShifto r b) s = okNext { s with lfsr := s.lfsr.set r y, scReady := false } :=
    fun r b s h => ⟨_, pushed_shifted _ b, exec_lfsrShifto h r b⟩
  refine ⟨fun r s h => ?_, hshifto⟩
  rw [exec_lfsrShift]
  exact hshifto r _ s h

/-! ## The reporting commands (40_lfsr.md R108 to R110) -/

theorem exec_lfsrFb {s : State} (h : s.pay = []) (r : LfsrSel) :
    exec (.lfsrFb r) s = .next (ended s 0#7 (bitStatus (s.lfsr.get r).fb) []) :=
  (transact_of_no_payload h _).trans (complete_bit _ s)

theorem exec_lfsrOut {s : State} (h : s.pay = []) (r : LfsrSel) :
    exec (.lfsrOut r) s = .next (ended s 0#7 (bitStatus (s.lfsr.get r).outbit) []) :=
  (transact_of_no_payload h _).trans (complete_bit _ s)

theorem exec_lfsrClk {s : State} (h : s.pay = []) (r : LfsrSel) :
    exec (.lfsrClk r) s = .next (ended s 0#7 (bitStatus (s.lfsr.get r).clkbit) []) :=
  (transact_of_no_payload h _).trans (complete_bit _ s)

/-- Settles O28: each command completes with its bit; `outbit` and `clkbit` are the bits at their indices. -/
theorem lfsrBitsAreReported : Obligations.LfsrBitsAreReported := by
  intro r s h
  rw [← fb_eq_tapXor]
  exact ⟨exec_lfsrFb h r, exec_lfsrOut h r, exec_lfsrClk h r⟩

end Sys2Proof.ShiftRegisters
end

section
/-! Proofs of the family 41_stream_cipher: the majority-clocked step (spec/41_stream_cipher.md R123, R124)
and `SC.RUN` as its own inverse (R126, R127). -/

namespace Sys2Proof.StreamCipher

open Sys2Proof.Machine Sys2Proof.Claims Sys2Proof.ShiftRegisters

/-! ## The majority-clocked step (41_stream_cipher.md R123, R124, R128) -/

theorem majority_eq_maj (ls : Lfsrs) : majority ls.l0.clkbit ls.l1.clkbit ls.l2.clkbit = maj ls :=
  majority_eq _ _ _

theorem clockIf_of_eq {m : Bool} {x : Lfsr} (h : x.clkbit = m) : x.clockIf m = x.shifted x.fb := if_pos h

theorem clockIf_of_ne {m : Bool} {x : Lfsr} (h : x.clkbit ≠ m) : x.clockIf m = x := if_neg h

theorem clocked_clock (ls : Lfsrs) : Clocked ls ls.clock := by
  intro r
  rw [clock_get, majority_eq_maj]
  constructor
  · intro (h : (ls.get r).clkbit = maj ls)
    rw [clockIf_of_eq h, fb_eq_tapXor]
    exact pushed_shifted _ _
  · exact clockIf_of_ne

theorem exec_scStep {s : State} (hp : s.pay = []) (hr : s.scReady = true) : exec .scStep s
    = .next (ended { s with lfsr := s.lfsr.clock } 0#7 (bitStatus s.lfsr.clock.outXor) []) := by
  rw [← complete_bit]
  exact (transact_of_no_payload hp _).trans (if_pos hr)

/-- Settles O32: `clock` reads the clocking bits before it shifts, and the output bits are those of the
registers it answers. -/
theorem scStepIsMajorityClocked : Obligations.ScStepIsMajorityClocked :=
  fun s hp hr => ⟨s.lfsr.clock, clocked_clock _, exec_scStep hp hr⟩

/-! ## `SC.RUN` byte by byte (41_stream_cipher.md R126) -/

theorem complete_bytes {r : List Byte} (h : r.length < 2 ^ 16) (s : State) :
    complete false r s = okBytes s r := by
  rw [complete, State.finish, statusWord_ok h]
  rfl

/-- The keystream bytes of `SC.RUN n`. -/
def runBytes (n : Nat) (key : Word64) (ls : Lfsrs) : List Byte :=
  bytesMSB (keystream (8 * n) (keyload key ls)).1

@[simp] theorem runBytes_length (n : Nat) (key : Word64) (ls : Lfsrs) :
    (runBytes n key ls).length = n :=
  bytesMSB_length (keystream_length _ _)

/-- The keystream bytes depend on the key and the configuration, not on the contents of the registers. -/
theorem runBytes_congr {n : Nat} {key : Word64} {ls ls' : Lfsrs}
    (h : ∀ r, (ls.get r).clear = (ls'.get r).clear) : runBytes n key ls = runBytes n key ls' := by
  rw [runBytes, keyload_congr h, runBytes]

/-- A message XORed with keystream bytes, byte by byte. -/
def xorBytes (m z : List Byte) : List Byte := List.zipWith (fun a b => a ^^^ b) m z

theorem xorBytes_length {m z : List Byte} (h : m.length = z.length) : (xorBytes m z).length = m.length := by
  rw [xorBytes, List.length_zipWith, h, min_self]

/-- XOR with the same bytes twice changes nothing. -/
theorem xorBytes_xorBytes {m z : List Byte} (h : m.length = z.length) : xorBytes (xorBytes m z) z = m := by
  apply List.ext_getElem
  · rw [xorBytes_length (by rw [xorBytes_length h, h]), xorBytes_length h]
  · intro i _ _
    simp [xorBytes]

/-- The model XORs bit by bit, which is XOR byte by byte. -/
theorem bytesMSB_zipWith_xor {n : Nat} {bits : List Bool} (h : bits.length = 8 * n) (m : List Byte) :
    bytesMSB (List.zipWith xor (bitsMSB m) bits) = xorBytes m (bytesMSB bits) := by
  obtain ⟨z, -, rfl⟩ := exists_bitsMSB n bits h
  rw [bitsMSB_zipWith_xor, bytesMSB_bitsMSB, bytesMSB_bitsMSB, xorBytes]

theorem exec_scRun {n : BitVec 16} {s : State} (hlen : s.pay.length = n.toNat)
    (hk : s.keyValid = true) : exec (.scRun n) s
      = okBytes
          { s with lfsr := (keystream (8 * n.toNat) (keyload s.key s.lfsr)).2, scReady := true }
          (xorBytes s.pay (runBytes n.toNat s.key s.lfsr)) := by
  have hz : (xorBytes s.pay (runBytes n.toNat s.key s.lfsr)).length < 2 ^ 16 := by
    rw [xorBytes_length (by simp [hlen]), hlen]
    exact n.isLt
  rw [← complete_bytes hz, runBytes, ← bytesMSB_zipWith_xor (keystream_length _ _)]
  exact (transact_of_length hlen _).trans (if_pos hk)

/-- What `SC.RUN` answers its caller: the payload XORed with the keystream bytes, one byte for each. -/
theorem scRun_reply {n : BitVec 16} {s : State} (hlen : s.pay.length = n.toNat)
    (hk : s.keyValid = true) : ∃ t, exec (.scRun n) s = .next t
      ∧ t.reply = some
        { status := n.setWidth 32, response := xorBytes s.pay (runBytes n.toNat s.key s.lfsr) } := by
  refine ⟨_, exec_scRun hlen hk, ?_⟩
  rw [ended, xorBytes_length (by simp [hlen]), hlen, BitVec.ofNat_toNat]

/-! ## Encryption twice (41_stream_cipher.md R127) -/

/-- Settles O36: both runs XOR the payload with the same keystream bytes, so the second undoes the first. -/
theorem scRunIsAnInvolution : Obligations.ScRunIsAnInvolution := by
  intro n s s' m hm hk hk' hkey hconf
  have hsame : runBytes n.toNat s'.key s'.lfsr = runBytes n.toNat s.key s.lfsr := by
    rw [hkey]
    exact runBytes_congr hconf
  obtain ⟨t, ht, hreply⟩ := scRun_reply (s := { s with pay := m }) hm hk
  obtain ⟨t', ht', hreply'⟩ := scRun_reply (n := n)
    (s := { s' with pay := xorBytes m (runBytes n.toNat s.key s.lfsr) })
    ((xorBytes_length (by simp [hm])).trans hm) hk'
  refine ⟨t, t', _, ht, hreply, ht', ?_⟩
  rw [hreply', hsame, xorBytes_xorBytes (by simp [hm])]

end Sys2Proof.StreamCipher
end

section
/-! Proofs of the family 42_hasher: the compression function by its recurrences (spec/42_hasher.md R143,
R145) and `SHA.BLOCK` (R144). -/

namespace Sys2Proof.Hasher

open Sys2Proof.Machine Sys2Proof.Claims Sys2Proof.ShiftRegisters

/-! ## The message schedule (42_hasher.md R143) -/

theorem slice_four {bytes : List Byte} {j : Nat} (h : j + 4 ≤ bytes.length) : slice bytes j 4
    = [bytes.getD j 0#8, bytes.getD (j + 1) 0#8, bytes.getD (j + 2) 0#8, bytes.getD (j + 3) 0#8] := by
  rw [slice, List.drop_eq_getElem_cons (by omega), List.drop_eq_getElem_cons (by omega),
    List.drop_eq_getElem_cons (by omega), List.drop_eq_getElem_cons (by omega),
    List.getD_eq_getElem _ _ (by omega), List.getD_eq_getElem _ _ (by omega),
    List.getD_eq_getElem _ _ (by omega), List.getD_eq_getElem _ _ (by omega)]
  rfl

theorem be_four (b0 b1 b2 b3 : Byte) : be [b0, b1, b2, b3]
    = b0.toNat * 2 ^ 24 + b1.toNat * 2 ^ 16 + b2.toNat * 2 ^ 8 + b3.toNat := by
  simp [be_cons]
  omega

theorem schedule_block_toNat {block : List Byte} (hb : block.length = 64) {i : Nat} (hi : i < 16) :
    ((schedule block).getD i 0).toNat = be (slice block (4 * i) 4) := by
  have hlt : be (slice block (4 * i) 4) < 2 ^ 32 := be_lt_of_length (slice_length (by omega))
  rw [schedule_block block hi, BitVec.toNat_ofNat, Nat.mod_eq_of_lt hlt]

/-! ## The rounds (42_hasher.md R143, R145) -/

theorem roundF_eq_roundFn (i : Nat) (b c d : Word32) : roundF i b c d = roundFn i b c d := by
  simp only [roundF, roundFn, Nat.lt_succ_iff]

theorem roundK_eq_roundCst (i : Nat) : roundK i = roundCst i := by
  simp only [roundK, roundCst, Nat.lt_succ_iff]

theorem working_succ (ws : List Word32) (v : Accum) (i : Nat) : working ws v (i + 1)
    = { h0 := (working ws v i).h0.rotateLeft 5
          + roundFn i (working ws v i).h1 (working ws v i).h2 (working ws v i).h3
          + (working ws v i).h4 + roundCst i + ws.getD i 0
        h1 := (working ws v i).h0
        h2 := (working ws v i).h1.rotateLeft 30
        h3 := (working ws v i).h2
        h4 := (working ws v i).h3 } := by
  rw [working, hashRound, rotl_eq_rotateLeft _ 5 (by decide), rotl_eq_rotateLeft _ 30 (by decide),
    roundF_eq_roundFn, roundK_eq_roundCst]

/-- The model's compression obeys the recurrences: the words are its schedule, the five sequences the
parts of its working states. -/
theorem compresses_compress (h : Accum) {block : List Byte} (hb : block.length = 64) :
    Compresses h block (compress h block) := by
  refine ⟨fun i => (schedule block).getD i 0,
    fun i => (working (schedule block) h i).h0, fun i => (working (schedule block) h i).h1,
    fun i => (working (schedule block) h i).h2, fun i => (working (schedule block) h i).h3,
    fun i => (working (schedule block) h i).h4,
    ?_, ?_, ⟨rfl, rfl, rfl, rfl, rfl⟩, ?_, compress_eq h block⟩
  · intro i hi
    rw [schedule_block_toNat hb hi, slice_four (by omega), be_four]
  · intro i h16 h80
    rw [← rotl_eq_rotateLeft _ 1 (by decide)]
    exact schedule_rec block h16 h80
  · intro i _
    dsimp only
    rw [working_succ]
    exact ⟨rfl, rfl, rfl, rfl, rfl⟩

/-! ## The block command (42_hasher.md R144) -/

theorem add_eq_ofNat_mod (x y : Word64) : x + y = BitVec.ofNat 64 ((x.toNat + y.toNat) % 2 ^ 64) := by
  rw [← BitVec.toNat_add, BitVec.ofNat_toNat, BitVec.setWidth_eq]

theorem exec_shaBlock {s : State} (hp : s.pay.length = 64) :
    exec .shaBlock s = okNext { s with h := compress s.h s.pay, hlen := s.hlen + 64#64 } :=
  (transact_of_length hp _).trans (complete_eq_okNext _)

/-- Settles O38: the command stores the model's compression of its payload, which obeys the recurrences. -/
theorem shaBlockCompresses : Obligations.ShaBlockCompresses := by
  intro s hp
  refine ⟨compress s.h s.pay, compresses_compress s.h hp, ?_⟩
  rw [exec_shaBlock hp, add_eq_ofNat_mod]
  rfl

end Sys2Proof.Hasher
end

section
/-! Proofs of the family 44_nt_arith: the Chinese remainder command (spec/44_nt_arith.md R199, R200). -/

namespace Sys2Proof.NtArith

open Sys2Proof.Machine Sys2Proof.Claims Sys2Proof.ShiftRegisters

/-! ## How a command of the unit ends (44_nt_arith.md R191, R192) -/

theorem raise_precond (s : State) : raise .precond s = precondNext s := rfl

theorem raise_range (s : State) : raise .range s = rangeNext s := rfl

theorem fits_iff_within (cfg : Config) (v : Int) : fits cfg v = true ↔ Within cfg v := fits_iff cfg v

theorem writeBack_of_within {s : State} {v : Int} (h : Within s.cfg v) (rd : NReg) :
    writeBack [(rd, v)] s = okNext { s with n := s.n.set rd v } :=
  writeBack_of_fits (by simpa [fits_iff_within] using h)

theorem writeBack_of_not_within {s : State} {v : Int} (h : ¬ Within s.cfg v) (rd : NReg) :
    writeBack [(rd, v)] s = rangeNext s := by
  rw [← fits_iff_within, Bool.not_eq_true] at h
  exact writeBack_next.mpr (.inr ⟨⟨(rd, v), by simp, h⟩, rfl⟩)

/-! ## The operands of `NT.CRT` (44_nt_arith.md R200) -/

/-- The registers read as a list hold at each place what the register of that number holds. -/
theorem getD_toList_eq_x (s : State) {i : Nat} (h : i < 16) :
    s.n.toList.getD i 0 = s.x (nreg i) := by
  rw [List.getD_eq_getElem _ _ (by simpa using h)]
  simp [State.x, val_nreg h]

@[simp] theorem crtResidues_length (s : State) (k : Nat) : (crtResidues s k).length = k := by
  simp [crtResidues]

@[simp] theorem crtModuli_length (s : State) (k : Nat) : (crtModuli s k).length = k := by
  simp [crtModuli]

theorem crtResidues_getElem (s : State) {k i : Nat} (hk : k ≤ 8) (hi : i < (crtResidues s k).length) :
    (crtResidues s k)[i] = s.n.toList.getD i 0 := by
  rw [crtResidues_length] at hi
  rw [getD_toList_eq_x s (by omega)]
  simp [crtResidues]

theorem crtModuli_getElem (s : State) {k i : Nat} (hk : k ≤ 8) (hi : i < (crtModuli s k).length) :
    (crtModuli s k)[i] = s.n.toList.getD (8 + i) 0 := by
  rw [crtModuli_length] at hi
  rw [getD_toList_eq_x s (by omega)]
  simp [crtModuli]

theorem crtModuli_eq_map (s : State) {k : Nat} (hk : k ≤ 8) :
    crtModuli s k = (List.range k).map fun i => s.n.toList.getD (8 + i) 0 :=
  List.ext_getElem (by simp) fun i hi _ => by simp [crtModuli_getElem s hk hi]

theorem crtModuli_pos_iff (s : State) {k : Nat} (hk : k ≤ 8) :
    (∀ m ∈ crtModuli s k, 1 ≤ m) ↔ ∀ i < k, 1 ≤ s.n.toList.getD (8 + i) 0 := by
  simp [crtModuli_eq_map s hk]

theorem pairwiseCoprime_crtModuli_iff (s : State) {k : Nat} (hk : k ≤ 8) :
    PairwiseCoprime (crtModuli s k) ↔ ∀ i < k, ∀ j < k, i ≠ j →
      Int.gcd (s.n.toList.getD (8 + i) 0) (s.n.toList.getD (8 + j) 0) = 1 := by
  constructor
  · intro h i hi j hj hne
    have := h i j (by simpa using hi) (by simpa using hj) hne
    rwa [crtModuli_getElem s hk, crtModuli_getElem s hk] at this
  · intro h i j hi hj hne
    rw [crtModuli_getElem s hk, crtModuli_getElem s hk]
    exact h i (by simpa using hi) j (by simpa using hj) hne

/-! ## `NT.CRT` (44_nt_arith.md R199, R200) -/

section
variable {k : BitVec 16} {s : State} (h1 : 1 ≤ k.toNat) (h8 : k.toNat ≤ 8) (hp : s.pay = [])
include h1 h8 hp

/-- A legal count with the empty payload goes past the encoding and the transaction. -/
theorem exec_ntCrt (rd : NReg) : exec (.ntCrt rd k) s =
    if (crtModuli s k.toNat).any fun m => decide (m < 1) then raise .precond s
    else
      match crt (crtResidues s k.toNat) (crtModuli s k.toNat) with
      | none => raise .precond s
      | some v => writeBack [(rd, v)] s :=
  (if_neg (by rw [crtMax]; omega)).trans (transact_of_no_payload hp _)

/-- A residue that `crt` answers for moduli of at least 1 is written back. -/
theorem exec_ntCrt_of_some {v : Int} (hm : ∀ m ∈ crtModuli s k.toNat, 1 ≤ m)
    (hv : crt (crtResidues s k.toNat) (crtModuli s k.toNat) = some v) (rd : NReg) :
    exec (.ntCrt rd k) s = writeBack [(rd, v)] s := by
  rw [exec_ntCrt h1 h8 hp, if_neg (by simpa [List.any_eq_true] using hm), hv]

/-- Moduli below 1 end the command before `crt`; moduli that share a factor leave `crt` without answer. -/
theorem exec_ntCrt_precond
    (h : ¬ ((∀ m ∈ crtModuli s k.toNat, 1 ≤ m) ∧ PairwiseCoprime (crtModuli s k.toNat))) (rd : NReg) :
    exec (.ntCrt rd k) s = precondNext s := by
  rw [exec_ntCrt h1 h8 hp, ← raise_precond]
  by_cases hm : ∀ m ∈ crtModuli s k.toNat, 1 ≤ m
  · have hc : ¬ PairwiseCoprime (crtModuli s k.toNat) := fun hc => h ⟨hm, hc⟩
    rw [crt_none (by simp) hm hc, ite_self]
  · exact if_pos (by simpa [List.any_eq_true] using hm)

end

/-- Settles O52: on pairwise coprime moduli `crt` answers the residue `crt_some` describes, which is written
back; on others the command ends before or without an answer of `crt`. -/
theorem ntCrtSolvesCongruences : Obligations.NtCrtSolvesCongruences := by
  refine ⟨fun rd k s h1 h8 hp => ?_, ntCrt_sane⟩
  dsimp only
  rw [← crtModuli_pos_iff s h8, ← pairwiseCoprime_crtModuli_iff s h8, ← crtModuli_eq_map s h8]
  refine ⟨fun ⟨hm, hc⟩ => ?_, fun hbad => exec_ntCrt_precond h1 h8 hp hbad rd⟩
  obtain ⟨v, hv, h0, hlt, hcong⟩ := crt_some (rs := crtResidues s k.toNat) (by simp) hm hc
  have hexec := exec_ntCrt_of_some h1 h8 hp hm hv rd
  refine ⟨v, h0, hlt, fun i hi => ?_, fun hw => hexec.trans (writeBack_of_within hw rd),
    fun hw => hexec.trans (writeBack_of_not_within hw rd)⟩
  have hcong := hcong i (by simpa using hi)
  rwa [crtModuli_getElem s h8, crtResidues_getElem s h8] at hcong

end Sys2Proof.NtArith
end

section
/-! Proofs of the family 60_exceptions: what a failed command leaves of the state (spec/60_exceptions.md
R265) and the complete list of E_STATE (R263). -/

namespace Sys2Proof.Exceptions

open Sys2Proof.Machine Sys2Proof.Claims

/-! ## The end of a command as its error sees it (60_exceptions.md R263, R265) -/

/-- The five commands of R263, each with the flag that is 0 when its unit is in the wrong phase. -/
inductive WrongPhase (s : State) : Instr → Prop
  | scInit (h : s.keyValid = false) : WrongPhase s .scInit
  | scRun (n : BitVec 16) (h : s.keyValid = false) : WrongPhase s (.scRun n)
  | scStep (h : s.scReady = false) : WrongPhase s .scStep
  | scGen (n : BitVec 16) (h : s.scReady = false) : WrongPhase s (.scGen n)
  | ksRdrk (k : Fin 20) (h : s.rkValid = false) : WrongPhase s (.ksRdrk k)

/-- The command succeeded, or it wrote nothing: it used up answers of the random source if it is one that
draws, and ended with a code, which is that of E_STATE in the wrong phase alone. -/
def SucceedsOrFails (i : Instr) (s t : State) : Prop :=
  t.lastErr = 0#7
  ∨ ∃ (k : Nat) (c : BitVec 7), t = ({ s with src := s.src.after k } : State).finish c false []
      ∧ (i.draws = false → k = 0) ∧ (c = 2#7 → WrongPhase s i)

section
variable {i : Instr} {s t u : State}

theorem SucceedsOrFails.of_success {b : Bool} {r : List Byte} (h : t = u.finish 0#7 b r) :
    SucceedsOrFails i s t :=
  .inl (by rw [h, State.finish_lastErr])

theorem SucceedsOrFails.of_error {c : BitVec 7} (hc : c ≠ 2#7) (h : t = s.finish c false []) :
    SucceedsOrFails i s t :=
  .inr ⟨0, c, by simpa using h, fun _ => rfl, fun h2 => absurd h2 hc⟩

theorem SucceedsOrFails.of_wrongPhase (hi : WrongPhase s i) (h : t = s.finish 2#7 false []) :
    SucceedsOrFails i s t :=
  .inr ⟨0, 2#7, by simpa using h, fun _ => rfl, fun _ => hi⟩

/-- None of the NT unit's errors is E_STATE. -/
theorem SucceedsOrFails.of_ntEnd (h : NtEnd s t) : SucceedsOrFails i s t := by
  obtain ⟨d, -, h⟩ | ⟨c, hc, h⟩ := h
  · exact .of_success h
  · exact .of_error (by rintro rfl; simp at hc) h

theorem SucceedsOrFails.of_testEnd (h : TestEnd s t) : SucceedsOrFails i s t := by
  obtain ⟨b, k, h⟩ | h := h
  · exact .of_success h
  · exact .of_error (by decide) h

theorem SucceedsOrFails.of_genEnd (hi : i.draws = true) (h : GenEnd s t) : SucceedsOrFails i s t := by
  obtain ⟨k, ⟨d, -, h⟩ | ⟨c, hc, h⟩⟩ := h
  · exact .of_success h
  · exact .inr ⟨k, c, h, by simp [hi], by rintro rfl; simp at hc⟩

end

/-- Every command succeeds or fails as R263 and R265 say. -/
theorem exec_succeedsOrFails {i : Instr} {s t : State} (h : exec i s = .next t) :
    SucceedsOrFails i s t := by
  cases i with
  | sysNop => exact .of_success (execSysNop_cases h).2
  | sysReset => exact .of_success (execSysReset_cases h).2
  | sysRdreg num => exact .of_success (execSysRdreg_cases h).2
  | sysWrreg num =>
    obtain ⟨-, -, ⟨-, -, ht⟩ | ⟨-, ht⟩⟩ | ⟨-, -, ht⟩ := execSysWrreg_cases h
    · exact .of_error (by decide) ht
    · exact .of_success ht
    · exact .of_error (by decide) ht
  | lfsrConf r =>
    obtain ⟨-, ⟨-, ht⟩ | ⟨-, ht⟩⟩ := execLfsrConf_cases h
    · exact .of_error (by decide) ht
    · exact .of_success ht
  | lfsrLoad r =>
    obtain ⟨-, ⟨-, ht⟩ | ⟨-, ht⟩⟩ := execLfsrLoad_cases h
    · exact .of_error (by decide) ht
    · exact .of_success ht
  | lfsrRead r => exact .of_success (execLfsrRead_cases h).2
  | lfsrShift r => exact .of_success (execLfsrShift_cases h).2
  | lfsrShifto r b => exact .of_success (execLfsrShifto_cases h).2
  | lfsrFb r => exact .of_success (execLfsrFb_cases h).2
  | lfsrOut r => exact .of_success (execLfsrOut_cases h).2
  | lfsrClk r => exact .of_success (execLfsrClk_cases h).2
  | scSetkey => exact .of_success (execScSetkey_cases h).2
  | scInit =>
    obtain ⟨-, ⟨-, ht⟩ | ⟨hk, ht⟩⟩ := execScInit_cases h
    · exact .of_success ht
    · exact .of_wrongPhase (.scInit hk) ht
  | scStep =>
    obtain ⟨-, ⟨-, ht⟩ | ⟨hr, ht⟩⟩ := execScStep_cases h
    · exact .of_success ht
    · exact .of_wrongPhase (.scStep hr) ht
  | scGen n =>
    obtain ⟨-, ⟨-, ht⟩ | ⟨hr, ht⟩⟩ := execScGen_cases h
    · exact .of_success ht
    · exact .of_wrongPhase (.scGen n hr) ht
  | scRun n =>
    obtain ⟨-, ⟨-, ht⟩ | ⟨hk, ht⟩⟩ := execScRun_cases h
    · exact .of_success ht
    · exact .of_wrongPhase (.scRun n hk) ht
  | shaInit => exact .of_success (execShaInit_cases h).2
  | shaBlock => exact .of_success (execShaBlock_cases h).2
  | shaFinal n =>
    obtain ⟨-, h', ht⟩ := execShaFinal_cases h
    exact .of_success ht
  | shaDigest => exact .of_success (execShaDigest_cases h).2
  | shaHash n => exact .of_success (execShaHash_cases h).2
  | ksSettweak => exact .of_success (execKsSettweak_cases h).2
  | ksSched bs =>
    obtain ⟨-, ⟨-, ht⟩ | ⟨w, -, ht⟩⟩ := execKsSched_cases h
    · exact .of_error (by decide) ht
    · exact .of_success ht
  | ksRdrk k =>
    obtain ⟨-, ⟨-, ht⟩ | ⟨hr, ht⟩⟩ := execKsRdrk_cases h
    · exact .of_success ht
    · exact .of_wrongPhase (.ksRdrk k hr) ht
  | ntLd rd n => exact .of_ntEnd (execNtLd_cases h).2
  | ntSt rs =>
    obtain ⟨-, ⟨-, ht⟩ | ⟨-, ht⟩⟩ := execNtSt_cases h
    · exact .of_error (by decide) ht
    · exact .of_success ht
  | ntXgcd rg rx ry ra rb => exact .of_ntEnd (execNtXgcd_cases h).2
  | ntModinv rd rn rm => exact .of_ntEnd (execNtModinv_cases h).2
  | ntCrt rd k => exact .of_ntEnd (execNtCrt_cases h).2
  | ntModpow rd rb re rm => exact .of_ntEnd (execNtModpow_cases h).2
  | ntFermat rn rounds => exact .of_testEnd (execNtFermat_cases h).2
  | ntMr rn rounds => exact .of_testEnd (execNtMr_cases h).2
  | ntGenprime rd bits => exact .of_genEnd rfl (execNtGenprime_cases h).2
  | ntGensafe rp rq bits => exact .of_genEnd rfl (execNtGensafe_cases h).2
  | ntFindgen rd rp rq => exact .of_genEnd rfl (execNtFindgen_cases h).2

/-! ## What a failed command changes (60_exceptions.md R265) -/

/-- The end of a command with an error code writes LASTERR and the status word of R265. -/
theorem finish_error {c : BitVec 7} (hc : c ≠ 0#7) (s : State) :
    s.finish c false [] = ended s c (0x80000000#32 ||| (c.setWidth 32 <<< 24)) [] := by
  rw [State.finish, List.length_nil, statusWord_error c hc]
  rfl

/-- Settles O13: a failed command ends the old state, but for the answers it drew, with its error code. -/
theorem failedCommandChangesOnlyLasterr : Obligations.FailedCommandChangesOnlyLasterr := by
  intro i s t h hne
  obtain hok | ⟨k, c, rfl, hk, -⟩ := exec_succeedsOrFails h
  · exact absurd hok hne
  · rw [State.finish_lastErr] at hne ⊢
    refine ⟨finish_error hne _, fun hi => ?_⟩
    rw [State.finish_src, hk hi, Source.after_zero]

/-! ## The list of E_STATE (60_exceptions.md R263) -/

/-- A command guarded by a flag that is 0 ends with E_STATE, whatever stands behind the guard. -/
theorem transact_guard_state {plen : Nat} {s : State} {flag : Bool} {body : Answer}
    (hlen : s.pay.length = plen) (hflag : flag = false) :
    transact plen s (if flag then body else raise .state s) = stateNext s := by
  rw [transact_of_length hlen, hflag]
  rfl

/-- Settles O19: each of the five commands is guarded by its flag, and no other error has code 2. -/
theorem stateErrors : Obligations.StateErrors := by
  refine ⟨fun s hp hk => transact_guard_state (by simp [hp]) hk,
    fun n s hlen hk => transact_guard_state hlen hk,
    fun s hp hr => transact_guard_state (by simp [hp]) hr,
    fun n s hp hr => transact_guard_state (by simp [hp]) hr,
    fun k s hp hr => transact_guard_state (by simp [hp]) hr, fun i s t h h2 => ?_⟩
  obtain hok | ⟨k, c, rfl, -, hphase⟩ := exec_succeedsOrFails h
  · simp [h2] at hok
  · cases hphase h2 with
    | scInit hk => exact .inl ⟨rfl, hk⟩
    | scRun n hk => exact .inr (.inl ⟨n, rfl, hk⟩)
    | scStep hr => exact .inr (.inr (.inl ⟨rfl, hr⟩))
    | scGen n hr => exact .inr (.inr (.inr (.inl ⟨n, rfl, hr⟩)))
    | ksRdrk k hr => exact .inr (.inr (.inr (.inr ⟨k, rfl, hr⟩)))

end Sys2Proof.Exceptions
end

section
/-! Proofs that the decoder and the encoder are inverse to each other (spec/30_encoding.md R71, R72, R76,
R77): the formats of words, read in both directions. -/

namespace Sys2Proof.Encoding

open Sys2Proof.Laws

/-! ## From the command to its word and back -/

section
variable {w : Word32}

theorem fmtN_of_format {op : Nat} (h : Fields.N w op) (i : Instr) : fmtN w i = .ok i :=
  zeroBits_ok.mpr ⟨h.2, rfl⟩

theorem fmtR_of_format {op : Nat} {a : NReg} (h : Fields.R w op a.val) (mk : NReg → Instr) :
    fmtR w mk = .ok (mk a) := by
  obtain ⟨-, hr1, hzero⟩ := h
  exact zeroBits_ok.mpr ⟨hzero, by rw [hr1, nreg_val]⟩

theorem fmtLfsr_of_format {op : Nat} {r : LfsrSel} (h : Fields.R w op r.code) (mk : LfsrSel → Instr) :
    fmtLfsr w mk = .ok (mk r) := by
  obtain ⟨-, hr1, hzero⟩ := h
  exact fmtLfsr_ok.mpr ⟨hzero, r, hr1, rfl⟩

theorem fmtI_of_format {op imm : Nat} (h : Fields.I w op imm) (r : Except Reject Instr) : fmtI w r = r :=
  if_pos h.2.1

theorem fmtRI_of_zero (h : field 19 16 w = 0) (r : Except Reject Instr) : fmtRI w r = r := if_pos h

theorem imm16_of_fImm {n : BitVec 16} (h : fImm w = n.toNat) : imm16 w = n := by
  rw [imm16, h, BitVec.ofNat_toNat, BitVec.setWidth_eq]

/-- The immediate of a word in format I that names a register. -/
theorem withReg_of_format {op : Nat} {r : Reg} (h : Fields.I w op r.number)
    (mk : Reg → Except Reject Instr) : withReg w mk = mk r := by
  obtain ⟨-, -, himm⟩ := h
  rw [withReg, himm, Reg.ofNumber_number]

theorem withLfsr_of_code {r : LfsrSel} (h : fR1 w = r.code) (mk : LfsrSel → Except Reject Instr) :
    withLfsr w mk = mk r := by
  rw [withLfsr, h, lfsrSel_code]

end

/-- The word of every command has the fields of the command's format. -/
theorem encode_fields : ∀ i : Instr, Fields.Statement i
  | .sysNop => Fields.sysNop
  | .sysReset => Fields.sysReset
  | .sysRdreg num => Fields.sysRdreg num
  | .sysWrreg num => Fields.sysWrreg num
  | .lfsrConf r => Fields.lfsrConf r
  | .lfsrLoad r => Fields.lfsrLoad r
  | .lfsrRead r => Fields.lfsrRead r
  | .lfsrShift r => Fields.lfsrShift r
  | .lfsrShifto r b => Fields.lfsrShifto r b
  | .lfsrFb r => Fields.lfsrFb r
  | .lfsrOut r => Fields.lfsrOut r
  | .lfsrClk r => Fields.lfsrClk r
  | .scSetkey => Fields.scSetkey
  | .scInit => Fields.scInit
  | .scStep => Fields.scStep
  | .scGen n => Fields.scGen n
  | .scRun n => Fields.scRun n
  | .shaInit => Fields.shaInit
  | .shaBlock => Fields.shaBlock
  | .shaFinal n => Fields.shaFinal n
  | .shaDigest => Fields.shaDigest
  | .shaHash n => Fields.shaHash n
  | .ksSettweak => Fields.ksSettweak
  | .ksSched bs => Fields.ksSched bs
  | .ksRdrk k => Fields.ksRdrk k
  | .ntLd rd n => Fields.ntLd rd n
  | .ntSt rs => Fields.ntSt rs
  | .ntXgcd rg rx ry ra rb => Fields.ntXgcd rg rx ry ra rb
  | .ntModinv rd rn rm => Fields.ntModinv rd rn rm
  | .ntCrt rd k => Fields.ntCrt rd k
  | .ntModpow rd rb re rm => Fields.ntModpow rd rb re rm
  | .ntFermat rn rounds => Fields.ntFermat rn rounds
  | .ntMr rn rounds => Fields.ntMr rn rounds
  | .ntGenprime rd bits => Fields.ntGenprime rd bits
  | .ntGensafe rp rq bits => Fields.ntGensafe rp rq bits
  | .ntFindgen rd rp rq => Fields.ntFindgen rd rp rq

/-- Settles O1: the word of a command has the command's format, and under each format the decoder reads
the operands the encoder wrote. -/
theorem decodeOfEncode : Obligations.DecodeOfEncode := by
  intro i hwf
  have h := encode_fields i
  cases i with
  | sysNop | sysReset | scSetkey | scInit | scStep | shaInit | shaBlock | shaDigest | ksSettweak =>
    replace h : Fields.N _ _ := h
    simp [decode, decodeSys, decodeSc, decodeSha, decodeKs, fUnit_eq, fFunc_eq, h.1, fmtN_of_format h]
  | sysRdreg num =>
    replace h : Fields.I _ _ num.number := h
    simp [decode, decodeSys, fUnit_eq, fFunc_eq, h.1, fmtI_of_format h, withReg_of_format h]
  | sysWrreg num =>
    replace h : Fields.I _ _ num.number := h
    replace hwf : num.writable = true := num.rw_eq_writable ▸ hwf
    simp [decode, decodeSys, fUnit_eq, fFunc_eq, h.1, fmtI_of_format h, withReg_of_format h, hwf]
  | lfsrConf r | lfsrLoad r | lfsrRead r | lfsrShift r | lfsrFb r | lfsrOut r | lfsrClk r =>
    replace h : Fields.R _ _ r.code := h
    simp [decode, decodeLfsr, fUnit_eq, fFunc_eq, h.1, fmtLfsr_of_format h]
  | lfsrShifto r b =>
    obtain ⟨hop, hr, hzero, himm⟩ : Fields.RI _ _ r.code b.toNat := h
    simp [decode, decodeLfsr, fUnit_eq, fFunc_eq, hop, fmtRI_of_zero hzero, withLfsr_of_code hr, himm,
      b.toNat_lt]
  | scGen n | scRun n | shaHash n | ksSched n =>
    replace h : Fields.I _ _ n.toNat := h
    simp [decode, decodeSc, decodeSha, decodeKs, fUnit_eq, fFunc_eq, h.1, fmtI_of_format h,
      imm16_of_fImm h.2.2]
  | shaFinal k | ksRdrk k =>
    replace h : Fields.I _ _ k.val := h
    simp [decode, decodeSha, decodeKs, fUnit_eq, fFunc_eq, h.1, fmtI_of_format h, h.2.2]
  | ntLd r n | ntFermat r n | ntMr r n | ntGenprime r n =>
    obtain ⟨hop, hr, hzero, himm⟩ : Fields.RI _ _ r.val n.toNat := h
    simp [decode, decodeNt, fUnit_eq, fFunc_eq, hop, fmtRI_of_zero hzero, hr, imm16_of_fImm himm]
  | ntCrt r k =>
    obtain ⟨hop, hr, hzero, himm⟩ : Fields.RI _ _ r.val k.toNat := h
    replace hwf : 1 ≤ k.toNat ∧ k.toNat ≤ 8 := by simpa [Instr.wf] using hwf
    simp [decode, decodeNt, fUnit_eq, fFunc_eq, hop, fmtRI_of_zero hzero, hr, himm, imm16_of_fImm himm, hwf]
  | ntSt rs =>
    replace h : Fields.R _ _ rs.val := h
    simp [decode, decodeNt, fUnit_eq, fFunc_eq, h.1, fmtR_of_format h]
  | ntXgcd rg rx ry ra rb =>
    obtain ⟨hop, h1, h2, h3, h4, h5, hzero⟩ : Fields.R5 _ _ rg.val rx.val ry.val ra.val rb.val := h
    replace hwf : (rg ≠ rx ∧ rg ≠ ry) ∧ rx ≠ ry := by simpa [Instr.wf] using hwf
    simp [decode, decodeNt, fUnit_eq, fFunc_eq, hop, zeroBits, hzero, h1, h2, h3, h4, h5, ← Fin.ext_iff, hwf]
  | ntModinv rd rn rm | ntFindgen rd rn rm =>
    obtain ⟨hop, h1, h2, h3, hzero⟩ : Fields.R3 _ _ rd.val rn.val rm.val := h
    simp [decode, decodeNt, fUnit_eq, fFunc_eq, hop, zeroBits, hzero, h1, h2, h3]
  | ntModpow rd rb re rm =>
    obtain ⟨hop, h1, h2, h3, h4, hzero⟩ : Fields.R4 _ _ rd.val rb.val re.val rm.val := h
    simp [decode, decodeNt, fUnit_eq, fFunc_eq, hop, zeroBits, hzero, h1, h2, h3, h4]
  | ntGensafe rp rq bits =>
    obtain ⟨hop, h1, h2, himm⟩ : Fields.RRI _ _ rp.val rq.val bits.toNat := h
    replace hwf : rp ≠ rq := by simpa [Instr.wf] using hwf
    simp [decode, decodeNt, fUnit_eq, fFunc_eq, hop, h1, h2, imm16_of_fImm himm, ← Fin.ext_iff, hwf]

/-! ## From the word to its command and back -/

section
variable {w : Word32} {op : Nat} (hop : field 31 24 w = op)
include hop

theorem mkWord_formatRRI : mkWord op (fR1 w) (fR2 w) (fImm w) = w := hop ▸ word_eq w

theorem mkWord_formatRI (h : field 19 16 w = 0) : mkWord op (fR1 w) 0 (fImm w) = w := by
  have := mkWord_formatRRI hop
  rwa [show fR2 w = 0 from h] at this

theorem mkWord_formatI (h : field 23 16 w = 0) : mkWord op 0 0 (fImm w) = w := by
  obtain ⟨-, -, hhigh, hr2, -⟩ := zeros_eq w
  have := mkWord_formatRI hop (by omega)
  rwa [show fR1 w = 0 by omega] at this

theorem mkWord_formatR (h : field 19 0 w = 0) : mkWord op (fR1 w) 0 0 = w := by
  obtain ⟨-, hlow, -, hr2, -⟩ := zeros_eq w
  have := mkWord_formatRI hop (by omega)
  rwa [show fImm w = 0 by omega] at this

theorem mkWord_formatN (h : field 23 0 w = 0) : mkWord op 0 0 0 = w := by
  obtain ⟨hlow, -, hhigh, -⟩ := zeros_eq w
  have := mkWord_formatI hop (by omega)
  rwa [show fImm w = 0 by omega] at this

theorem mkWord_formatR5 (h : field 3 0 w = 0) :
    mkWord op (fR1 w) (fR2 w) (lowRegs (fR3 w) (fR4 w) (fR5 w)) = w := by
  have := mkWord_formatRRI hop
  rwa [fImm_eq, h, Nat.add_zero] at this

theorem mkWord_formatR4 (h : field 7 0 w = 0) :
    mkWord op (fR1 w) (fR2 w) (lowRegs (fR3 w) (fR4 w) 0) = w := by
  obtain ⟨-, -, -, -, -, hlow⟩ := zeros_eq w
  have := mkWord_formatR5 hop (by omega)
  rwa [show fR5 w = 0 by omega] at this

theorem mkWord_formatR3 (h : field 11 0 w = 0) :
    mkWord op (fR1 w) (fR2 w) (lowRegs (fR3 w) 0 0) = w := by
  obtain ⟨-, -, -, -, hmid, hlow⟩ := zeros_eq w
  have := mkWord_formatR4 hop (by omega)
  rwa [show fR4 w = 0 by omega] at this

end

theorem selector_lt (w : Word32) : fR1 w < 16 ∧ fR2 w < 16 ∧ fR3 w < 16 ∧ fR4 w < 16 ∧ fR5 w < 16 :=
  ⟨field_lt 23 20 w, field_lt 19 16 w, field_lt 15 12 w, field_lt 11 8 w, field_lt 7 4 w⟩

/-- A command that was read from a word is legal and has this word. -/
def IsCommandOf (w : Word32) (i : Instr) : Prop := i.wf = true ∧ encode i = w

section
variable {w : Word32} {i : Instr}

theorem isCommandOf_decodeSys (hu : fUnit w = 0) (h : decodeSys w = .ok i) : IsCommandOf w i := by
  unfold decodeSys at h
  split at h
  case h_1 hk | h_2 hk =>
    obtain ⟨hzero, ⟨⟩⟩ := zeroBits_ok.mp h
    exact ⟨rfl, mkWord_formatN (opcode_eq hu hk) hzero⟩
  case h_3 hk =>
    obtain ⟨hzero, hreg⟩ := zeroBits_ok.mp h
    obtain ⟨r, hr, ⟨⟩⟩ := withReg_ok.mp hreg
    exact ⟨rfl, by rw [encode, ← hr]; exact mkWord_formatI (opcode_eq hu hk) hzero⟩
  case h_4 hk =>
    obtain ⟨hzero, hreg⟩ := zeroBits_ok.mp h
    obtain ⟨r, hr, hrw⟩ := withReg_ok.mp hreg
    split at hrw
    · next hw =>
      cases hrw
      exact ⟨r.rw_eq_writable.trans hw, by rw [encode, ← hr]; exact mkWord_formatI (opcode_eq hu hk) hzero⟩
    · cases hrw
  case h_5 => cases h

theorem isCommandOf_decodeLfsr (hu : fUnit w = 1) (h : decodeLfsr w = .ok i) : IsCommandOf w i := by
  unfold decodeLfsr at h
  split at h
  case h_1 hk | h_2 hk | h_3 hk | h_4 hk | h_6 hk | h_7 hk | h_8 hk =>
    obtain ⟨hzero, r, hr, rfl⟩ := fmtLfsr_ok.mp h
    exact ⟨rfl, by rw [encode, ← hr]; exact mkWord_formatR (opcode_eq hu hk) hzero⟩
  case h_5 hk =>
    obtain ⟨hzero, hsel⟩ := zeroBits_ok.mp h
    obtain ⟨r, hr, hbit⟩ := withLfsr_ok.mp hsel
    split at hbit
    · next hlt =>
      cases hbit
      refine ⟨rfl, ?_⟩
      rw [encode, ← hr, show (fImm w == 1).toNat = fImm w by interval_cases fImm w <;> rfl]
      exact mkWord_formatRI (opcode_eq hu hk) hzero
    · cases hbit
  case h_9 => cases h

theorem isCommandOf_decodeSc (hu : fUnit w = 2) (h : decodeSc w = .ok i) : IsCommandOf w i := by
  unfold decodeSc at h
  split at h
  case h_1 hk | h_2 hk | h_3 hk =>
    obtain ⟨hzero, ⟨⟩⟩ := zeroBits_ok.mp h
    exact ⟨rfl, mkWord_formatN (opcode_eq hu hk) hzero⟩
  case h_4 hk | h_5 hk =>
    obtain ⟨hzero, ⟨⟩⟩ := zeroBits_ok.mp h
    exact ⟨rfl, by rw [encode, imm16_toNat]; exact mkWord_formatI (opcode_eq hu hk) hzero⟩
  case h_6 => cases h

theorem isCommandOf_decodeSha (hu : fUnit w = 3) (h : decodeSha w = .ok i) : IsCommandOf w i := by
  unfold decodeSha at h
  split at h
  case h_1 hk | h_2 hk | h_4 hk =>
    obtain ⟨hzero, ⟨⟩⟩ := zeroBits_ok.mp h
    exact ⟨rfl, mkWord_formatN (opcode_eq hu hk) hzero⟩
  case h_3 hk =>
    obtain ⟨hzero, hcount⟩ := zeroBits_ok.mp h
    split at hcount
    · cases hcount
      exact ⟨rfl, mkWord_formatI (opcode_eq hu hk) hzero⟩
    · cases hcount
  case h_5 hk =>
    obtain ⟨hzero, ⟨⟩⟩ := zeroBits_ok.mp h
    exact ⟨rfl, by rw [encode, imm16_toNat]; exact mkWord_formatI (opcode_eq hu hk) hzero⟩
  case h_6 => cases h

theorem isCommandOf_decodeKs (hu : fUnit w = 4) (h : decodeKs w = .ok i) : IsCommandOf w i := by
  unfold decodeKs at h
  split at h
  case h_1 hk =>
    obtain ⟨hzero, ⟨⟩⟩ := zeroBits_ok.mp h
    exact ⟨rfl, mkWord_formatN (opcode_eq hu hk) hzero⟩
  case h_2 hk =>
    obtain ⟨hzero, ⟨⟩⟩ := zeroBits_ok.mp h
    exact ⟨rfl, by rw [encode, imm16_toNat]; exact mkWord_formatI (opcode_eq hu hk) hzero⟩
  case h_3 hk =>
    obtain ⟨hzero, hindex⟩ := zeroBits_ok.mp h
    split at hindex
    · cases hindex
      exact ⟨rfl, mkWord_formatI (opcode_eq hu hk) hzero⟩
    · cases hindex
  case h_4 => cases h

theorem isCommandOf_decodeNt (hu : fUnit w = 5) (h : decodeNt w = .ok i) : IsCommandOf w i := by
  obtain ⟨l1, l2, l3, l4, l5⟩ := selector_lt w
  unfold decodeNt at h
  split at h
  case h_1 hk | h_7 hk | h_8 hk | h_9 hk =>
    obtain ⟨hzero, ⟨⟩⟩ := zeroBits_ok.mp h
    refine ⟨rfl, ?_⟩
    rw [encode, val_nreg l1, imm16_toNat]
    exact mkWord_formatRI (opcode_eq hu hk) hzero
  case h_2 hk =>
    obtain ⟨hzero, ⟨⟩⟩ := zeroBits_ok.mp h
    refine ⟨rfl, ?_⟩
    rw [encode, val_nreg l1]
    exact mkWord_formatR (opcode_eq hu hk) hzero
  case h_3 hk =>
    obtain ⟨hzero, hdest⟩ := zeroBits_ok.mp h
    split at hdest
    · next hne =>
      cases hdest
      refine ⟨by simp [Instr.wf, nreg_inj, l1, l2, l3, hne], ?_⟩
      rw [encode, val_nreg l1, val_nreg l2, val_nreg l3, val_nreg l4, val_nreg l5]
      exact mkWord_formatR5 (opcode_eq hu hk) hzero
    · cases hdest
  case h_4 hk | h_11 hk =>
    obtain ⟨hzero, ⟨⟩⟩ := zeroBits_ok.mp h
    refine ⟨rfl, ?_⟩
    rw [encode, val_nreg l1, val_nreg l2, val_nreg l3]
    exact mkWord_formatR3 (opcode_eq hu hk) hzero
  case h_5 hk =>
    obtain ⟨hzero, hcount⟩ := zeroBits_ok.mp h
    split at hcount
    · next hin =>
      cases hcount
      refine ⟨by simp [Instr.wf, imm16_toNat, hin], ?_⟩
      rw [encode, val_nreg l1, imm16_toNat]
      exact mkWord_formatRI (opcode_eq hu hk) hzero
    · cases hcount
  case h_6 hk =>
    obtain ⟨hzero, ⟨⟩⟩ := zeroBits_ok.mp h
    refine ⟨rfl, ?_⟩
    rw [encode, val_nreg l1, val_nreg l2, val_nreg l3, val_nreg l4]
    exact mkWord_formatR4 (opcode_eq hu hk) hzero
  case h_10 hk =>
    split at h
    · next hne =>
      cases h
      refine ⟨by simp [Instr.wf, nreg_inj, l1, l2, hne], ?_⟩
      rw [encode, val_nreg l1, val_nreg l2, imm16_toNat]
      exact mkWord_formatRRI (opcode_eq hu hk)
    · cases h
  case h_12 => cases h

end

/-- Settles O2: unit by unit, the checks the decoder made are legality, and the fields it read are all the
bits of the word. -/
theorem encodeOfDecode : Obligations.EncodeOfDecode := by
  intro w i h
  unfold decode at h
  split at h
  · next hu => exact isCommandOf_decodeSys hu h
  · next hu => exact isCommandOf_decodeLfsr hu h
  · next hu => exact isCommandOf_decodeSc hu h
  · next hu => exact isCommandOf_decodeSha hu h
  · next hu => exact isCommandOf_decodeKs hu h
  · next hu => exact isCommandOf_decodeNt hu h
  · cases h

/-- Settles O3: the decoder evaluates each of the eight words. -/
theorem tableWordsDecode : Obligations.TableWordsDecode := by
  unfold Obligations.TableWordsDecode
  decide

end Sys2Proof.Encoding
end

section
/-! Proofs about one step of the machine: what it runs, when it has none, and the reset values
(spec/00_scope.md R7; 20_memory.md R59; 60_exceptions.md R260; 10_state.md R44). -/

namespace Sys2Proof.Transactions

open Sys2Proof.Machine Sys2Proof.Claims

/-! ## What a step does with the next event -/

theorem step_of_decode {s : State} {w : Word32} {payload : List Byte} {rest : List Event} {i : Instr}
    (hport : s.port = .command w payload :: rest) (hdec : decode w = .ok i) :
    step s = exec i (s.take payload rest) := by
  rw [step, hport]
  simp only [hdec]

theorem step_of_no_event {s : State} (hport : s.port = []) : step s = .next s := by
  rw [step, hport]
  rfl

theorem step_of_hardReset {s : State} {rest : List Event} (hport : s.port = .hardReset :: rest) :
    step s = .next ({ s with port := rest } : State).resetBlock := by
  rw [step, hport]
  rfl

/-- Settles O6: taking a command is writing its payload and the rest of the port. -/
theorem stepRunsDecodedCommand : Obligations.StepRunsDecodedCommand :=
  ⟨fun _ _ _ _ _ hport hdec => step_of_decode hport hdec, fun _ hport => step_of_no_event hport⟩

/-! ## A command is its check of the payload length, and then it ends (20_memory.md R59) -/

/-- The answer is a next state. -/
def Completes (a : Answer) : Prop := ∃ t, a = .next t

section
variable {s : State}

theorem completes_complete (b : Bool) (r : List Byte) : Completes (complete b r s) := ⟨_, rfl⟩

theorem completes_raise (e : Err) : Completes (raise e s) := ⟨_, rfl⟩

theorem completes_ite {p : Prop} [Decidable p] {a b : Answer} (ha : Completes a) (hb : Completes b) :
    Completes (if p then a else b) := by
  split
  · exact ha
  · exact hb

theorem completes_writeBack (d : List (NReg × Int)) : Completes (writeBack d s) :=
  completes_ite (completes_complete _ _) (completes_raise _)

theorem completes_generated (o : Option Nat × Source) (d : Nat → List (NReg × Int)) :
    Completes (generated o d s) := by
  unfold generated
  split
  · exact completes_writeBack _
  · exact completes_raise _

end

/-- The answer is one that ends, behind the check of the payload length. -/
def Transacts (n : Nat) (s : State) (a : Answer) : Prop := ∃ body, a = transact n s body ∧ Completes body

theorem Transacts.of_completes {n : Nat} {s : State} {body : Answer} (h : Completes body) :
    Transacts n s (transact n s body) :=
  ⟨body, rfl, h⟩

theorem transacts_illegalWord (s : State) : Transacts 0 s (illegalWord s) :=
  .of_completes (completes_raise _)

/-- Every command has a payload of `PLEN` bytes and then ends, whatever the state is. -/
theorem exec_transacts (i : Instr) (s : State) : Transacts i.plen s (exec i s) := by
  cases i with
  | sysNop | sysReset | sysRdreg | lfsrRead | lfsrShift | lfsrShifto | lfsrFb | lfsrOut | lfsrClk
  | scSetkey | shaInit | shaBlock | shaFinal | shaDigest | shaHash | ksSettweak =>
    exact .of_completes (completes_complete _ _)
  | lfsrConf | lfsrLoad => exact .of_completes (completes_ite (completes_raise _) (completes_complete _ _))
  | scInit | scStep | scGen | scRun =>
    exact .of_completes (completes_ite (completes_complete _ _) (completes_raise _))
  | ntFermat | ntMr | ntSt =>
    exact .of_completes (completes_ite (completes_raise _) (completes_complete _ _))
  | sysWrreg num =>
    by_cases hw : num.writable = true
    · exact ⟨_, (if_pos hw).trans (by rw [Instr.plen, if_pos hw]),
        completes_ite (completes_raise _) (completes_complete _ _)⟩
    · rw [Instr.plen, if_neg hw, exec, execSysWrreg, if_neg hw]
      exact transacts_illegalWord s
  | ksSched bs =>
    refine .of_completes ?_
    split
    · exact completes_raise _
    · exact completes_complete _ _
  | ksRdrk k =>
    refine .of_completes (completes_ite ?_ (completes_raise _))
    rw [rkLoad_row]
    exact completes_complete _ _
  | ntLd =>
    exact .of_completes (completes_ite (completes_writeBack _)
      (completes_ite (completes_writeBack _) (completes_raise _)))
  | ntModinv =>
    exact .of_completes (completes_ite (completes_raise _)
      (completes_ite (completes_writeBack _) (completes_raise _)))
  | ntModpow =>
    exact .of_completes (completes_ite (completes_raise _)
      (completes_ite (completes_raise _) (completes_writeBack _)))
  | ntGenprime | ntFindgen =>
    exact .of_completes (completes_ite (completes_raise _)
      (completes_ite (completes_raise _) (completes_generated _ _)))
  | ntXgcd rg rx ry ra rb =>
    rw [exec, execNtXgcd]
    split
    · exact transacts_illegalWord s
    · exact .of_completes (completes_ite (completes_raise _) (completes_writeBack _))
  | ntCrt rd k =>
    rw [exec, execNtCrt]
    split
    · exact transacts_illegalWord s
    · refine .of_completes (completes_ite (completes_raise _) ?_)
      split
      · exact completes_raise _
      · exact completes_writeBack _
  | ntGensafe rp rq bits =>
    rw [exec, execNtGensafe]
    split
    · exact transacts_illegalWord s
    · exact .of_completes (completes_ite (completes_raise _)
        (completes_ite (completes_raise _) (completes_generated _ _)))

theorem plenOfWord_of_decode {w : Word32} {i : Instr} (h : decode w = .ok i) : plenOfWord w = i.plen := by
  rw [plenOfWord, h]

theorem plenOfWord_of_illegal {w : Word32} {e : Reject} (h : decode w = .error e) : plenOfWord w = 0 := by
  rw [plenOfWord, h]

/-- A step that takes a word, legal or not, is the check of its payload length and then ends. -/
theorem step_transacts {s : State} {w : Word32} {payload : List Byte} {rest : List Event}
    (hport : s.port = .command w payload :: rest) :
    Transacts (plenOfWord w) (s.take payload rest) (step s) := by
  cases hdec : decode w with
  | ok i =>
    rw [step_of_decode hport hdec, plenOfWord_of_decode hdec]
    exact exec_transacts i _
  | error e =>
    rw [Encoding.step_of_decode_error hport hdec, plenOfWord_of_illegal hdec]
    exact transacts_illegalWord _

section
variable {n : Nat} {s : State} {a : Answer} (h : Transacts n s a)
include h

theorem Transacts.refused (hlen : s.pay.length ≠ n) : a = .refused .payloadLength := by
  obtain ⟨body, rfl, -⟩ := h
  exact transact_of_ne hlen body

theorem Transacts.completes (hlen : s.pay.length = n) : Completes a := by
  obtain ⟨body, rfl, hbody⟩ := h
  rwa [transact_of_length hlen]

theorem Transacts.not_fault (f : Fault) : a ≠ .fault f := by
  intro hf
  by_cases hlen : s.pay.length = n
  · obtain ⟨t, ht⟩ := h.completes hlen
    cases ht.symm.trans hf
  · cases (h.refused hlen).symm.trans hf

end

/-- Settles O7: the check of the payload length refuses. -/
theorem illFormedTransactionRefused : Obligations.IllFormedTransactionRefused :=
  ⟨fun i s hlen => (exec_transacts i s).refused hlen,
    fun _ _ _ _ hport hlen => (step_transacts hport).refused hlen⟩

/-- Settles O8: behind the check of the payload length every command ends. -/
theorem wellFormedTransactionCompletes : Obligations.WellFormedTransactionCompletes := by
  refine ⟨fun s hwf => ?_, fun i s hlen => (exec_transacts i s).completes hlen, fun s f => ?_⟩
  · match hport : s.port with
    | [] => exact ⟨_, step_of_no_event hport⟩
    | .hardReset :: rest => exact ⟨_, step_of_hardReset hport⟩
    | .command w payload :: rest => exact (step_transacts hport).completes (hwf _ _ hport)
  · match hport : s.port with
    | [] => simp [step_of_no_event hport]
    | .hardReset :: rest => simp [step_of_hardReset hport]
    | .command w payload :: rest => exact (step_transacts hport).not_fault f

/-! ## Reset (10_state.md R44, 46_sys.md R252, 70_reset_and_hazards.md R290) -/

theorem isReset_reset : IsReset State.reset := by
  refine ⟨rfl, rfl, rfl, rfl, rfl, rfl, rfl, rfl, rfl, rfl, rfl, ?_, rfl, rfl, ?_, rfl, rfl⟩
  · simp [State.reset]
  · simp [State.reset]

/-- The reset values do not speak of the parameters, the port, the payload, the reply and the source. -/
theorem isReset_resetBlock (s : State) : IsReset s.resetBlock := isReset_reset

theorem exec_sysReset {s : State} (h : s.pay = []) :
    exec .sysReset s = .next (s.resetBlock.finish 0#7 false []) :=
  ShiftRegisters.transact_of_no_payload h _

/-- Settles O9: the three resets write the same values; SYS.RESET also ends as a command. -/
theorem resetValues : Obligations.ResetValues := by
  refine ⟨isReset_reset, fun s h => ⟨_, exec_sysReset h, isReset_resetBlock s, ?_⟩,
    fun s rest hport => ⟨_, step_of_hardReset hport, isReset_resetBlock _, ?_⟩⟩
  · simp [statusWord_bit]
  · simp

end Sys2Proof.Transactions
end

section
/-! Proofs about all commands at once: what a successful command leaves, said once, and from it the rules of
the whole machine (spec/10_state.md R21, R23, R25, R26, R31, R33; 20_memory.md R60, R61; 45_nt_primes.md
R220). -/

namespace Sys2Proof.Commands

open Sys2Proof.Machine Sys2Proof.Claims Sys2Proof.Transactions

/-! ## What a successful command leaves -/

/-- The state a successful command leaves, command by command. -/
inductive Success (s : State) : Instr → State → Prop
  | sysNop : Success s .sysNop (s.finish 0#7 false [])
  | sysReset : Success s .sysReset (s.resetBlock.finish 0#7 false [])
  | sysRdreg (num : Reg) : Success s (.sysRdreg num) (s.finish 0#7 false (beN 8 (regRead s num).toNat))
  | sysWrreg (num : Reg) : Success s (.sysWrreg num) ((regWrite s num (s.payNat 0 8)).finish 0#7 false [])
  | lfsrConf (r : LfsrSel) (h : confBad s = false) :
    Success s (.lfsrConf r) ((s.disturb r (confLfsr s)).finish 0#7 false [])
  | lfsrLoad (r : LfsrSel) (h : s.payNat 0 8 < 2 ^ (s.lfsr.get r).len.toNat) :
    Success s (.lfsrLoad r)
      ((s.disturb r { s.lfsr.get r with s := BitVec.ofNat 64 (s.payNat 0 8) }).finish 0#7 false [])
  | lfsrRead (r : LfsrSel) :
    Success s (.lfsrRead r) (s.finish 0#7 false (beN 8 (s.lfsr.get r).s.toNat))
  | lfsrShift (r : LfsrSel) : Success s (.lfsrShift r)
      ((s.disturb r ((s.lfsr.get r).shifted (s.lfsr.get r).fb)).finish 0#7 false [])
  | lfsrShifto (r : LfsrSel) (b : Bool) :
    Success s (.lfsrShifto r b) ((s.disturb r ((s.lfsr.get r).shifted b)).finish 0#7 false [])
  | lfsrFb (r : LfsrSel) : Success s (.lfsrFb r) (s.finish 0#7 (s.lfsr.get r).fb [])
  | lfsrOut (r : LfsrSel) : Success s (.lfsrOut r) (s.finish 0#7 (s.lfsr.get r).outbit [])
  | lfsrClk (r : LfsrSel) : Success s (.lfsrClk r) (s.finish 0#7 (s.lfsr.get r).clkbit [])
  | scSetkey : Success s .scSetkey
      (({ s with key := BitVec.ofNat 64 (s.payNat 0 8), keyValid := true, scReady := false } :
        State).finish 0#7 false [])
  | scInit (h : s.keyValid = true) : Success s .scInit
      (({ s with lfsr := keyload s.key s.lfsr, scReady := true } : State).finish 0#7 false [])
  | scStep (h : s.scReady = true) : Success s .scStep
      (({ s with lfsr := s.lfsr.clock } : State).finish 0#7 s.lfsr.clock.outXor [])
  | scGen (n : BitVec 16) (h : s.scReady = true) : Success s (.scGen n)
      (({ s with lfsr := (keystream (8 * n.toNat) s.lfsr).2 } : State).finish 0#7 false
        (bytesMSB (keystream (8 * n.toNat) s.lfsr).1))
  | scRun (n : BitVec 16) (hlen : s.pay.length = n.toNat) (h : s.keyValid = true) : Success s (.scRun n)
      (({ s with lfsr := (keystream (8 * n.toNat) (keyload s.key s.lfsr)).2, scReady := true } :
        State).finish 0#7 false
        (bytesMSB (List.zipWith xor (bitsMSB s.pay) (keystream (8 * n.toNat) (keyload s.key s.lfsr)).1)))
  | shaInit : Success s .shaInit
      (({ s with h := Accum.reset, hlen := 0#64 } : State).finish 0#7 false [])
  | shaBlock : Success s .shaBlock
      (({ s with h := compress s.h s.pay, hlen := s.hlen + 64#64 } : State).finish 0#7 false [])
  | shaFinal (n : Fin 64) (acc : Accum) : Success s (.shaFinal n)
      (({ s with h := acc, hlen := BitVec.ofNat 64 ((s.hlen.toNat + n.val) % 2 ^ 64) } :
        State).finish 0#7 false [])
  | shaDigest : Success s .shaDigest (s.finish 0#7 false (digest s.h))
  | shaHash (n : BitVec 16) : Success s (.shaHash n)
      (({ s with h := compressAll (pad s.pay) Accum.reset, hlen := n.setWidth 64 } :
        State).finish 0#7 false (digest (compressAll (pad s.pay) Accum.reset)))
  | ksSettweak : Success s .ksSettweak
      (({ s with
          tweak0 := BitVec.ofNat 64 (s.payNat 0 8)
          tweak1 := BitVec.ofNat 64 (s.payNat 8 8)
          rkValid := false } : State).finish 0#7 false [])
  | ksSched (bs : BitVec 16) (w : Wpb) (hw : wpbOfSize bs.toNat = some w) :
    Success s (.ksSched bs) ((s.scheduled w).finish 0#7 false [])
  | ksRdrk (k : Fin 20) : Success s (.ksRdrk k)
      (s.finish 0#7 false ((List.range (8 * s.wpb.toNat)).map fun j => rkByte s.rk (128 * k.val + j)))
  | ntLd (rd : NReg) (n : BitVec 16) (d : List (NReg × Int)) (hd : ∀ p ∈ d, fits s.cfg p.2 = true) :
    Success s (.ntLd rd n) ((s.writeN d).finish 0#7 false [])
  | ntSt (rs : NReg) : Success s (.ntSt rs) (s.finish 0#7 false (intBytes (s.x rs)))
  | ntXgcd (rg rx ry ra rb : NReg) (d : List (NReg × Int)) (hd : ∀ p ∈ d, fits s.cfg p.2 = true) :
    Success s (.ntXgcd rg rx ry ra rb) ((s.writeN d).finish 0#7 false [])
  | ntModinv (rd rn rm : NReg) (d : List (NReg × Int)) (hd : ∀ p ∈ d, fits s.cfg p.2 = true) :
    Success s (.ntModinv rd rn rm) ((s.writeN d).finish 0#7 false [])
  | ntCrt (rd : NReg) (k : BitVec 16) (d : List (NReg × Int)) (hd : ∀ p ∈ d, fits s.cfg p.2 = true) :
    Success s (.ntCrt rd k) ((s.writeN d).finish 0#7 false [])
  | ntModpow (rd rb re rm : NReg) (d : List (NReg × Int)) (hd : ∀ p ∈ d, fits s.cfg p.2 = true) :
    Success s (.ntModpow rd rb re rm) ((s.writeN d).finish 0#7 false [])
  | ntFermat (rn : NReg) (rounds : BitVec 16) (b : Bool) (k : Nat) :
    Success s (.ntFermat rn rounds) (({ s with src := s.src.after k } : State).finish 0#7 b [])
  | ntMr (rn : NReg) (rounds : BitVec 16) (b : Bool) (k : Nat) :
    Success s (.ntMr rn rounds) (({ s with src := s.src.after k } : State).finish 0#7 b [])
  | ntGenprime (rd : NReg) (bits : BitVec 16) (k : Nat) (d : List (NReg × Int))
      (hd : ∀ p ∈ d, fits s.cfg p.2 = true) : Success s (.ntGenprime rd bits)
      ((({ s with src := s.src.after k } : State).writeN d).finish 0#7 false [])
  | ntGensafe (rp rq : NReg) (bits : BitVec 16) (k : Nat) (d : List (NReg × Int))
      (hd : ∀ p ∈ d, fits s.cfg p.2 = true) : Success s (.ntGensafe rp rq bits)
      ((({ s with src := s.src.after k } : State).writeN d).finish 0#7 false [])
  | ntFindgen (rd rp rq : NReg) (k : Nat) (d : List (NReg × Int))
      (hd : ∀ p ∈ d, fits s.cfg p.2 = true) : Success s (.ntFindgen rd rp rq)
      ((({ s with src := s.src.after k } : State).writeN d).finish 0#7 false [])

section
variable {s t : State} (h0 : t.lastErr = 0#7)
include h0

theorem ntEnd_of_success (h : NtEnd s t) : ∃ d : List (NReg × Int), (∀ p ∈ d, fits s.cfg p.2 = true)
    ∧ t = (s.writeN d).finish 0#7 false [] := by
  obtain h | ⟨c, hc, rfl⟩ := h
  · exact h
  · obtain rfl : c = 0#7 := h0
    simp at hc

theorem testEnd_of_success (h : TestEnd s t) :
    ∃ (b : Bool) (k : Nat), t = ({ s with src := s.src.after k } : State).finish 0#7 b [] := by
  obtain h | rfl := h
  · exact h
  · cases h0

theorem genEnd_of_success (h : GenEnd s t) : ∃ (k : Nat) (d : List (NReg × Int)),
    (∀ p ∈ d, fits s.cfg p.2 = true)
    ∧ t = (({ s with src := s.src.after k } : State).writeN d).finish 0#7 false [] := by
  obtain ⟨k, h⟩ := h
  exact ⟨k, ntEnd_of_success h0 h⟩

/-- What a command that succeeds leaves is what `Success` lists for it. -/
theorem exec_success {i : Instr} (h : exec i s = .next t) : Success s i t := by
  cases i with
  | sysNop => obtain ⟨-, rfl⟩ := execSysNop_cases h; exact .sysNop
  | sysReset => obtain ⟨-, rfl⟩ := execSysReset_cases h; exact .sysReset
  | sysRdreg num => obtain ⟨-, rfl⟩ := execSysRdreg_cases h; exact .sysRdreg num
  | sysWrreg num =>
    obtain ⟨-, -, ⟨-, -, rfl⟩ | ⟨-, rfl⟩⟩ | ⟨-, -, rfl⟩ := execSysWrreg_cases h
    · cases h0
    · exact .sysWrreg num
    · cases h0
  | lfsrConf r =>
    obtain ⟨-, ⟨-, rfl⟩ | ⟨hc, rfl⟩⟩ := execLfsrConf_cases h
    · cases h0
    · exact .lfsrConf r hc
  | lfsrLoad r =>
    obtain ⟨-, ⟨-, rfl⟩ | ⟨hc, rfl⟩⟩ := execLfsrLoad_cases h
    · cases h0
    · exact .lfsrLoad r hc
  | lfsrRead r => obtain ⟨-, rfl⟩ := execLfsrRead_cases h; exact .lfsrRead r
  | lfsrShift r => obtain ⟨-, rfl⟩ := execLfsrShift_cases h; exact .lfsrShift r
  | lfsrShifto r b => obtain ⟨-, rfl⟩ := execLfsrShifto_cases h; exact .lfsrShifto r b
  | lfsrFb r => obtain ⟨-, rfl⟩ := execLfsrFb_cases h; exact .lfsrFb r
  | lfsrOut r => obtain ⟨-, rfl⟩ := execLfsrOut_cases h; exact .lfsrOut r
  | lfsrClk r => obtain ⟨-, rfl⟩ := execLfsrClk_cases h; exact .lfsrClk r
  | scSetkey => obtain ⟨-, rfl⟩ := execScSetkey_cases h; exact .scSetkey
  | scInit =>
    obtain ⟨-, ⟨hk, rfl⟩ | ⟨-, rfl⟩⟩ := execScInit_cases h
    · exact .scInit hk
    · cases h0
  | scStep =>
    obtain ⟨-, ⟨hr, rfl⟩ | ⟨-, rfl⟩⟩ := execScStep_cases h
    · exact .scStep hr
    · cases h0
  | scGen n =>
    obtain ⟨-, ⟨hr, rfl⟩ | ⟨-, rfl⟩⟩ := execScGen_cases h
    · exact .scGen n hr
    · cases h0
  | scRun n =>
    obtain ⟨hlen, ⟨hk, rfl⟩ | ⟨-, rfl⟩⟩ := execScRun_cases h
    · exact .scRun n hlen hk
    · cases h0
  | shaInit => obtain ⟨-, rfl⟩ := execShaInit_cases h; exact .shaInit
  | shaBlock => obtain ⟨-, rfl⟩ := execShaBlock_cases h; exact .shaBlock
  | shaFinal n => obtain ⟨-, acc, rfl⟩ := execShaFinal_cases h; exact .shaFinal n acc
  | shaDigest => obtain ⟨-, rfl⟩ := execShaDigest_cases h; exact .shaDigest
  | shaHash n => obtain ⟨-, rfl⟩ := execShaHash_cases h; exact .shaHash n
  | ksSettweak => obtain ⟨-, rfl⟩ := execKsSettweak_cases h; exact .ksSettweak
  | ksSched bs =>
    obtain ⟨-, ⟨-, rfl⟩ | ⟨w, hw, rfl⟩⟩ := execKsSched_cases h
    · cases h0
    · exact .ksSched bs w hw
  | ksRdrk k =>
    obtain ⟨-, ⟨-, rfl⟩ | ⟨-, rfl⟩⟩ := execKsRdrk_cases h
    · exact .ksRdrk k
    · cases h0
  | ntLd rd n => obtain ⟨d, hd, rfl⟩ := ntEnd_of_success h0 (execNtLd_cases h).2; exact .ntLd rd n d hd
  | ntSt rs =>
    obtain ⟨-, ⟨-, rfl⟩ | ⟨-, rfl⟩⟩ := execNtSt_cases h
    · cases h0
    · exact .ntSt rs
  | ntXgcd rg rx ry ra rb =>
    obtain ⟨d, hd, rfl⟩ := ntEnd_of_success h0 (execNtXgcd_cases h).2
    exact .ntXgcd rg rx ry ra rb d hd
  | ntModinv rd rn rm =>
    obtain ⟨d, hd, rfl⟩ := ntEnd_of_success h0 (execNtModinv_cases h).2
    exact .ntModinv rd rn rm d hd
  | ntCrt rd k => obtain ⟨d, hd, rfl⟩ := ntEnd_of_success h0 (execNtCrt_cases h).2; exact .ntCrt rd k d hd
  | ntModpow rd rb re rm =>
    obtain ⟨d, hd, rfl⟩ := ntEnd_of_success h0 (execNtModpow_cases h).2
    exact .ntModpow rd rb re rm d hd
  | ntFermat rn rounds =>
    obtain ⟨b, k, rfl⟩ := testEnd_of_success h0 (execNtFermat_cases h).2
    exact .ntFermat rn rounds b k
  | ntMr rn rounds =>
    obtain ⟨b, k, rfl⟩ := testEnd_of_success h0 (execNtMr_cases h).2
    exact .ntMr rn rounds b k
  | ntGenprime rd bits =>
    obtain ⟨k, d, hd, rfl⟩ := genEnd_of_success h0 (execNtGenprime_cases h).2
    exact .ntGenprime rd bits k d hd
  | ntGensafe rp rq bits =>
    obtain ⟨k, d, hd, rfl⟩ := genEnd_of_success h0 (execNtGensafe_cases h).2
    exact .ntGensafe rp rq bits k d hd
  | ntFindgen rd rp rq =>
    obtain ⟨k, d, hd, rfl⟩ := genEnd_of_success h0 (execNtFindgen_cases h).2
    exact .ntFindgen rd rp rq k d hd

end

/-- A command that ends succeeded, or left all but LASTERR, the reply and the answers it drew. -/
theorem exec_cases {i : Instr} {s t : State} (h : exec i s = .next t) : Success s i t
    ∨ ∃ (k : Nat) (c : BitVec 7), t = ({ s with src := s.src.after k } : State).finish c false []
      ∧ (i.draws = false → k = 0) := by
  obtain h0 | ⟨k, c, ht, hk, -⟩ := Exceptions.exec_succeedsOrFails h
  · exact .inl (exec_success h0 h)
  · exact .inr ⟨k, c, ht, hk⟩

/-! ## Units (10_state.md R21) -/

/-- Settles O14: each command writes the state of its own unit; SC drives the shift registers. -/
theorem unitIsolation : Obligations.UnitIsolation := by
  intro i s t h
  obtain h | ⟨k, c, rfl, -⟩ := exec_cases h
  · cases h with
    | sysWrreg num => cases num <;> simp [Instr.owner, regWrite]
    | _ => simp [Instr.owner]
  · simp

/-! ## Flags (10_state.md R25, R26, R31) -/

/-- Settles O15: the flags by the state each successful command leaves. -/
theorem sequencingFlags : Obligations.SequencingFlags := by
  intro i s t h h0
  cases exec_success h0 h with
  | sysWrreg num => cases num <;> simp [regWrite]
  | _ => simp

/-! ## Draws (45_nt_primes.md R220) -/

/-- Settles O16: the source after `k` answers is left by the drawing commands alone, the old one by others. -/
theorem onlyFiveCommandsDraw : Obligations.OnlyFiveCommandsDraw := by
  refine ⟨fun i s t h => ?_, ntNoDraw_sane⟩
  have hsrc : ∃ k, t.src = s.src.after k ∧ (i.draws = false → k = 0) := by
    obtain h | ⟨k, c, rfl, hk⟩ := exec_cases h
    · cases h with
      | ntFermat _ _ _ k | ntMr _ _ _ k | ntGenprime _ _ k | ntGensafe _ _ _ k | ntFindgen _ _ _ k =>
        exact ⟨k, by simp, by simp [Instr.draws]⟩
      | sysWrreg num => exact ⟨0, by cases num <;> simp [regWrite], fun _ => rfl⟩
      | _ => exact ⟨0, by simp, fun _ => rfl⟩
    · exact ⟨k, by simp, hk⟩
  obtain ⟨k, hsrc, hk⟩ := hsrc
  refine ⟨fun hi => ?_, k, hsrc⟩
  rw [hsrc, hk hi, Source.after_zero]

/-! ## Responses (20_memory.md R60) -/

/-- Settles O17: the length of the response each successful command ends with. -/
theorem responseLengths : Obligations.ResponseLengths := by
  intro i s t r h h0 hr
  cases exec_success h0 h with
  | scGen n =>
    obtain rfl := Option.some.inj hr
    exact bytesMSB_length (keystream_length _ _)
  | scRun n hlen =>
    obtain rfl := Option.some.inj hr
    exact Encoding.scRun_response_length hlen _
  | _ =>
    obtain rfl := Option.some.inj hr
    simp [digest_length, magBytes]

/-! ## Reads (20_memory.md R61) -/

/-- A command ended by `finish` on the state it began in changed LASTERR, the payload and the reply alone. -/
theorem finish_frame {s t : State} {c : BitVec 7} {b : Bool} {r : List Byte} (h : t = s.finish c b r) :
    t = { s with lastErr := t.lastErr, pay := [], reply := t.reply } := by
  rw [h]
  rfl

/-- Settles O18: each of the eight commands ends the state it began in. -/
theorem readsHaveNoSideEffect : Obligations.ReadsHaveNoSideEffect := by
  intro i s t hi h
  obtain hs | ⟨k, c, rfl, hk⟩ := exec_cases h
  · cases hs with
    | sysRdreg | lfsrRead | lfsrFb | lfsrOut | lfsrClk | shaDigest | ksRdrk | ntSt => exact finish_frame rfl
    | _ => exact hi.elim
  · have hdraws : i.draws = false := by
      cases i with
      | ntFermat | ntMr | ntGenprime | ntGensafe | ntFindgen => exact hi.elim
      | _ => rfl
    rw [hk hdraws, Source.after_zero]
    exact finish_frame rfl

/-! ## The invariant, unit by unit (10_state.md R23, R26, R31, R33) -/

/-- The part of the invariant that speaks of the KS unit: KW, RK and RKVALID (R31, 43_key_schedule.md R172). -/
structure KsInv (s : State) : Prop where
  kwTail : ∀ j, s.wpb.toNat < j → kwAt s.kw j = 0#64
  kwNone : s.wpb = .w0 → kwAt s.kw 0 = 0#64
  kwParity : s.wpb ≠ .w0 →
    kwAt s.kw s.wpb.toNat
      = (List.range s.wpb.toNat).foldl (fun p j => p ^^^ kwAt s.kw j) s.cfg.ksConst
  rkForm : s.rk.wf = true
  rkSched : s.rkValid = true → s.wpb ≠ .w0 ∧ ∀ i < ksRounds, ∀ k < 16,
    rkEntry s.rk i k = (roundEntry s.kw s.wpb.toNat s.tweak0 s.tweak1 i k).toNat

/-- The part of the invariant that speaks of the units, and not of the command that has just ended. -/
structure UnitsInv (s : State) : Prop where
  lfsr : ∀ r, (s.lfsr.get r).Ok
  ready : s.scReady = true → s.keyValid = true
  ks : KsInv s
  nFits : ∀ i : NReg, fits s.cfg s.n[i] = true

theorem UnitsInv.of_inv {s : State} (h : s.Inv) : UnitsInv s where
  lfsr := h.lfsr
  ready := h.ready
  ks := ⟨h.kwTail, h.kwNone, h.kwParity, h.rkForm, h.rkSched⟩
  nFits := h.nFits

theorem KsInv.congr {s t : State} (h : KsInv s) (hwpb : t.wpb = s.wpb) (hkw : t.kw = s.kw)
    (hcfg : t.cfg = s.cfg) (hrk : t.rk = s.rk)
    (hvalid : t.rkValid = true → s.rkValid = true ∧ t.tweak0 = s.tweak0 ∧ t.tweak1 = s.tweak1) :
    KsInv t where
  kwTail := by rw [hwpb, hkw]; exact h.kwTail
  kwNone := by rw [hwpb, hkw]; exact h.kwNone
  kwParity := by rw [hwpb, hkw, hcfg]; exact h.kwParity
  rkForm := by rw [hrk]; exact h.rkForm
  rkSched := fun hv => by
    obtain ⟨hs, h0, h1⟩ := hvalid hv
    rw [hwpb, hkw, hrk, h0, h1]
    exact h.rkSched hs

theorem KsInv.finish {s : State} (h : KsInv s) (c : BitVec 7) (b : Bool) (r : List Byte) :
    KsInv (s.finish c b r) :=
  h.congr rfl rfl rfl rfl fun hv => ⟨hv, rfl, rfl⟩

/-- What KS.SCHED stores: the key words of a legal key with their parity word, and their schedule. -/
theorem KsInv.scheduled {s : State} (h : KsInv s) {w : Wpb} (hw : w ≠ .w0) : KsInv (s.scheduled w) where
  kwTail j hj := by
    simp only [State.scheduled_wpb] at hj
    rw [State.scheduled_kw, kwAt_key _ _ _ _ w.toNat_le, if_neg (by omega), if_neg (by omega)]
  kwNone h0 := absurd h0 hw
  kwParity _ := by
    simp only [State.scheduled_wpb, State.scheduled_kw, State.scheduled_cfg]
    rw [← parityWord_eq _ _ _ w.toNat_le, kwAt_key _ _ _ _ w.toNat_le, if_neg (lt_irrefl _), if_pos rfl]
  rkForm := Memory.write_wf h.rkForm (by rw [rkBytes_length, Nat.zero_add])
  rkSched _ := ⟨hw, fun i hi k hk => rkEntry_write _ _ _ _ _ hi hk⟩

theorem kwAt_replicate (j : Nat) : kwAt (Vector.replicate 17 0#64) j = 0#64 :=
  (kwAt_kwVector (fun _ => 0#64) j).trans (ite_self _)

theorem KsInv.resetBlock (s : State) : KsInv s.resetBlock where
  kwTail j _ := kwAt_replicate j
  kwNone _ := kwAt_replicate 0
  kwParity h0 := absurd rfl h0
  rkForm := Memory.wf_nil
  rkSched hv := by simp at hv

section
variable {i : Instr} {s t : State}

/-- Only a reset, a new tweak and a new schedule touch the KS unit, and the tweaks clear RKVALID. -/
theorem Success.ks (h : Success s i t) (hks : KsInv s) : KsInv t := by
  cases h with
  | sysReset => exact (KsInv.resetBlock s).finish _ _ _
  | sysWrreg num =>
    obtain ⟨-, -, -, -, hwpb, hkw, hrk, -, -, hcfg, -, -, -, -, hvalid⟩ := regWrite_frame s num (s.payNat 0 8)
    exact hks.congr hwpb hkw hcfg hrk hvalid
  | ksSettweak => exact hks.congr rfl rfl rfl rfl (by simp)
  | ksSched bs w hw => exact (hks.scheduled (wpbOfSize_eq_some hw).1).finish _ _ _
  | _ => exact hks.congr (by simp) (by simp) (by simp) (by simp) (by simp)

theorem get_set_ok {ls : Lfsrs} (h : ∀ r, (ls.get r).Ok) {x : Lfsr} (hx : x.Ok) (r r' : LfsrSel) :
    ((ls.set r x).get r').Ok := by
  by_cases hr : r' = r
  · rw [hr, Lfsrs.get_set_self]
    exact hx
  · rw [Lfsrs.get_set_of_ne _ _ hr]
    exact h r'

/-- The checks of LFSR.CONF (40_lfsr.md R101). -/
theorem confBad_eq_false_iff (s : State) : confBad s = false ↔ 1 ≤ s.payByte 0 ∧ s.payByte 0 ≤ 64
    ∧ s.payByte 1 < s.payByte 0 ∧ s.payByte 2 < s.payByte 0 ∧ s.payByte 3 = 0
    ∧ s.payNat 4 8 < 2 ^ s.payByte 0 := by
  have hmax : lfsrMaxLen < s.payByte 0 ↔ ¬ s.payByte 0 ≤ 64 := Nat.not_le.symm
  simp only [confBad, hmax, Bool.or_eq_false_iff, decide_eq_false_iff_not, not_lt, not_le, not_not, and_assoc]

/-- A payload that passes the checks is taken into the register as it is. -/
theorem confLfsr_fields (h : confBad s = false) : (confLfsr s).len.toNat = s.payByte 0
    ∧ (confLfsr s).clkidx.toNat = s.payByte 1 ∧ (confLfsr s).outidx.toNat = s.payByte 2
    ∧ (confLfsr s).taps.toNat = s.payNat 4 8 := by
  obtain ⟨-, hmax, hclk, hout, -, htaps⟩ := (confBad_eq_false_iff s).mp h
  have hpow : 2 ^ s.payByte 0 ≤ 2 ^ 64 := Nat.pow_le_pow_right (by decide) hmax
  exact ⟨Nat.mod_eq_of_lt (by omega), Nat.mod_eq_of_lt (by omega), Nat.mod_eq_of_lt (by omega),
    Nat.mod_eq_of_lt (htaps.trans_le hpow)⟩

theorem confLfsr_ok (h : confBad s = false) : (confLfsr s).Ok := by
  obtain ⟨hpos, hmax, hclk, hout, -, htaps⟩ := (confBad_eq_false_iff s).mp h
  obtain ⟨elen, eclk, eout, etaps⟩ := confLfsr_fields h
  constructor
  · rwa [elen]
  · rwa [elen]
  · rwa [elen, etaps]
  · rwa [elen, eclk]
  · rwa [elen, eout]
  · exact Nat.two_pow_pos _

theorem ok_with_contents {x : Lfsr} (h : x.Ok) {v : Word64} (hv : v.toNat < 2 ^ x.len.toNat) :
    Lfsr.Ok { x with s := v } :=
  { h with contents := hv }

theorem lfsrsReset_ok (r : LfsrSel) : (Lfsrs.reset.get r).Ok := by
  cases r <;> constructor <;> decide

/-- Every new setting of a shift register is within its bounds. -/
theorem Success.lfsr (h : Success s i t) (hl : ∀ r, (s.lfsr.get r).Ok) : ∀ r, (t.lfsr.get r).Ok := by
  cases h with
  | sysReset => exact lfsrsReset_ok
  | sysWrreg num => simpa [(regWrite_frame s num (s.payNat 0 8)).1] using hl
  | lfsrConf r hc => exact get_set_ok hl (confLfsr_ok hc) r
  | lfsrLoad r hlt =>
    exact get_set_ok hl (ok_with_contents (hl r) ((Nat.mod_le _ _).trans_lt hlt)) r
  | lfsrShift r => exact get_set_ok hl ((hl r).shifted _) r
  | lfsrShifto r b => exact get_set_ok hl ((hl r).shifted b) r
  | scInit => exact keyload_ok hl
  | scStep => exact clock_ok hl
  | scGen => exact keystream_ok hl
  | scRun => exact keystream_ok (keyload_ok hl)
  | _ => simpa using hl

/-- What sets SC_READY needs KEYVALID, and what clears KEYVALID clears SC_READY. -/
theorem Success.ready (h : Success s i t) (hr : s.scReady = true → s.keyValid = true) :
    t.scReady = true → t.keyValid = true := by
  cases h with
  | sysWrreg num =>
    obtain ⟨-, -, hvalid, hready, -⟩ := regWrite_frame s num (s.payNat 0 8)
    simpa [hvalid, hready] using hr
  | scInit hk | scRun _ _ hk => simp [hk]
  | sysReset | scSetkey | lfsrConf | lfsrLoad | lfsrShift | lfsrShifto => simp
  | _ => simpa using hr

theorem fits_foldl_set {cfg : Config} (d : List (NReg × Int)) (hd : ∀ p ∈ d, fits cfg p.2 = true) :
    ∀ n : Vector Int 16, (∀ i : NReg, fits cfg n[i] = true) →
      ∀ i : NReg, fits cfg (d.foldl (fun n p => n.set p.1 p.2) n)[i] = true := by
  induction d with
  | nil => exact fun _ hn => hn
  | cons p d ih =>
    intro n hn
    refine ih (fun q hq => hd q (by simp [hq])) _ fun i => ?_
    rw [Fin.getElem_fin, Vector.getElem_set]
    split
    · exact hd p (by simp)
    · exact hn i

theorem fits_zero (cfg : Config) : fits cfg 0 = true := by simp [fits_iff]

/-- Every integer written is within NT_BITS. -/
theorem Success.nFits (h : Success s i t) (hn : ∀ i : NReg, fits s.cfg s.n[i] = true) :
    ∀ i : NReg, fits t.cfg t.n[i] = true := by
  cases h with
  | sysReset => simp [fits_zero]
  | sysWrreg num =>
    obtain ⟨-, -, -, -, -, -, -, hregs, -, hcfg, -⟩ := regWrite_frame s num (s.payNat 0 8)
    simpa [hregs, hcfg] using hn
  | ntLd _ _ d hd | ntXgcd _ _ _ _ _ d hd | ntModinv _ _ _ d hd | ntCrt _ _ d hd | ntModpow _ _ _ _ d hd
  | ntGenprime _ _ _ d hd | ntGensafe _ _ _ _ d hd | ntFindgen _ _ _ _ d hd =>
    simpa using fits_foldl_set d hd s.n hn
  | _ => simpa using hn

theorem Success.units (h : Success s i t) (hu : UnitsInv s) : UnitsInv t :=
  ⟨h.lfsr hu.lfsr, h.ready hu.ready, h.ks hu.ks, h.nFits hu.nFits⟩

/-- The units' invariant does not speak of the payload, the port, the source and the end of a command. -/
theorem UnitsInv.frame (hu : UnitsInv s) (src : Source) (c : BitVec 7) (b : Bool) (r : List Byte) :
    UnitsInv (({ s with src := src } : State).finish c b r) :=
  ⟨hu.lfsr, hu.ready, hu.ks.congr rfl rfl rfl rfl (fun hv => ⟨hv, rfl, rfl⟩), hu.nFits⟩

theorem UnitsInv.take (hu : UnitsInv s) (payload : List Byte) (rest : List Event) :
    UnitsInv (s.take payload rest) :=
  ⟨hu.lfsr, hu.ready, hu.ks.congr rfl rfl rfl rfl (fun hv => ⟨hv, rfl, rfl⟩), hu.nFits⟩

theorem UnitsInv.resetBlock (s : State) : UnitsInv s.resetBlock where
  lfsr := lfsrsReset_ok
  ready := by simp
  ks := KsInv.resetBlock s
  nFits := by simp [fits_zero]

theorem UnitsInv.exec (hu : UnitsInv s) (h : exec i s = .next t) : UnitsInv t := by
  obtain h | ⟨k, c, rfl, -⟩ := exec_cases h
  · exact h.units hu
  · exact hu.frame _ _ _ _

/-! ## The invariant between commands -/

/-- The status word that `finish` writes agrees with the code and the response (30_encoding.md R84). -/
theorem reply_ok_of_commandEnd {hasBit : Bool} (h : Encoding.CommandEnd hasBit t) :
    t.lastErr.toNat ≤ 6 ∧ t.pay = [] ∧ ∀ r, t.reply = some r → r.Ok t.lastErr := by
  obtain ⟨u, c, b, resp, rfl, hc, hb, hresp, hlen⟩ := h
  obtain ⟨herr, hcode, hzero, hbit, hrlen⟩ := statusWord_fields c b resp.length
  refine ⟨hc, rfl, fun r hr => ?_⟩
  obtain rfl := Option.some.inj hr
  refine ⟨hcode, ?_, hzero, hrlen.trans (Nat.mod_eq_of_lt hlen), fun hne => ⟨?_, hresp hne⟩⟩
  · rw [herr]
    by_cases h0 : c = 0#7 <;> simp [h0]
  · rw [hbit]
    have : b = false := by
      cases b
      · rfl
      · exact absurd (hb rfl).2 hne
    simp [this]

theorem UnitsInv.inv (hu : UnitsInv t) (herr : t.lastErr.toNat ≤ 6) (hpay : t.pay = [])
    (hreply : ∀ r, t.reply = some r → r.Ok t.lastErr) : t.Inv :=
  ⟨hu.lfsr, hu.ready, hu.ks.kwTail, hu.ks.kwNone, hu.ks.kwParity, hu.ks.rkForm, hu.ks.rkSched, hu.nFits,
    herr, hpay, hreply⟩

theorem inv_resetBlock (s : State) : s.resetBlock.Inv :=
  (UnitsInv.resetBlock s).inv (Nat.zero_le 6) rfl (by simp)

theorem exec_inv (hu : UnitsInv s) (h : exec i s = .next t) : t.Inv := by
  obtain ⟨herr, hpay, hreply⟩ := reply_ok_of_commandEnd (Encoding.exec_commandEnd h)
  exact (hu.exec h).inv herr hpay hreply

end

/-- Settles O10: the reset state is what a reset leaves of it. -/
theorem resetMeetsInvariant : Obligations.ResetMeetsInvariant := inv_resetBlock State.reset

/-- Settles O11: a command keeps the invariant of the units whatever it writes, and its end the rest. -/
theorem stepKeepsInvariant : Obligations.StepKeepsInvariant := by
  intro s t hs h
  match hport : s.port with
  | [] =>
    obtain rfl : s = t := by simpa [step_of_no_event hport] using h
    exact hs
  | .hardReset :: rest =>
    obtain rfl : _ = t := by simpa [step_of_hardReset hport] using h
    exact inv_resetBlock _
  | .command w payload :: rest =>
    have hu := (UnitsInv.of_inv hs).take payload rest
    cases hdec : decode w with
    | ok i => exact exec_inv hu (step_of_decode hport hdec ▸ h)
    | error e =>
      rw [Encoding.step_of_decode_error hport hdec] at h
      obtain ⟨-, rfl⟩ := illegalWord_next.mp h
      obtain ⟨herr, hpay, hreply⟩ := reply_ok_of_commandEnd
        (Encoding.CommandEnd.code (hasBit := false) (s.take payload rest) 1#7 (by decide))
      exact (hu.frame _ _ _ _).inv herr hpay hreply

end Sys2Proof.Commands
end

section
/-! Proofs of the family 46_sys: SYS.NOP and the access to the register space (spec/46_sys.md R251, R253,
R254; 10_state.md R42, R43). -/

namespace Sys2Proof.SystemCommands

open Sys2Proof.Machine Sys2Proof.Claims Sys2Proof.ShiftRegisters Sys2Proof.StreamCipher

/-! ## Sequences of commands (20_memory.md R63) -/

/-- A command of a sequence that ends leaves the rest of the sequence to its end state. -/
theorem runCommands_cons {i : Instr} {p : List Byte} {s t : State} (h : exec i (s.take p s.port) = .next t)
    (rest : List (Instr × List Byte)) : runCommands ((i, p) :: rest) s = runCommands rest t := by
  rw [runCommands, h]

/-- A sequence that ends may be followed by another. -/
theorem runCommands_append {t : State} (l : List (Instr × List Byte)) :
    ∀ {s : State}, runCommands l s = .next t → ∀ rest, runCommands (l ++ rest) s = runCommands rest t := by
  induction l with
  | nil =>
    intro s h rest
    cases h
    rfl
  | cons p l ih =>
    intro s h rest
    obtain ⟨i, payload⟩ := p
    rw [runCommands] at h
    split at h
    · next u hu => rw [List.cons_append, runCommands_cons hu, ih h]
    · cases h
    · cases h

/-! ## SYS.NOP and SYS.RDREG (46_sys.md R251, R253) -/

/-- Settles O20: the command completes at once. -/
theorem sysNopOnlyClearsLasterr : Obligations.SysNopOnlyClearsLasterr :=
  fun s h => (transact_of_no_payload h _).trans (complete_eq_okNext s)

theorem exec_sysRdreg {s : State} (h : s.pay = []) (num : Reg) :
    exec (.sysRdreg num) s = okBytes s (beN 8 (regRead s num).toNat) :=
  (transact_of_no_payload h _).trans (complete_bytes (by simp) s)

theorem statusImage_toNat (s : State) : (statusImage s).toNat
    = s.keyValid.toNat + 2 * s.scReady.toNat + 4 * s.rkValid.toNat + 256 * s.wpb.toNat := by
  have h1 := Bool.toNat_le s.keyValid
  have h2 := Bool.toNat_le s.scReady
  have h3 := Bool.toNat_le s.rkValid
  have h4 := s.wpb.toNat_le
  rw [statusImage, BitVec.toNat_ofNat, Nat.mod_eq_of_lt (by omega)]

/-- Settles O21: the bytes are the image of the register; a narrow element is extended by zeros. -/
theorem sysRdregReturnsImage : Obligations.SysRdregReturnsImage := by
  intro num s h
  refine ⟨_, beN_length 8 (regRead s num).toNat, exec_sysRdreg h num, ?_⟩
  rw [be_beN_8]
  cases num with
  | status => exact statusImage_toNat s
  | lastErr | retryLimit | lfsrLen | lfsrClkidx | lfsrOutidx | h => simp [regRead]; omega
  | tweak2 => exact BitVec.toNat_add _ _
  | lfsrTaps | lfsrState | key | hlen | tweak0 | tweak1 | kw => rfl

/-! ## SYS.WRREG (46_sys.md R254) -/

section
variable {s : State} (hp : s.pay.length = 8) {num : Reg} (hw : num.writable = true)
include hp hw

/-- A writable register takes the payload's number, or refuses it when it is too wide. -/
theorem exec_sysWrreg : exec (.sysWrreg num) s
    = if regNarrow num && decide (2 ^ 32 ≤ be s.pay) then precondNext s
      else okNext (regWrite s num (be s.pay)) := by
  rw [exec, execSysWrreg, if_pos hw, transact_of_length hp, State.payNat, slice_all hp, complete_eq_okNext]
  rfl

theorem exec_sysWrreg_fits (hfit : regNarrow num = true → be s.pay < 2 ^ 32) :
    exec (.sysWrreg num) s = okNext (regWrite s num (be s.pay)) := by
  rw [exec_sysWrreg hp hw, if_neg]
  rw [Bool.and_eq_true, decide_eq_true_eq, not_and, not_le]
  exact hfit

theorem exec_sysWrreg_wide (hn : regNarrow num = true) (hwide : 2 ^ 32 ≤ be s.pay) :
    exec (.sysWrreg num) s = precondNext s := by
  rw [exec_sysWrreg hp hw, if_pos]
  rw [hn, decide_eq_true hwide]
  rfl

end

theorem exec_sysWrreg_readOnly {s : State} (h : s.pay = []) {num : Reg} (hr : num.writable = false) :
    exec (.sysWrreg num) s = illegalNext s := by
  rw [exec, execSysWrreg, if_neg (by simp [hr])]
  exact transact_of_no_payload h _

/-- Settles O22: `regWrite` is the write of each register, and only the narrow ones refuse a value. -/
theorem sysWrregWritesRegister : Obligations.SysWrregWritesRegister := by
  refine ⟨fun s hp => ⟨fun hfit => ?_, fun hwide => ?_, ?_, ?_, ?_⟩, fun num s hro h => ?_⟩
  · exact ⟨exec_sysWrreg_fits hp rfl fun _ => hfit, exec_sysWrreg_fits hp rfl fun _ => hfit,
      exec_sysWrreg_fits hp rfl fun _ => hfit, exec_sysWrreg_fits hp rfl fun _ => hfit,
      exec_sysWrreg_fits hp rfl fun _ => hfit, exec_sysWrreg_fits hp rfl fun _ => hfit⟩
  · exact ⟨exec_sysWrreg_wide hp rfl rfl hwide, fun _ => exec_sysWrreg_wide hp rfl rfl hwide⟩
  · exact exec_sysWrreg_fits hp rfl (by simp [regNarrow])
  · exact exec_sysWrreg_fits hp rfl (by simp [regNarrow])
  · exact exec_sysWrreg_fits hp rfl (by simp [regNarrow])
  · exact exec_sysWrreg_readOnly h (num.rw_eq_writable ▸ hro)

/-! ## Reading back (42_hasher.md R151) -/

/-- The image of a register is the number just written. -/
theorem regRead_regWrite (s : State) {num : Reg} (hw : num.writable = true) {v : Nat} (hv : v < 2 ^ 64)
    (hfit : regNarrow num = true → v < 2 ^ 32) : (regRead (regWrite s num v) num).toNat = v := by
  cases num with
  | retryLimit =>
    have := hfit rfl
    simp [regRead, regWrite]
    omega
  | h j =>
    have := hfit rfl
    simp [regRead, regWrite]
    omega
  | hlen | tweak0 | tweak1 => exact Nat.mod_eq_of_lt hv
  | _ => cases hw

/-- The end of a command and the next payload leave the image of every writable register. -/
theorem regRead_after (s : State) {num : Reg} (hw : num.writable = true) (status : Word32)
    (response payload : List Byte) (rest : List Event) :
    regRead ((ended s 0#7 status response).take payload rest) num = regRead s num := by
  cases num with
  | retryLimit | h | hlen | tweak0 | tweak1 => rfl
  | _ => cases hw

theorem bound_of_narrow {num : Reg} {p : Prop} (h : ∀ j, num = .retryLimit ∨ num = .h j → p)
    (hn : regNarrow num = true) : p := by
  cases num with
  | retryLimit => exact h 0 (.inl rfl)
  | h j => exact h j (.inr rfl)
  | _ => cases hn

/-- Settles O23: the image read back is the number of the payload, and its 8 bytes are the payload. -/
theorem wrregThenRdreg : Obligations.WrregThenRdreg := by
  intro num s payload hrw hlen hbound
  have hw : num.writable = true := num.rw_eq_writable ▸ hrw
  have hfit := bound_of_narrow hbound
  have hwrite := exec_sysWrreg_fits (s := s.take payload s.port) hlen hw hfit
  refine ⟨_, (runCommands_cons hwrite _).trans (runCommands_cons (exec_sysRdreg rfl num) []), ?_⟩
  rw [regRead_after _ hw, State.take_pay, regRead_regWrite _ hw (be_lt_two_pow_64 hlen) hfit,
    beN_be_of_length hlen, ended, hlen]

end Sys2Proof.SystemCommands
end

section
/-! Proofs of the family 40_lfsr: the construction of a shift register, its contents written and read, and
the register after as many overrides as it is long (spec/40_lfsr.md R101, R102, R103, R111). -/

namespace Sys2Proof.ShiftRegisters

open Sys2Proof.Machine Sys2Proof.Claims Sys2Proof.StreamCipher Sys2Proof.SystemCommands

/-! ## LFSR.CONF (40_lfsr.md R101) -/

theorem slice_to_end {bytes : List Byte} {start len : Nat} (h : start + len = bytes.length) :
    slice bytes start len = bytes.drop start :=
  List.take_of_length_le (by simp; omega)

theorem exec_lfsrConf {s : State} (h : s.pay.length = 12) (r : LfsrSel) : exec (.lfsrConf r) s
    = if confBad s then precondNext s else okNext (s.disturb r (confLfsr s)) := by
  rw [← complete_eq_okNext]
  exact transact_of_length h _

/-- Settles O24: the model's checks are those of R101, and a payload that passes them is taken as it is. -/
theorem lfsrConfConstructs : Obligations.LfsrConfConstructs := by
  intro r s hlen
  have hgood := Commands.confBad_eq_false_iff s
  rw [State.payNat, slice_to_end (by rw [hlen])] at hgood
  refine ⟨fun h => ?_, fun h => ?_⟩
  · have hok := hgood.mpr h
    obtain ⟨elen, eclk, eout, etaps⟩ := Commands.confLfsr_fields hok
    rw [State.payNat, slice_to_end (by rw [hlen])] at etaps
    refine ⟨confLfsr s, elen, eclk, eout, etaps, rfl, ?_⟩
    rw [exec_lfsrConf hlen, hok]
    rfl
  · have hbad : confBad s = true := Bool.of_not_eq_false fun hok => h (hgood.mp hok)
    rw [exec_lfsrConf hlen, hbad]
    rfl

/-! ## LFSR.LOAD and LFSR.READ (40_lfsr.md R102, R103) -/

theorem exec_lfsrLoad {s : State} (h : s.pay.length = 8) (r : LfsrSel) : exec (.lfsrLoad r) s
    = if 2 ^ (s.lfsr.get r).len.toNat ≤ be s.pay then precondNext s
      else okNext (s.disturb r { s.lfsr.get r with s := BitVec.ofNat 64 (be s.pay) }) := by
  rw [exec, execLfsrLoad, transact_of_length h, State.payNat, slice_all h, complete_eq_okNext]
  rfl

theorem exec_lfsrLoad_fits {s : State} (h : s.pay.length = 8) {r : LfsrSel}
    (hfit : be s.pay < 2 ^ (s.lfsr.get r).len.toNat) : exec (.lfsrLoad r) s
      = okNext (s.disturb r { s.lfsr.get r with s := BitVec.ofNat 64 (be s.pay) }) := by
  rw [exec_lfsrLoad h, if_neg (not_le.mpr hfit)]

/-- Settles O25: the command is one check and one write. -/
theorem lfsrLoadWritesContents : Obligations.LfsrLoadWritesContents := by
  refine fun r s h => ⟨fun hfit => exec_lfsrLoad_fits h hfit, fun hwide => ?_⟩
  rw [exec_lfsrLoad h, if_pos hwide]

theorem exec_lfsrRead {s : State} (h : s.pay = []) (r : LfsrSel) :
    exec (.lfsrRead r) s = okBytes s (beN 8 (s.lfsr.get r).s.toNat) :=
  (transact_of_no_payload h _).trans (complete_bytes (by simp) s)

/-- Settles O26: the 8 bytes read are those of the contents, and a load makes the contents of its 8 bytes. -/
theorem lfsrReadReturnsContents : Obligations.LfsrReadReturnsContents := by
  refine ⟨fun r s h => ⟨_, beN_length 8 _, be_beN_8 _, exec_lfsrRead h r⟩, fun r s payload hlen hfit => ?_⟩
  have hload := exec_lfsrLoad_fits (s := s.take payload s.port) hlen hfit
  refine ⟨_, (runCommands_cons hload _).trans (runCommands_cons (exec_lfsrRead rfl r) []), ?_⟩
  have hcontents : (BitVec.ofNat 64 (be payload)).toNat = be payload :=
    Nat.mod_eq_of_lt (be_lt_two_pow_64 hlen)
  simp [ended, hcontents, beN_be_of_length hlen, hlen]

/-! ## A register filled by overrides (40_lfsr.md R111 (c)) -/

theorem foldl_shifted_len (bits : List Bool) : ∀ x : Lfsr, (bits.foldl Lfsr.shifted x).len = x.len := by
  induction bits with
  | nil => exact fun _ => rfl
  | cons b bits ih => exact fun x => ih (x.shifted b)

/-- After overrides the last of them is at index 0 and the ones before it follow, as far as the register
reaches. -/
theorem foldl_shifted_getLsbD (x : Lfsr) (bits : List Bool) (hne : bits ≠ []) : ∀ {j : Nat}, j < 64 →
    j < bits.length ∨ x.len.toNat ≤ j → (bits.foldl Lfsr.shifted x).s.getLsbD j
      = if x.len.toNat ≤ j then false else bits.getD (bits.length - 1 - j) false := by
  induction bits using List.reverseRecOn with
  | nil => exact absurd rfl hne
  | append_singleton bits b ih =>
    intro j hj h
    rw [List.foldl_append, List.foldl_cons, List.foldl_nil, Lfsr.shifted_getLsbD _ _ hj,
      foldl_shifted_len]
    by_cases hlen : x.len.toNat ≤ j
    · rw [if_pos hlen, if_pos hlen]
    · rw [if_neg hlen, if_neg hlen, List.length_append, List.length_singleton, Nat.add_sub_cancel]
      cases j with
      | zero => simp
      | succ k =>
        have hk : k < bits.length := by
          have := h.resolve_right hlen
          simp at this
          exact this
        have hbits : bits ≠ [] := List.ne_nil_of_length_pos (by omega)
        rw [if_neg (by omega), Nat.add_sub_cancel, ih hbits (by omega) (.inl hk), if_neg (by omega),
          List.getD_append _ _ _ _ (by omega), Nat.sub_sub, Nat.add_comm 1 k]

theorem set_get_self (ls : Lfsrs) (r : LfsrSel) : ls.set r (ls.get r) = ls := by cases r <;> rfl

/-- Overrides issued one after the other shift their bits into the one register. -/
theorem runCommands_lfsrShifto (r : LfsrSel) (bits : List Bool) : ∀ s : State,
    ∃ t, runCommands (bits.map fun b => (.lfsrShifto r b, [])) s = .next t
      ∧ t.lfsr = s.lfsr.set r (bits.foldl Lfsr.shifted (s.lfsr.get r)) := by
  induction bits with
  | nil => exact fun s => ⟨s, rfl, (set_get_self _ r).symm⟩
  | cons b bits ih =>
    intro s
    obtain ⟨t, ht, hlfsr⟩ := ih (ended ((s.take [] s.port).disturb r ((s.lfsr.get r).shifted b)) 0#7 0#32 [])
    refine ⟨t, (runCommands_cons (exec_lfsrShifto rfl r b) _).trans ht, ?_⟩
    rw [hlfsr]
    simp [ended]

/-- Settles O29: the register holds the bits that were shifted in last, which are all it has room for. -/
theorem overridesFillTheRegister : Obligations.OverridesFillTheRegister := by
  intro r s bits hbits hpos hmax
  obtain ⟨t, ht, hlfsr⟩ := runCommands_lfsrShifto r bits s
  refine ⟨t, ht, fun j hj => ?_, ?_, fun r' hr => ?_⟩
  · have hne : bits ≠ [] := List.ne_nil_of_length_pos (by omega)
    rw [hlfsr, Lfsrs.get_set_self, foldl_shifted_getLsbD _ _ hne hj (by omega), ← hbits]
    by_cases h : j < bits.length
    · rw [if_neg (by omega), if_pos h]
    · rw [if_pos (by omega), if_neg h]
  · rw [hlfsr, Lfsrs.get_set_self, foldl_shifted_len]
  · rw [hlfsr, Lfsrs.get_set_of_ne _ _ hr]

end Sys2Proof.ShiftRegisters
end

section
/-! Proofs of the family 41_stream_cipher: the key, key-loading and the keystream bytes (spec/41_stream_cipher.md
R121, R122, R125, R126). -/

namespace Sys2Proof.StreamCipher

open Sys2Proof.Machine Sys2Proof.Claims Sys2Proof.ShiftRegisters Sys2Proof.SystemCommands

/-! ## The key and key-loading (41_stream_cipher.md R121, R122) -/

theorem exec_scSetkey {s : State} (h : s.pay.length = 8) : exec .scSetkey s
    = okNext { s with key := BitVec.ofNat 64 (be s.pay), keyValid := true, scReady := false } := by
  rw [exec, execScSetkey, transact_of_length h, State.payNat, slice_all h, complete_eq_okNext]

/-- Bit `63 - i` of a big-endian number of 8 bytes is bit `i` of the byte sequence. -/
theorem be_getLsbD {bytes : List Byte} (h : bytes.length = 8) {i : Nat} (hi : i < 64) :
    (BitVec.ofNat 64 (be bytes)).getLsbD (63 - i) = streamBit bytes i := by
  have hbit := be_testBit bytes (j := i) (by omega)
  rw [h, bitsMSB_getD] at hbit
  rw [BitVec.getLsbD_ofNat, decide_eq_true (by omega), Bool.true_and]
  exact hbit

/-- Settles O30: the key is the payload's big-endian number. -/
theorem scSetkeyLoadsKey : Obligations.ScSetkeyLoadsKey :=
  fun _ h => ⟨_, fun _ hi => be_getLsbD h hi, exec_scSetkey h⟩

/-- The registers after the first `i` shifts of key-loading. -/
def keyLoading (key : Word64) (ls : Lfsrs) : Nat → Lfsrs
  | 0 => ls.each Lfsr.clear
  | i + 1 => (keyLoading key ls i).each (Lfsr.keyShift (keyBit key i))

theorem foldl_range_eq_keyLoading (key : Word64) (ls : Lfsrs) (n : Nat) :
    (List.range n).foldl (fun t i => t.each (Lfsr.keyShift (keyBit key i))) (ls.each Lfsr.clear)
      = keyLoading key ls n := by
  induction n with
  | zero => rfl
  | succ n ih => rw [List.range_succ, List.foldl_append, ih]; rfl

theorem keyload_eq_keyLoading (key : Word64) (ls : Lfsrs) : keyload key ls = keyLoading key ls 64 :=
  foldl_range_eq_keyLoading key ls 64

theorem pushed_keyLoading (key : Word64) (ls : Lfsrs) (i : Nat) (r : LfsrSel) :
    Pushed ((keyLoading key ls i).get r) (tapXor ((keyLoading key ls i).get r) ^^ key.getLsbD (63 - i))
      ((keyLoading key ls (i + 1)).get r) := by
  rw [keyLoading, Lfsrs.get_each, Lfsr.keyShift, fb_eq_tapXor]
  exact pushed_shifted _ _

theorem exec_scInit {s : State} (hp : s.pay = []) (hk : s.keyValid = true) :
    exec .scInit s = okNext { s with lfsr := keyload s.key s.lfsr, scReady := true } := by
  rw [← complete_eq_okNext]
  exact (transact_of_no_payload hp _).trans (if_pos hk)

theorem exec_scInit_ready {s : State} (hp : s.pay = []) (hk : s.keyValid = true) :
    ∃ t, exec .scInit s = .next t ∧ t.scReady = true ∧ t.lfsr = keyload s.key s.lfsr :=
  ⟨_, exec_scInit hp hk, rfl, rfl⟩

/-- Settles O31: key-loading is 64 shifts after the contents are cleared. -/
theorem scInitLoadsKeyBits : Obligations.ScInitLoadsKeyBits := by
  intro s hp hk
  refine ⟨keyLoading s.key s.lfsr, fun r => Lfsrs.get_each _ _ r,
    fun i _ r => pushed_keyLoading s.key s.lfsr i r, ?_⟩
  rw [exec_scInit hp hk, keyload_eq_keyLoading]

/-! ## The keystream in bytes (41_stream_cipher.md R125) -/

/-- The keystream bytes of `SC.GEN n`. -/
def genBytes (n : Nat) (ls : Lfsrs) : List Byte := bytesMSB (keystream (8 * n) ls).1

@[simp] theorem genBytes_length (n : Nat) (ls : Lfsrs) : (genBytes n ls).length = n :=
  bytesMSB_length (keystream_length _ _)

theorem exec_scGen {n : BitVec 16} {s : State} (hp : s.pay = []) (hr : s.scReady = true) :
    exec (.scGen n) s
      = okBytes { s with lfsr := clocks s.lfsr (8 * n.toNat) } (genBytes n.toNat s.lfsr) := by
  have hlen : (genBytes n.toNat s.lfsr).length < 2 ^ 16 := by
    rw [genBytes_length]
    exact n.isLt
  rw [← complete_bytes hlen, ← keystream_snd]
  exact (transact_of_no_payload hp _).trans (if_pos hr)

/-- Bit `j` of the bytes is the XOR of the output bits after step `j`. -/
theorem streamBit_genBytes {n j : Nat} (hj : j < 8 * n) (ls : Lfsrs) :
    streamBit (genBytes n ls) j = outBits (clocks ls (j + 1)) := by
  rw [streamBit, ← bitsMSB_getD, genBytes, bitsMSB_bytesMSB (keystream_length _ _), keystream_getD hj]
  rfl

/-- Settles O33: the settings are the registers after each clock, and the bits are read after it. -/
theorem scGenReturnsKeystream : Obligations.ScGenReturnsKeystream :=
  fun _ s hp hr => ⟨clocks s.lfsr, _, rfl, fun _ hj => ⟨clocked_clock _, streamBit_genBytes hj _⟩,
    genBytes_length _ _, exec_scGen hp hr⟩

/-! ## Keystream split, and keystream XORed to a message (41_stream_cipher.md R125, R126) -/

theorem clocks_add (ls : Lfsrs) (a b : Nat) : clocks ls (a + b) = clocks (clocks ls a) b := by
  induction b with
  | zero => rfl
  | succ b ih => rw [← Nat.add_assoc, clocks, ih, clocks]

theorem genBytes_add (a b : Nat) (ls : Lfsrs) :
    genBytes (a + b) ls = genBytes a ls ++ genBytes b (clocks ls (8 * a)) := by
  rw [genBytes, Nat.mul_add, keystream_add,
    bytesMSB_append (keystream_length (8 * a) _) (keystream_length (8 * b) _), keystream_snd]
  rfl

/-- What `SC.GEN` hands to the host. -/
theorem scGen_reply {n : BitVec 16} {s : State} (hp : s.pay = []) (hr : s.scReady = true) :
    ∃ t, exec (.scGen n) s = .next t ∧ t.pay = [] ∧ t.scReady = true
      ∧ t.lfsr = clocks s.lfsr (8 * n.toNat)
      ∧ t.reply = some { status := n.setWidth 32, response := genBytes n.toNat s.lfsr } := by
  refine ⟨_, exec_scGen hp hr, rfl, hr, rfl, ?_⟩
  rw [ended, genBytes_length, BitVec.ofNat_toNat]

/-- Settles O34: the second command goes on where the first left the registers. -/
theorem scGenContinues : Obligations.ScGenContinues := by
  intro a b c s hr hc
  obtain ⟨t, ht, htp, htr, htl, htreply⟩ := scGen_reply (n := a) (s := { s with pay := [] }) rfl hr
  obtain ⟨u, hu, -, -, hul, hureply⟩ := scGen_reply (n := b) htp htr
  obtain ⟨v, hv, -, -, hvl, hvreply⟩ := scGen_reply (n := c) (s := { s with pay := [] }) rfl hr
  refine ⟨t, u, v, _, _, ht, htreply, hu, hureply, hv, ?_, ?_⟩
  · rw [hvreply, hc, genBytes_add, htl]
  · rw [hvl, hc, Nat.mul_add, clocks_add, hul, htl]

/-- Settles O35: key-loading and keystream are the same, and the model's XOR of bits is one of bytes. -/
theorem scRunXorsKeystream : Obligations.ScRunXorsKeystream := by
  intro n s hlen hk
  obtain ⟨u, hu, hur, hul⟩ := exec_scInit_ready (s := s.take [] s.port) rfl hk
  obtain ⟨t, ht, -, -, htl, htreply⟩ := scGen_reply (n := n) (s := u.take [] u.port) rfl hur
  refine ⟨t, _, (runCommands_cons hu _).trans (runCommands_cons ht []), htreply, genBytes_length _ _, ?_⟩
  rw [exec_scRun hlen hk, keystream_snd, htl, State.take_lfsr, hul]
  rfl

end Sys2Proof.StreamCipher
end

section
/-! Proofs of the family 42_hasher: the blocks of a padded message, the digest, and a message streamed in
blocks (spec/42_hasher.md R141, R142, R146, R147, R148, R150). -/

namespace Sys2Proof.Hasher

open Sys2Proof.Machine Sys2Proof.Claims Sys2Proof.ShiftRegisters Sys2Proof.StreamCipher
  Sys2Proof.SystemCommands

/-! ## Whole blocks, padding and digest as the statements describe them -/

/-- The model's accumulators after each block obey the compression's recurrences (42_hasher.md R143). -/
theorem absorbs_compressAll (h : Accum) {bytes : List Byte} (hb : bytes.length % 64 = 0) :
    Absorbs h bytes (compressAll bytes h) := by
  refine ⟨hb, absorbed bytes h, rfl, (compressAll_eq bytes h).symm, fun j hj => ?_⟩
  exact compresses_compress _ (by simp; omega)

/-- The model's padding closes a message (42_hasher.md R142). -/
theorem closedTail_padding (m : List Byte) (total : Nat) : ClosedTail m total (m ++ padding m.length total) := by
  have hcount : be (beN 8 (8 * total % 2 ^ 64)) = 8 * total % 2 ^ 64 :=
    be_beN_of_lt (Nat.mod_lt _ (by decide))
  exact ⟨zeroCount m.length, _, zeroCount_spec _, beN_length 8 _, hcount, by simp [padding]⟩

theorem absorbs_padded (h : Accum) (m : List Byte) (total : Nat) :
    Absorbs h (m ++ padding m.length total) (compressAll (m ++ padding m.length total) h) :=
  absorbs_compressAll h (by rw [List.length_append]; exact padded_length _ _)

theorem isDigest_digest (h : Accum) : IsDigest h (digest h) := by
  refine ⟨digest_length h, ?_, ?_, ?_, ?_, ?_⟩ <;>
    simp [digest, List.drop_append, List.drop_eq_nil_of_le, be_beN_4]

/-! ## The commands (42_hasher.md R141, R146, R148, R150) -/

/-- Settles O37: the command writes the reset accumulators. -/
theorem shaInitWritesInitialValues : Obligations.ShaInitWritesInitialValues :=
  fun _ h => (transact_of_no_payload h _).trans (complete_eq_okNext _)

/-- The accumulators that `SHA.FINAL` leaves (42_hasher.md R146). -/
def finalAccum (h : Accum) (count : Nat) (m : List Byte) : Accum :=
  if m.length = 0 ∧ count % 64 = 0 then h
  else compressAll (m ++ padding m.length ((count + m.length) % 2 ^ 64)) h

theorem exec_shaFinal {n : Fin 64} {s : State} (hlen : s.pay.length = n.val) : exec (.shaFinal n) s
    = okNext { s with
        h := finalAccum s.h s.hlen.toNat s.pay
        hlen := BitVec.ofNat 64 ((s.hlen.toNat + n.val) % 2 ^ 64) } := by
  rw [finalAccum, hlen, ← complete_eq_okNext]
  exact transact_of_length hlen _

/-- Settles O39: the model's tail is the payload closed by the padding, except on an aligned message. -/
theorem shaFinalPads : Obligations.ShaFinalPads := by
  intro n s hlen
  refine ⟨_, exec_shaFinal hlen, fun hn hs => ?_, fun hne => ?_⟩
  · rw [finalAccum, if_pos ⟨hlen.trans hn, hs⟩]
  · rw [finalAccum, if_neg (by omega), hlen, ← hlen]
    exact ⟨_, closedTail_padding _ _, absorbs_padded _ _ _⟩

theorem exec_shaDigest {s : State} (h : s.pay = []) : exec .shaDigest s = okBytes s (digest s.h) :=
  (transact_of_no_payload h _).trans (complete_bytes (by simp [digest_length]) s)

/-- Settles O40: the digest is the accumulators, four bytes each. -/
theorem shaDigestReturnsAccumulators : Obligations.ShaDigestReturnsAccumulators :=
  fun s h => ⟨_, isDigest_digest s.h, exec_shaDigest h⟩

theorem exec_shaHash {n : BitVec 16} {s : State} (hlen : s.pay.length = n.toNat) : exec (.shaHash n) s
    = okBytes { s with h := compressAll (pad s.pay) Accum.reset, hlen := BitVec.ofNat 64 n.toNat }
        (digest (compressAll (pad s.pay) Accum.reset)) := by
  rw [BitVec.ofNat_toNat, ← complete_bytes (by simp [digest_length])]
  exact transact_of_length hlen _

theorem pad_of_aligned {m : List Byte} (h : m.length % 64 = 0) : pad m = m := if_pos h

theorem pad_of_unaligned {m : List Byte} (h : m.length % 64 ≠ 0) : pad m = m ++ padding m.length m.length :=
  if_neg h

/-- Settles O41: the model absorbs the message itself when it is aligned, else the message closed. -/
theorem shaHashAbsorbsPaddedMessage : Obligations.ShaHashAbsorbsPaddedMessage := by
  intro n s hlen
  refine ⟨compressAll (pad s.pay) Accum.reset, _, pad s.pay, fun h => ?_, fun h => ?_, ?_,
    isDigest_digest _, exec_shaHash hlen⟩
  · exact pad_of_aligned (hlen ▸ h)
  · rw [pad_of_unaligned (hlen ▸ h), hlen, ← hlen]
    exact closedTail_padding _ _
  · by_cases h : s.pay.length % 64 = 0
    · rw [pad_of_aligned h]
      exact absorbs_compressAll _ h
    · rw [pad_of_unaligned h]
      exact absorbs_padded _ _ _

/-! ## A message streamed in blocks (42_hasher.md R147) -/

/-- The first `k` blocks of a message absorbed are its first `64 * k` bytes absorbed. -/
theorem compressAll_take {m : List Byte} {k : Nat} (hk : 64 * k ≤ m.length) (h : Accum) :
    compressAll (m.take (64 * k)) h = absorbed m h k := by
  rw [compressAll_eq, List.length_take, Nat.min_eq_left hk, Nat.mul_div_cancel_left _ (by decide)]
  refine absorbed_congr h fun j hj => ?_
  rw [List.drop_take, List.take_take, Nat.min_eq_left (by omega)]

/-- The padding depends on the length of the tail modulo 64 only. -/
theorem padding_mod (t total : Nat) : padding (t % 64) total = padding t total := by
  rw [padding, padding, zeroCount, Nat.mod_mod, ← zeroCount]

/-- `SHA.FINAL` with the rest of a message, after its whole blocks, absorbs the padded message. -/
theorem finalAccum_rest {m : List Byte} (hm : m.length < 2 ^ 64) (h : Accum) :
    finalAccum (absorbed m h (m.length / 64)) (64 * (m.length / 64)) (m.drop (64 * (m.length / 64)))
      = compressAll (pad m) h := by
  have hrest : (m.drop (64 * (m.length / 64))).length = m.length % 64 := by
    rw [List.length_drop]
    omega
  rw [finalAccum, hrest, Nat.mul_mod_right]
  by_cases ha : m.length % 64 = 0
  · rw [if_pos ⟨ha, rfl⟩, pad_of_aligned ha, compressAll_eq]
  · have htotal : (64 * (m.length / 64) + m.length % 64) % 2 ^ 64 = m.length := by omega
    rw [if_neg (fun hc => ha hc.1), htotal, padding_mod, pad_of_unaligned ha,
      ← compressAll_take (by omega), ← compressAll_append _ (by simp; omega), ← List.append_assoc,
      List.take_append_drop]

/-! What each command of the stream hands on to the next. -/

section
variable {s : State}

theorem shaInit_effect (h : s.pay = []) :
    ∃ t, exec .shaInit s = .next t ∧ t.h = Accum.reset ∧ t.hlen = 0#64 :=
  ⟨_, shaInitWritesInitialValues s h, rfl, rfl⟩

theorem shaBlock_effect (h : s.pay.length = 64) :
    ∃ t, exec .shaBlock s = .next t ∧ t.h = compress s.h s.pay ∧ t.hlen = s.hlen + 64#64 :=
  ⟨_, exec_shaBlock h, rfl, rfl⟩

theorem shaFinal_effect {n : Fin 64} (h : s.pay.length = n.val) : ∃ t, exec (.shaFinal n) s = .next t
    ∧ t.h = finalAccum s.h s.hlen.toNat s.pay
    ∧ t.hlen = BitVec.ofNat 64 ((s.hlen.toNat + n.val) % 2 ^ 64) :=
  ⟨_, exec_shaFinal h, rfl, rfl⟩

theorem shaDigest_effect (h : s.pay = []) : ∃ t, exec .shaDigest s = .next t ∧ t.h = s.h
    ∧ t.hlen = s.hlen ∧ t.reply = some { status := 0x00000014#32, response := digest s.h } :=
  ⟨_, exec_shaDigest h, rfl, rfl, by rw [ended, digest_length]⟩

theorem shaHash_effect {n : BitVec 16} (h : s.pay.length = n.toNat) : ∃ t, exec (.shaHash n) s = .next t
    ∧ t.h = compressAll (pad s.pay) Accum.reset ∧ t.hlen = BitVec.ofNat 64 n.toNat
    ∧ t.reply = some { status := 0x00000014#32, response := digest t.h } :=
  ⟨_, exec_shaHash h, rfl, rfl, by rw [ended, digest_length]⟩

end

/-- Blocks issued one after the other absorb the message block by block and count its bytes. -/
theorem runCommands_shaBlock (m : List Byte) (s : State) (k : Nat) : 64 * k ≤ m.length →
    ∃ t, runCommands ((List.range k).map fun j => (.shaBlock, (m.drop (64 * j)).take 64)) s = .next t
      ∧ t.h = absorbed m s.h k ∧ t.hlen = s.hlen + BitVec.ofNat 64 (64 * k) := by
  induction k with
  | zero => exact fun _ => ⟨s, rfl, rfl, by simp⟩
  | succ k ih =>
    intro hk
    obtain ⟨t, ht, hacc, hcount⟩ := ih (by omega)
    obtain ⟨u, hu, huacc, hucount⟩ :=
      shaBlock_effect (s := t.take ((m.drop (64 * k)).take 64) t.port) (by simp; omega)
    refine ⟨u, ?_, ?_, ?_⟩
    · rw [List.range_succ, List.map_append, runCommands_append _ ht]
      exact runCommands_cons hu []
    · rw [huacc, State.take_h, State.take_pay, hacc, absorbed]
    · rw [hucount, State.take_hlen, hcount, Nat.mul_succ, BitVec.ofNat_add, BitVec.add_assoc]

/-- Settles O42: whole blocks, then the rest with the padding, are the blocks of the padded message. -/
theorem streamedHashEqualsOneShot : Obligations.StreamedHashEqualsOneShot := by
  intro n tail s m hm htail
  have hn := n.isLt
  obtain ⟨u, hu, huacc, hucount⟩ := shaInit_effect (s := s.take [] s.port) rfl
  obtain ⟨v, hv, hvacc, hvcount⟩ := runCommands_shaBlock m u (m.length / 64) (by omega)
  obtain ⟨w, hw, hwacc, hwcount⟩ := shaFinal_effect (n := tail)
    (s := v.take (m.drop (64 * (m.length / 64))) v.port) (by simp; omega)
  obtain ⟨t, ht, htacc, htcount, htreply⟩ := shaDigest_effect (s := w.take [] w.port) rfl
  obtain ⟨t', ht', htacc', htcount', htreply'⟩ := shaHash_effect (s := { s with pay := m }) hm
  have hcount : v.hlen.toNat = 64 * (m.length / 64) := by
    rw [hvcount, hucount, BitVec.zero_add, BitVec.toNat_ofNat, Nat.mod_eq_of_lt (by omega)]
  have hacc : t.h = t'.h := by
    rw [htacc, htacc', State.take_h, hwacc, State.take_h, State.take_hlen, State.take_pay, hcount, hvacc,
      huacc, finalAccum_rest (by omega)]
  have hlen : t.hlen = t'.hlen := by
    rw [htcount, htcount', State.take_hlen, hwcount, State.take_hlen, hcount, htail]
    congr 1
    omega
  have hreply : t.reply = t'.reply := by
    rw [htreply, htreply', State.take_h, ← hacc, htacc, State.take_h]
  refine ⟨t, t', digest t'.h, ?_, ht', hreply.trans htreply', hreply.symm, hacc, hlen⟩
  rw [← hm, List.append_assoc, List.singleton_append, runCommands_cons hu, runCommands_append _ hv,
    runCommands_cons hw]
  exact runCommands_cons ht []

end Sys2Proof.Hasher
end

section
/-! Proofs of the family 43_key_schedule: the tweaks, the stored schedule, its vectors and its sensitivity to
the tweaks (spec/43_key_schedule.md R171 to R177). -/

namespace Sys2Proof.KeySchedule

open Sys2Proof.Machine Sys2Proof.Claims Sys2Proof.ShiftRegisters Sys2Proof.StreamCipher

/-- Settles O43: the two tweak words are the two halves of the payload. -/
theorem ksSettweakLoadsTweaks : Obligations.KsSettweakLoadsTweaks := by
  intro s h
  rw [exec, execKsSettweak, transact_of_length h, State.payNat, State.payNat, slice_to_end (start := 8)
    (by rw [h]), slice, List.drop_zero, complete_eq_okNext]

/-! ## The stored schedule (43_key_schedule.md R172 to R175) -/

/-- KW after a schedule, as the statements describe it. -/
theorem holdsKey_kwVector (cfg : Config) {key : List Byte} {w : Nat} (hw : w ≤ 16)
    (hkey : key.length = 8 * w) : HoldsKey cfg key w (kwVector (extWord cfg key w)) := by
  refine ⟨fun j hj => ?_, ?_, fun j hj => ?_⟩
  · have hword : (slice key (8 * j) 8).length = 8 := slice_length (by omega)
    rw [kwAt_key _ _ _ _ hw, if_pos hj, keyWord]
    cases cfg.ksByteOrder with
    | big => exact Nat.mod_eq_of_lt (be_lt_two_pow_64 hword)
    | little => exact Nat.mod_eq_of_lt (be_lt_two_pow_64 (by rw [List.length_reverse, hword]))
  · rw [← parityWord_eq _ _ _ hw, kwAt_key _ _ _ _ hw, if_neg (lt_irrefl w), if_pos rfl]
  · rw [kwAt_key _ _ _ _ hw, if_neg (by omega), if_neg (by omega)]

theorem tweakAt_toNat (t0 t1 : Word64) (j : Nat) : (tweakAt t0 t1 j).toNat = tweakWord t0 t1 j := by
  have hj : j % 3 < 3 := Nat.mod_lt j (by decide)
  rw [tweakAt, tweakWord]
  split
  · next h => simp [h]
  · next h => simp [h]
  · next h0 h1 => rw [if_neg h0, if_neg h1, BitVec.toNat_add]

/-- RK after a schedule, as the statements describe it: each entry by its place. -/
theorem holdsSchedule_write (m : Memory) (kw : Vector Word64 17) (w : Nat) (t0 t1 : Word64) :
    HoldsSchedule kw w t0 t1 (m.write 0 (rkBytes kw w t0 t1)) := by
  intro i hi k hk
  rw [rkEntry_write m kw w t0 t1 hi hk]
  refine ⟨fun h => ?_, fun h => ?_, fun h => ?_, fun h => ?_, fun h => ?_⟩
  · rw [roundEntry_low t0 t1 i h]
  · rw [roundEntry_third t0 t1 i h, masked_toNat, tweakAt_toNat, show i + w - 3 = i + k by omega]
  · rw [roundEntry_second t0 t1 i h, masked_toNat, tweakAt_toNat, show i + w - 2 = i + k by omega]
  · rw [roundEntry_last t0 t1 i h, masked_toNat, show i + w - 1 = i + k by omega]
  · rw [roundEntry_beyond t0 t1 i h]
    rfl

theorem exec_ksSched {bs : BitVec 16} {s : State} (hlen : s.pay.length = bs.toNat) {w : Wpb}
    (hw : wpbOfSize bs.toNat = some w) : exec (.ksSched bs) s = okNext (s.scheduled w) := by
  rw [exec, execKsSched, transact_of_length hlen, hw]
  exact complete_eq_okNext _

theorem exec_ksSched_precond {bs : BitVec 16} {s : State} (hlen : s.pay.length = bs.toNat)
    (hw : wpbOfSize bs.toNat = none) : exec (.ksSched bs) s = precondNext s := by
  rw [exec, execKsSched, transact_of_length hlen, hw]
  rfl

/-- Settles O44: a legal key length names its block size, and the schedule is stored under it. -/
theorem ksSchedStoresSchedule : Obligations.KsSchedStoresSchedule := by
  refine fun bs s hlen => ⟨fun w hw hbs => ?_, fun h32 h64 h128 => ?_⟩
  · refine ⟨_, _, holdsKey_kwVector s.cfg w.toNat_le (hlen.trans hbs), holdsSchedule_write s.rk _ _ _ _, ?_⟩
    exact exec_ksSched hlen (hbs ▸ wpbOfSize_of_ne hw)
  · exact exec_ksSched_precond hlen (wpbOfSize_eq_none h32 h64 h128)

/-! ## The vectors (43_key_schedule.md R176) -/

theorem exec_ksRdrk {s : State} (hp : s.pay = []) (hv : s.rkValid = true) (i : Fin 20) :
    exec (.ksRdrk i) s
      = okBytes s ((List.range (8 * s.wpb.toNat)).map fun j => rkByte s.rk (128 * i.val + j)) := by
  have hle := s.wpb.toNat_le
  rw [exec, execKsRdrk, transact_of_no_payload hp, if_pos hv, rkLoad_row]
  exact complete_bytes (by simp; omega) s

/-- Settles O45: the command returns the row of the vector, entry by entry. -/
theorem ksRdrkReturnsVector : Obligations.KsRdrkReturnsVector :=
  fun i s hp hv => ⟨_, by simp, fun k hk => row_entry s.rk i.val k _ hk, exec_ksRdrk hp hv i⟩

/-! ## Sensitivity to the tweaks (43_key_schedule.md R177) -/

theorem rkEntry_of_ksSched {bs : BitVec 16} {w : Wpb} {s t : State} (hw : w ≠ .w0)
    (hbs : bs.toNat = 8 * w.toNat) (h : exec (.ksSched bs) s = .next t) {i k : Nat} (hi : i < 20)
    (hk : k < 16) : rkEntry t.rk i k
      = (roundEntry (kwVector (extWord s.cfg s.pay w.toNat)) w.toNat s.tweak0 s.tweak1 i k).toNat := by
  have hsize : wpbOfSize bs.toNat = some w := hbs ▸ wpbOfSize_of_ne hw
  obtain ⟨-, ⟨hnone, -⟩ | ⟨w', hw', rfl⟩⟩ := execKsSched_cases h
  · cases hsize.symm.trans hnone
  · obtain rfl : w = w' := Option.some.inj (hsize.symm.trans hw')
    exact rkEntry_write _ _ _ _ _ hi hk

/-- Settles O46: the tweaks enter the entries modulo 256 and nowhere else, each at its place of vector 0. -/
theorem tweakSensitivity : Obligations.TweakSensitivity := by
  intro bs w s s' t t' hw hbs _ hpay hcfg h h'
  have h4 := w.four_le hw
  have h16 := w.toNat_le
  have e := fun {i k : Nat} => rkEntry_of_ksSched (i := i) (k := k) hw hbs h
  have e' := fun {i k : Nat} => rkEntry_of_ksSched (i := i) (k := k) hw hbs h'
  rw [hpay, hcfg] at e'
  refine ⟨fun h0 h1 i hi k hk => ?_, fun hne heq => hne ?_, fun hne heq => hne ?_⟩
  · rw [e hi hk, e' hi hk, roundEntry_congr _ _ h0 h1]
  · rw [e (by decide) (by omega), e' (by decide) (by omega), BitVec.toNat_inj,
      roundEntry_third _ _ 0 (by omega), roundEntry_third _ _ 0 (by omega), masked_eq_iff] at heq
    exact heq
  · rw [e (by decide) (by omega), e' (by decide) (by omega), BitVec.toNat_inj,
      roundEntry_second _ _ 0 (by omega), roundEntry_second _ _ 0 (by omega), masked_eq_iff] at heq
    exact heq

end Sys2Proof.KeySchedule
end

section
/-! Proofs of the family 44_nt_arith: integers loaded and stored, the extended greatest common divisor, the
inverse and the power (spec/44_nt_arith.md R193 to R198, R201 to R203). -/

namespace Sys2Proof.NtArith

open Sys2Proof.Machine Sys2Proof.Claims Sys2Proof.ShiftRegisters Sys2Proof.StreamCipher
  Sys2Proof.SystemCommands

/-! ## Values within NT_BITS (44_nt_arith.md R191) -/

theorem within_of_natAbs_le {cfg : Config} {v w : Int} (hw : Within cfg w) (h : v.natAbs ≤ w.natAbs) :
    Within cfg v :=
  fun b hb => h.trans_lt (hw b hb)

theorem within_neg_iff {cfg : Config} {v : Int} : Within cfg (-v) ↔ Within cfg v := by
  rw [Within, Int.natAbs_neg, Within]

/-- 1 fits every bound but 0 bits. -/
theorem within_one {cfg : Config} (h : cfg.ntBits ≠ some 0) : Within cfg 1 := by
  intro b hb
  have hb0 : b ≠ 0 := by
    rintro rfl
    exact h hb
  exact Nat.one_lt_two_pow hb0

/-! ## NT.LD (44_nt_arith.md R193) -/

/-- The command by the sign byte of its payload. -/
theorem exec_ntLd {s : State} {b : Byte} {mag : List Byte} (hpay : s.pay = b :: mag) {n : BitVec 16}
    (hlen : mag.length = n.toNat) (rd : NReg) : exec (.ntLd rd n) s
      = if b = 0#8 then writeBack [(rd, (be mag : Int))] s
        else if b = 1#8 then writeBack [(rd, -(be mag : Int))] s
        else precondNext s := by
  have hplen : s.pay.length = 1 + n.toNat := by rw [hpay, List.length_cons, hlen, Nat.add_comm]
  have hmag : s.payNat 1 n.toNat = be mag := by rw [State.payNat, slice_to_end hplen.symm, hpay]; rfl
  have hsign : s.payByte 0 = b.toNat := by rw [State.payByte, hpay]; rfl
  have h0 : b.toNat = 0 ↔ b = 0#8 := BitVec.toNat_inj (y := 0#8)
  have h1 : b.toNat = 1 ↔ b = 1#8 := BitVec.toNat_inj (y := 1#8)
  rw [exec, execNtLd, transact_of_length hplen, ← raise_precond]
  simp only [hmag, hsign, h0, h1]

/-- Settles O47: the sign byte picks the value to write back, or none. -/
theorem ntLdLoadsInteger : Obligations.NtLdLoadsInteger := by
  intro rd n s hlen
  obtain ⟨b, mag, hpay⟩ : ∃ b mag, s.pay = b :: mag := List.exists_cons_of_length_pos (by omega)
  have hexec := exec_ntLd (rd := rd) (n := n) hpay (by rw [hpay, List.length_cons] at hlen; omega)
  have hhead : s.pay.head? = some b := by rw [hpay]; rfl
  have hmag : s.pay.drop 1 = mag := by rw [hpay]; rfl
  simp only [hhead, hmag, ne_eq, Option.some.injEq]
  refine ⟨?_, ?_, fun h0 h1 => ?_, ?_⟩
  · rintro rfl hw
    rw [hexec, if_pos rfl, writeBack_of_within hw]
  · rintro rfl hw
    rw [hexec, if_neg (by decide), if_pos rfl, writeBack_of_within (within_neg_iff.mpr hw)]
  · rw [hexec, if_neg h0, if_neg h1]
  · rintro (rfl | rfl) hw
    · rw [hexec, if_pos rfl, writeBack_of_not_within hw]
    · rw [hexec, if_neg (by decide), if_pos rfl, writeBack_of_not_within (by rwa [within_neg_iff])]

/-! ## NT.ST (44_nt_arith.md R194) -/

/-- The number of magnitude bytes is the least that holds the magnitude. -/
theorem magBytes_le_iff (v : Int) (k : Nat) : magBytes v ≤ k ↔ v.natAbs < 256 ^ k := by
  have hpow : 256 ^ k = 2 ^ (8 * k) := by rw [Nat.pow_mul]
  rw [hpow, ← bitlen_le_iff, magBytes]
  omega

theorem natAbs_lt_magBytes (v : Int) : v.natAbs < 256 ^ magBytes v := (magBytes_le_iff v _).mp le_rfl

theorem be_magnitude (v : Int) : be (beN (magBytes v) v.natAbs) = v.natAbs :=
  be_beN_of_lt (natAbs_lt_magBytes v)

theorem magnitude_head_ne_zero (v : Int) : (beN (magBytes v) v.natAbs).head? ≠ some 0#8 := by
  cases hm : magBytes v with
  | zero => simp [beN]
  | succ k =>
    have hlo : ¬ v.natAbs < 256 ^ k := by
      rw [← magBytes_le_iff]
      omega
    exact beN_head_ne_zero (not_lt.mp hlo) (hm ▸ natAbs_lt_magBytes v)

theorem exec_ntSt {s : State} (h : s.pay = []) (rs : NReg) : exec (.ntSt rs) s
    = if 65535 < 1 + magBytes (s.x rs) then rangeNext s
      else complete false (intBytes (s.x rs)) s :=
  transact_of_no_payload h _

theorem exec_ntSt_fits {s : State} (h : s.pay = []) {rs : NReg} (hfit : magBytes (s.x rs) ≤ 65534) :
    exec (.ntSt rs) s = okBytes s (intBytes (s.x rs)) := by
  rw [exec_ntSt h, if_neg (by omega)]
  exact complete_bytes (by rw [Encoding.intBytes_length]; omega) s

/-- Settles O48: the magnitude bytes are as few as hold the magnitude. -/
theorem ntStReturnsInteger : Obligations.NtStReturnsInteger := by
  refine fun rs s h => ⟨fun hlt => ?_, fun hge => ?_⟩
  · exact ⟨_, be_magnitude _, magnitude_head_ne_zero _, exec_ntSt_fits h ((magBytes_le_iff _ _).mpr hlt)⟩
  · have hbytes : ¬ magBytes (s.x rs) ≤ 65534 := fun hle => hge.not_gt ((magBytes_le_iff _ _).mp hle)
    rw [exec_ntSt h, if_pos (by omega)]

/-! ## NT.LDI (44_nt_arith.md R193, R194; 30_encoding.md R90) -/

/-- The payload of the pseudo-command loads its value. -/
theorem exec_asmLdi {s : State} {v : Int} (hpay : s.pay = intBytes v) (hfit : magBytes v < 2 ^ 16)
    (hw : Within s.cfg v) (rd : NReg) : exec (asmLdi rd v).1 s = okNext { s with n := s.n.set rd v } := by
  have hexec := exec_ntLd (n := BitVec.ofNat 16 (magBytes v)) hpay
    (by rw [beN_length, BitVec.toNat_ofNat, Nat.mod_eq_of_lt hfit]) rd
  rw [be_magnitude] at hexec
  rw [asmLdi, hexec, ← writeBack_of_within hw]
  by_cases hneg : v < 0
  · rw [if_pos hneg, if_neg (by decide), if_pos rfl, show -(v.natAbs : Int) = v by omega]
  · rw [if_neg hneg, if_pos rfl, show (v.natAbs : Int) = v by omega]

/-- NT.ST after a load that left the value in its register. -/
theorem runCommands_ldi_st {s t : State} {v : Int} {rd : NReg} (hfit : magBytes v ≤ 65534)
    (hload : exec (asmLdi rd v).1 (s.take (intBytes v) s.port) = .next t) (hv : t.x rd = v) :
    runCommands [((asmLdi rd v).1, intBytes v), (.ntSt rd, [])] s = okBytes (t.take [] t.port) (intBytes v) := by
  have hx : (t.take [] t.port).x rd = v := hv
  rw [runCommands_cons hload, runCommands, exec_ntSt_fits rfl (by rwa [hx]), hx]
  rfl

/-- Settles O49: the bytes loaded are those of the value, and storing the value gives them again. -/
theorem ldiThenStReturnsBytes : Obligations.LdiThenStReturnsBytes := by
  intro rd v s hw hlt
  have hfit : magBytes v ≤ 65534 := (magBytes_le_iff v _).mpr hlt
  have hload := exec_asmLdi (s := s.take (intBytes v) s.port) rfl (by omega) hw rd
  have hrd : (s.n.set rd v)[rd] = v := Vector.getElem_set_self _
  exact ⟨_, runCommands_ldi_st hfit hload hrd, hrd, _, rfl⟩

/-! ## NT.XGCD (44_nt_arith.md R195, R196) -/

/-- The function answers what the remainder sequence ends with. -/
theorem euclidEnds_xgcd (a : Int) {b : Int} (hb : 0 ≤ b) :
    EuclidEnds a b (xgcd a b).1 (xgcd a b).2.1 (xgcd a b).2.2 := by
  obtain ⟨n, r, s, t, hr, hs, ht, hstep, hend, heq⟩ :=
    xgcdLoop_sequence (b.toNat + 1) a b 1 0 0 1 hb (Nat.lt_succ_self _)
  rw [xgcd, heq]
  exact ⟨n, r, s, t, hr, hs, ht, hstep, hend, rfl, rfl, rfl⟩

/-- Within a bound of at least one bit the results fit where the operands do. -/
theorem within_xgcd {cfg : Config} {a b : Int} (ha : 0 ≤ a) (hb : 0 ≤ b) (hwa : Within cfg a)
    (hwb : Within cfg b) (hbits : cfg.ntBits ≠ some 0) :
    Within cfg (xgcd a b).1 ∧ Within cfg (xgcd a b).2.1 ∧ Within cfg (xgcd a b).2.2 := by
  have hone : Within cfg 1 := within_one hbits
  have hzero : Within cfg 0 := within_of_natAbs_le hone (by decide)
  rcases hb.eq_or_lt with rfl | hb
  · exact ⟨hwa, hone, hzero⟩
  rcases ha.eq_or_lt with rfl | ha
  · rw [xgcd_left_zero hb]
    exact ⟨hwb, hzero, hone⟩
  · obtain ⟨hx, hy⟩ := xgcd_bounds ha hb
    refine ⟨within_of_natAbs_le hwb ?_, within_of_natAbs_le hwb hx, within_of_natAbs_le hwa hy⟩
    rw [(xgcd_spec ha.le hb.le).1, Int.natAbs_natCast]
    exact Nat.le_of_dvd (by omega) (Int.gcd_dvd_natAbs_right _ _)

theorem exec_ntXgcd {s : State} (h : s.pay = []) {rg rx ry : NReg} (hgx : rg ≠ rx) (hgy : rg ≠ ry)
    (hxy : rx ≠ ry) (ra rb : NReg) : exec (.ntXgcd rg rx ry ra rb) s
      = if s.n[ra] < 0 ∨ s.n[rb] < 0 then precondNext s
        else writeBack [(rg, (xgcd s.n[ra] s.n[rb]).1), (rx, (xgcd s.n[ra] s.n[rb]).2.1),
          (ry, (xgcd s.n[ra] s.n[rb]).2.2)] s := by
  rw [exec, execNtXgcd, if_neg (by simp [hgx, hgy, hxy]), transact_of_no_payload h]
  rfl

/-- Settles O50: the values written are those of `xgcd`, which walks the remainder sequence. -/
theorem ntXgcdWritesBezout : Obligations.NtXgcdWritesBezout := by
  refine ⟨fun rg rx ry ra rb s hgx hgy hxy h => ?_, ntXgcd_sane⟩
  have hexec := exec_ntXgcd h hgx hgy hxy ra rb
  refine ⟨fun ha hb hwa hwb hbits => ?_, fun ha hb hbits => ?_, fun hneg => hexec.trans (if_pos hneg)⟩
  · obtain ⟨hg, hbezout⟩ := xgcd_spec ha hb
    have hfits := within_xgcd ha hb hwa hwb hbits
    refine ⟨_, _, _, ?_, euclidEnds_xgcd _ hb, hg, hbezout, xgcd_bounds, ?_, ?_, ?_⟩
    · rw [hexec, if_neg (not_or.mpr ⟨ha.not_gt, hb.not_gt⟩)]
      exact writeBack_of_fits (by simpa [fits_iff_within] using hfits)
    · intro hb0
      rw [hb0]
      exact ⟨rfl, rfl⟩
    · intro ha0 hbpos
      rw [ha0, xgcd_left_zero hbpos]
      exact ⟨rfl, rfl⟩
    · intro hab hapos
      rw [← hab, xgcd_self hapos]
      exact ⟨rfl, rfl⟩
  · have hx0 : s.n[ra] = 0 := ha
    have hy0 : s.n[rb] = 0 := hb
    rw [hexec, hx0, hy0, if_neg (by decide), xgcd_right_zero]
    exact writeBack_next.mpr (.inr ⟨⟨(rx, 1), by simp, by simp [fits, hbits]⟩, rfl⟩)

/-! ## NT.MODINV (44_nt_arith.md R198) -/

theorem exec_ntModinv {s : State} (h : s.pay = []) (rd rn rm : NReg) : exec (.ntModinv rd rn rm) s
    = if s.n[rn] < 0 ∨ s.n[rm] < 1 then precondNext s
      else if (xgcd s.n[rn] s.n[rm]).1 = 1 then writeBack [(rd, (xgcd s.n[rn] s.n[rm]).2.1)] s
      else noinvNext s :=
  transact_of_no_payload h _

/-- The first coefficient is at most a positive second operand. -/
theorem xgcd_first_le {n m : Int} (hn : 0 ≤ n) (hm : 0 < m) : (xgcd n m).2.1.natAbs ≤ m.natAbs := by
  rcases hn.eq_or_lt with rfl | hn
  · rw [xgcd_left_zero hm]
    exact Nat.zero_le _
  · exact (xgcd_bounds hn hm).1

/-- Settles O51: the coefficient written is an inverse, since the gcd is 1. -/
theorem ntModinvInverts : Obligations.NtModinvInverts := by
  refine ⟨fun rd rn rm s h => ⟨fun hn hm hgcd hw => ?_, fun hn hm hgcd => ?_, fun hdom => ?_⟩,
    ntModinv_sane⟩ <;> have hexec := exec_ntModinv h rd rn rm
  · have hg : (xgcd s.n[rn] s.n[rm]).1 = 1 := by
      rw [(xgcd_spec hn (by omega)).1]
      exact_mod_cast hgcd
    have hle : (xgcd s.n[rn] s.n[rm]).2.1.natAbs ≤ s.n[rm].natAbs := xgcd_first_le hn hm
    rw [if_neg (not_or.mpr ⟨hn.not_gt, hm.not_gt⟩), if_pos hg,
      writeBack_of_within (within_of_natAbs_le hw hle)] at hexec
    have hends := euclidEnds_xgcd s.n[rn] (b := s.n[rm]) (by omega)
    rw [hg] at hends
    exact ⟨_, hexec, ⟨_, hends⟩, xgcd_inverse hn (by omega) hg, hle⟩
  · have hg : (xgcd s.n[rn] s.n[rm]).1 ≠ 1 := by
      rw [(xgcd_spec hn (by omega)).1]
      exact_mod_cast hgcd
    rw [hexec, if_neg (not_or.mpr ⟨hn.not_gt, hm.not_gt⟩), if_neg hg]
  · exact hexec.trans (if_pos hdom)

/-! ## NT.MODPOW (44_nt_arith.md R201, R202) -/

theorem exec_ntModpow {s : State} (h : s.pay = []) (rd rb re rm : NReg) : exec (.ntModpow rd rb re rm) s
    = if s.n[rm] < 1 then precondNext s
      else if s.n[re] < 0 then precondNext s
      else writeBack [(rd, (modpow s.n[rb] s.n[re].toNat s.n[rm].toNat : Int))] s :=
  transact_of_no_payload h _

/-- A residue fits where its modulus does. -/
theorem within_emod {cfg : Config} {m : Int} (hm : 1 ≤ m) (hw : Within cfg m) (v : Int) :
    Within cfg (v % m) := by
  have hnonneg : 0 ≤ v % m := Int.emod_nonneg v (by omega)
  have hlt : v % m < m := Int.emod_lt_of_pos v (by omega)
  exact within_of_natAbs_le hw (by omega)

/-- Settles O53: the power written is below the modulus. -/
theorem ntModpowRaises : Obligations.NtModpowRaises := by
  refine ⟨fun rd rb re rm s h => ⟨fun hm he hw => ?_, fun hdom => ?_⟩, fun b e1 e2 _ => modpow_add b e1 e2⟩
    <;> have hexec := exec_ntModpow h rd rb re rm
  · have hcast : (s.n[rm].toNat : Int) = s.n[rm] := Int.toNat_of_nonneg (by omega)
    rw [hexec, if_neg hm.not_gt, if_neg he.not_gt, modpow_eq _ _ (by omega), hcast,
      writeBack_of_within (within_emod hm hw _)]
  · rw [hexec]
    rcases hdom with hm | he
    · exact if_pos hm
    · rw [if_pos he, ite_self]

end Sys2Proof.NtArith
end

section
/-! Proofs of the family 45_nt_primes: the primality tests, their verdicts on primes, and the generation
commands (spec/45_nt_primes.md R220 to R231). -/

namespace Sys2Proof.NtPrimes

open Sys2Proof.Machine Sys2Proof.Claims Sys2Proof.ShiftRegisters Sys2Proof.NtArith

/-! ## The rounds of a test (45_nt_primes.md R221, R224) -/

/-- A round of the statements is a round of the model. -/
theorem mrPass_iff_passes {m : Nat} (hm : 2 ≤ m) (a : Nat) : mrPass m a = true ↔ Passes m a := by
  obtain ⟨hrt, ht⟩ := twoPart_spec (bitlen (m - 1)) (m - 1) (by omega) (lt_two_pow_bitlen _)
  exact ⟨fun h => ⟨_, _, hrt, ht, (mrPass_iff hm hrt ht).mp h⟩,
    fun ⟨_, _, hrt, ht, h⟩ => (mrPass_iff hm hrt ht).mpr h⟩

/-- The answers are numbered on from those already used up. -/
theorem answer_after (src : Source) (j k lo hi : Nat) :
    answerIn lo hi ((src.after j).rawAt k) = answer src (j + k) lo hi := by
  rw [Source.rawAt_after, answer]

/-- On an odd number from 5 on a test answers 1 exactly when all rounds pass, and stops at the first round
that does not. -/
theorem primalityTest_usesUp {pass : Nat → Nat → Bool} {v : Int} (h5 : 5 ≤ v) (hodd : v % 2 = 1)
    (rounds : Nat) (src : Source) {P : Nat → Prop}
    (hP : ∀ j, pass v.toNat (answer src j 2 (v.toNat - 2)) = true ↔ P j) :
    ∃ bit k, k ≤ rounds ∧ primalityTest pass v rounds src = (bit, src.after k)
      ∧ (bit = true ↔ ∀ j < rounds, P j) ∧ UsesUp P rounds bit k := by
  rw [(primalityTest_spec pass v rounds src).2.2 h5 hodd]
  rcases witnessRounds_cases (pass v.toNat) v.toNat rounds src with
    ⟨heq, hpass⟩ | ⟨j, hj, heq, hpass, hfail⟩
  · exact ⟨true, rounds, le_rfl, heq, ⟨fun _ i hi => (hP i).mp (hpass i hi), fun _ => rfl⟩,
      fun _ => rfl, fun h => absurd h (by decide)⟩
  · have hnot : ¬ P j := by
      rw [← hP, answer, hfail]
      decide
    exact ⟨false, j + 1, hj, heq, ⟨fun h => absurd h (by decide), fun h => absurd (h j hj) hnot⟩,
      fun h => absurd h (by decide), fun _ => ⟨j, hj, rfl, fun i hi => (hP i).mp (hpass i hi), hnot⟩⟩

/-! ## NT.MR and NT.FERMAT (45_nt_primes.md R222, R223) -/

/-- The state after a test that answered `out`. -/
def testEnded (s : State) (out : Bool × Source) : Answer :=
  .next (ended { s with src := out.2 } 0#7 (bitStatus out.1) [])

theorem exec_ntMr {s : State} (h : s.pay = []) {rounds : BitVec 16} (hr : rounds ≠ 0#16) (rn : NReg) :
    exec (.ntMr rn rounds) s = testEnded s (mr s.n[rn] rounds.toNat s.src) := by
  have hr : rounds.toNat ≠ 0 := fun h0 => hr (BitVec.eq_of_toNat_eq h0)
  rw [exec, execNtMr, transact_of_no_payload h, if_neg hr]
  exact complete_bit _ _

theorem exec_ntFermat {s : State} (h : s.pay = []) {rounds : BitVec 16} (hr : rounds ≠ 0#16) (rn : NReg) :
    exec (.ntFermat rn rounds) s = testEnded s (fermat s.n[rn] rounds.toNat s.src) := by
  have hr : rounds.toNat ≠ 0 := fun h0 => hr (BitVec.eq_of_toNat_eq h0)
  rw [exec, execNtFermat, transact_of_no_payload h, if_neg hr]
  exact complete_bit _ _

/-- Settles O54: each verdict is that of `primalityTest` on the rounds of its test. -/
theorem primalityVerdicts : Obligations.PrimalityVerdicts := by
  refine fun rn rounds s h => ⟨?_, fun hr => ?_⟩
  · rintro rfl
    exact ⟨transact_of_no_payload h _, transact_of_no_payload h _⟩
  rw [exec_ntMr h hr, exec_ntFermat h hr, mr, fermat]
  refine ⟨fun hno => ?_, fun hyes => ?_, fun h5 hodd => ⟨?_, ?_⟩⟩
  · rw [(primalityTest_spec mrPass _ _ _).1 hno, (primalityTest_spec fermatPass _ _ _).1 hno]
    exact ⟨rfl, rfl⟩
  · rw [(primalityTest_spec mrPass _ _ _).2.1 hyes, (primalityTest_spec fermatPass _ _ _).2.1 hyes]
    exact ⟨rfl, rfl⟩
  · obtain ⟨bit, k, hk, heq, hbit, huse⟩ := primalityTest_usesUp h5 hodd rounds.toNat s.src
      fun j => mrPass_iff_passes (by omega) (answer s.src j 2 (s.n[rn].toNat - 2))
    exact ⟨bit, k, hk, by rw [heq, testEnded], hbit, huse⟩
  · obtain ⟨bit, k, hk, heq, hbit, huse⟩ := primalityTest_usesUp h5 hodd rounds.toNat s.src
      fun j => fermatPass_iff (by omega) (answer s.src j 2 (s.n[rn].toNat - 2))
    exact ⟨bit, k, hk, by rw [heq, testEnded], hbit, huse⟩

/-! ## Primes (45_nt_primes.md R227 (a)) -/

/-- Fermat's little theorem, on remainders. -/
theorem fermat_of_prime {p a : Nat} (hp : p.Prime) (ha : ¬ p ∣ a) : a ^ (p - 1) % p = 1 := by
  have hmod : a ^ (p - 1) ≡ 1 [MOD p] := by
    rw [← Nat.totient_prime hp]
    exact Nat.ModEq.pow_totient ((Nat.Prime.coprime_iff_not_dvd hp).mpr ha).symm
  rw [hmod, Nat.mod_eq_of_lt hp.one_lt]

/-- Modulo a prime only 1 and -1 square to 1. -/
theorem mod_of_sq_mod_eq_one {p x : Nat} (hp : p.Prime) (h : x ^ 2 % p = 1) :
    x % p = 1 ∨ x % p = p - 1 := by
  have : Fact p.Prime := ⟨hp⟩
  have h1 : 1 % p = 1 := Nat.mod_eq_of_lt hp.one_lt
  have hsq : (x : ZMod p) * x = 1 := by
    have := (ZMod.natCast_eq_natCast_iff' (x ^ 2) 1 p).mpr (by rw [h, h1])
    rw [← sq]
    exact_mod_cast this
  rcases mul_self_eq_one_iff.mp hsq with hx | hx
  · left
    rw [← h1, ← ZMod.natCast_eq_natCast_iff', hx, Nat.cast_one]
  · right
    have hlt : (p - 1) % p = p - 1 := Nat.mod_eq_of_lt (Nat.sub_lt hp.pos Nat.one_pos)
    rw [← hlt, ← ZMod.natCast_eq_natCast_iff', hx, Nat.cast_pred hp.pos, ZMod.natCast_self, zero_sub]

/-- The square roots of 1 below a power of the witness: all are 1, or the last that is not is -1. -/
theorem powers_of_pow_eq_one {p a t : Nat} (hp : p.Prime) (r : Nat) (h : a ^ (2 ^ r * t) % p = 1) :
    a ^ t % p = 1 ∨ ∃ j < r, a ^ (2 ^ j * t) % p = p - 1 := by
  induction r with
  | zero => exact .inl (by simpa using h)
  | succ r ih =>
    have hsq : (a ^ (2 ^ r * t)) ^ 2 % p = 1 := by
      rw [← pow_mul, mul_right_comm, ← pow_succ]
      exact h
    rcases mod_of_sq_mod_eq_one hp hsq with h1 | hneg
    · exact (ih h1).imp_right fun ⟨j, hj, hjr⟩ => ⟨j, hj.trans (Nat.lt_succ_self r), hjr⟩
    · exact .inr ⟨r, Nat.lt_succ_self r, hneg⟩

/-- On a prime every witness that it does not divide passes a Miller-Rabin round. -/
theorem passes_of_prime {p a : Nat} (hp : p.Prime) (ha : ¬ p ∣ a) : Passes p a := by
  obtain ⟨hrt, ht⟩ := twoPart_spec (bitlen (p - 1)) (p - 1) (by have := hp.two_le; omega)
    (lt_two_pow_bitlen _)
  refine ⟨_, _, hrt, ht, ?_⟩
  have hone := fermat_of_prime hp ha
  rw [hrt] at hone
  rcases powers_of_pow_eq_one hp _ hone with h1 | ⟨j, hj, hneg⟩
  · exact .inl h1
  · rcases j.eq_zero_or_pos with rfl | hpos
    · exact .inr (.inl (by simpa using hneg))
    · exact .inr (.inr ⟨j, hpos, hj, hneg⟩)

/-- A witness drawn for a prime from 5 on is not divided by it. -/
theorem not_dvd_witness {p : Nat} (h5 : 5 ≤ p) (src : Source) (k : Nat) : ¬ p ∣ answer src k 2 (p - 2) := by
  obtain ⟨hlo, hhi⟩ := answerIn_mem (show 2 ≤ p - 2 by omega) (src.rawAt k)
  exact Nat.not_dvd_of_pos_of_lt (by rw [answer]; omega) (by rw [answer]; omega)

/-- A test whose rounds pass on a prime answers 1 for every sequence of draws. -/
theorem primalityTest_prime {pass : Nat → Nat → Bool} {v : Int} (h0 : 0 ≤ v) (hp : v.toNat.Prime)
    (hpass : ∀ a, ¬ v.toNat ∣ a → pass v.toNat a = true) (rounds : Nat) (src : Source) :
    ∃ k, primalityTest pass v rounds src = (true, src.after k) := by
  by_cases hsmall : v = 2 ∨ v = 3
  · refine ⟨0, ?_⟩
    rw [(primalityTest_spec pass v rounds src).2.1 hsmall, Source.after_zero]
  · have hge := hp.two_le
    have hodd : v.toNat % 2 = 1 := hp.eq_two_or_odd.resolve_left (by omega)
    refine ⟨rounds, ?_⟩
    rw [(primalityTest_spec pass v rounds src).2.2 (by omega) (by omega)]
    exact witnessRounds_passed fun j _ => hpass _ (not_dvd_witness (by omega) src j)

/-- Settles O55: by Fermat's little theorem, and since 1 has no square roots but 1 and -1. -/
theorem primesAlwaysPass : Obligations.PrimesAlwaysPass := by
  intro rn rounds s h hr h0 hp
  obtain ⟨k, hk⟩ := primalityTest_prime h0 hp
    (fun a ha => (mrPass_iff_passes hp.two_le a).mpr (passes_of_prime hp ha)) rounds.toNat s.src
  obtain ⟨k', hk'⟩ := primalityTest_prime h0 hp
    (fun a ha => (fermatPass_iff hp.one_le a).mpr (fermat_of_prime hp ha)) rounds.toNat s.src
  rw [exec_ntMr h hr, exec_ntFermat h hr, mr, fermat, hk, hk']
  exact ⟨k, k', rfl, rfl⟩

/-! ## Tests by number of answer (45_nt_primes.md R224) -/

theorem mr_of_tested {src : Source} {m k k' : Nat} (h : Tested src m k k') :
    mr m genRounds (src.after k) = (true, src.after k') := by
  rcases h with ⟨hsmall, rfl⟩ | ⟨h5, hodd, rfl, hpass⟩
  · exact (primalityTest_spec _ _ _ _).2.1 (by omega)
  · rw [mr, (primalityTest_spec _ _ _ _).2.2 (by omega) (by omega), Int.toNat_natCast]
    rw [witnessRounds_passed (fun j hj => ?_), Source.after_after]
    · rfl
    · rw [answer_after, mrPass_iff_passes (by omega)]
      exact hpass j hj

theorem mr_of_rejected {src : Source} {m k k' : Nat} (h : Rejected src m k k') :
    mr m genRounds (src.after k) = (false, src.after k') := by
  rcases h with ⟨hsmall, rfl⟩ | ⟨h5, hodd, j, hj, rfl, hpass, hfail⟩
  · exact (primalityTest_spec _ _ _ _).1 (by omega)
  · rw [mr, (primalityTest_spec _ _ _ _).2.2 (by omega) (by omega), Int.toNat_natCast,
      witnessRounds_failed (rounds := genRounds) hj (fun i hi => ?_) ?_, Source.after_after, Nat.add_assoc]
    · rw [answer_after, ← Bool.not_eq_true, mrPass_iff_passes (by omega)]
      exact hfail
    · rw [answer_after, mrPass_iff_passes (by omega)]
      exact hpass i hi

/-- A number passes or fails, whatever answers follow. -/
theorem tested_or_rejected (src : Source) (m k : Nat) :
    (∃ k', Tested src m k k') ∨ ∃ k', Rejected src m k k' := by
  by_cases hsmall : m = 2 ∨ m = 3
  · exact .inl ⟨k, .inl ⟨hsmall, rfl⟩⟩
  by_cases hcomposite : m < 2 ∨ (m ≠ 2 ∧ m % 2 = 0)
  · exact .inr ⟨k, .inl ⟨hcomposite, rfl⟩⟩
  have h5 : 5 ≤ m := by omega
  have hodd : m % 2 = 1 := by omega
  obtain ⟨bit, k', -, -, hbit, huse⟩ := primalityTest_usesUp (v := m) (by omega) (by omega) genRounds
    (src.after k) fun j => by rw [answer, answer_after, Int.toNat_natCast, mrPass_iff_passes (by omega)]
  cases bit with
  | true => exact .inl ⟨_, .inr ⟨h5, hodd, rfl, hbit.mp rfl⟩⟩
  | false =>
    obtain ⟨j, hj, -, hpass, hfail⟩ := huse.2 rfl
    exact .inr ⟨_, .inr ⟨h5, hodd, j, hj, rfl, hpass, hfail⟩⟩

/-- A prime passes on any answers. -/
theorem tested_of_prime {src : Source} {m k : Nat} (h5 : 5 ≤ m) (hp : m.Prime) :
    Tested src m k (k + genRounds) :=
  .inr ⟨h5, hp.eq_two_or_odd.resolve_left (by omega), rfl,
    fun j _ => passes_of_prime hp (not_dvd_witness h5 src (k + j))⟩

theorem safeAccept_of_tested {src : Source} {q k k' : Nat} (h : SafeTested src q k k') :
    safeAccept q (src.after k) = (true, src.after k') := by
  obtain ⟨j, hq, hp⟩ := h
  have hmr := mr_of_tested hp
  push_cast at hmr
  simp only [safeAccept, mr_of_tested hq, if_true, hmr]

theorem safeAccept_of_rejected {src : Source} {q k k' : Nat} (h : SafeRejected src q k k') :
    safeAccept q (src.after k) = (false, src.after k') := by
  rcases h with hq | ⟨j, hq, hp⟩
  · rw [safeAccept, mr_of_rejected hq]
    rfl
  · have hmr := mr_of_rejected hp
    push_cast at hmr
    simp only [safeAccept, mr_of_tested hq, if_true, hmr]

theorem safeTested_or_rejected (src : Source) (q k : Nat) :
    (∃ k', SafeTested src q k k') ∨ ∃ k', SafeRejected src q k k' := by
  rcases tested_or_rejected src q k with ⟨j, hq⟩ | ⟨k', hq⟩
  · rcases tested_or_rejected src (2 * q + 1) j with ⟨k', hp⟩ | ⟨k', hp⟩
    · exact .inl ⟨k', j, hq, hp⟩
    · exact .inr ⟨k', .inr ⟨j, hq, hp⟩⟩
  · exact .inr ⟨k', .inl hq⟩

/-! ## Tries by number of answer (45_nt_primes.md R225, R229) -/

theorem cand_after (w : Nat) (src : Source) (k : Nat) :
    cand w (src.after k) = (candidate src w k, src.after (k + 1)) := by
  rw [cand_eq, answer_after, Source.after_after]
  rfl

theorem candidate_spec {w : Nat} (hw : 1 ≤ w) (src : Source) (k : Nat) :
    2 ^ (w - 1) ≤ candidate src w k ∧ candidate src w k < 2 ^ w ∧ candidate src w k % 2 = 1 := by
  have h := cand_spec hw (src.after k)
  rwa [cand_after] at h

theorem triesFail_zero (src : Source) (w : Nat) (reject : Nat → Nat → Nat → Prop) :
    TriesFail src w reject 0 0 :=
  ⟨fun _ => 0, rfl, rfl, fun _ hi => absurd hi (Nat.not_lt_zero _)⟩

section
variable {src : Source} {w : Nat} {test reject : Nat → Nat → Nat → Prop}
  {accept : Nat → Source → Bool × Source}

theorem triesFail_succ {n k k' : Nat} (h : TriesFail src w reject n k)
    (hr : reject (candidate src w k) (k + 1) k') : TriesFail src w reject (n + 1) k' := by
  obtain ⟨pos, h0, rfl, hpos⟩ := h
  refine ⟨fun i => if i ≤ n then pos i else k', by simpa using h0, by simp, fun i hi => ?_⟩
  rcases (Nat.lt_succ_iff.mp hi).eq_or_lt with rfl | hlt
  · simpa using hr
  · simpa [hlt.le, Nat.succ_le_of_lt hlt] using hpos i hlt

/-- Within the budget one try succeeds or all fail. -/
theorem tries_complete (htotal : ∀ c k, (∃ k', test c k k') ∨ ∃ k', reject c k k') (limit : Nat) :
    (∃ k, TriesFail src w reject limit k)
    ∨ ∃ n k k', n < limit ∧ TriesFail src w reject n k ∧ test (candidate src w k) (k + 1) k' := by
  induction limit with
  | zero => exact .inl ⟨0, triesFail_zero src w reject⟩
  | succ limit ih =>
    rcases ih with ⟨k, hfail⟩ | ⟨n, k, k', hn, hfound⟩
    · rcases htotal (candidate src w k) (k + 1) with ⟨k', ht⟩ | ⟨k', hr⟩
      · exact .inr ⟨limit, k, k', Nat.lt_succ_self limit, hfail, ht⟩
      · exact .inl ⟨k', triesFail_succ hfail hr⟩
    · exact .inr ⟨n, k, k', hn.trans (Nat.lt_succ_self limit), hfound⟩

variable (htest : ∀ c k k', test c k k' → accept c (src.after k) = (true, src.after k'))
  (hreject : ∀ c k k', reject c k k' → accept c (src.after k) = (false, src.after k'))
include hreject

/-- Tries that fail use up their answers and their part of the budget. -/
theorem retry_of_triesFail {n k limit : Nat} (hn : n ≤ limit) (h : TriesFail src w reject n k) :
    retry (cand w) accept limit src = retry (cand w) accept (limit - n) (src.after k) := by
  obtain ⟨pos, h0, rfl, hpos⟩ := h
  have hr := retry_rejected (candidate := cand w) (accept := accept) (src := src) limit n hn
    fun i hi => by rw [cand_after, hreject _ _ _ (hpos i hi)]
  rwa [h0, Source.after_zero] at hr

theorem retry_of_all_fail {k limit : Nat} (h : TriesFail src w reject limit k) :
    retry (cand w) accept limit src = (none, src.after k) := by
  rw [retry_of_triesFail hreject le_rfl h, Nat.sub_self]
  rfl

include htest

theorem retry_of_found {n k k' limit : Nat} (hn : n < limit) (h : TriesFail src w reject n k)
    (ht : test (candidate src w k) (k + 1) k') :
    retry (cand w) accept limit src = (some (candidate src w k), src.after k') := by
  have hacc : accept (cand w (src.after k)).1 (cand w (src.after k)).2 = (true, src.after k') := by
    rw [cand_after]
    exact htest _ _ _ ht
  rw [retry_of_triesFail hreject hn.le h, retry_first (by omega) (by rw [hacc]), hacc, cand_after]

end

/-! ## NT.GENPRIME (45_nt_primes.md R226) -/

theorem generated_some (c : Nat) (src : Source) (dests : Nat → List (NReg × Int)) (s : State) :
    generated (some c, src) dests s = writeBack (dests c) { s with src := src } := rfl

theorem generated_of_within {s : State} {c : Nat} (hw : Within s.cfg c) (rd : NReg) (src : Source) :
    generated (some c, src) (fun c => [(rd, (c : Int))]) s
      = okNext { s with n := s.n.set rd (c : Int), src := src } :=
  writeBack_of_within (s := { s with src := src }) hw rd

theorem generated_none (src : Source) (dests : Nat → List (NReg × Int)) (s : State) :
    generated (none, src) dests s = genfailNext { s with src := src } := rfl

theorem exec_ntGenprime {s : State} (h : s.pay = []) {bits : BitVec 16} (hbits : bits ≠ 0#16)
    (hbound : ∀ b, s.cfg.ntBits = some b → bits.toNat ≤ b) (rd : NReg) : exec (.ntGenprime rd bits) s
      = generated (retry (cand bits.toNat) (fun c src => mr c genRounds src) s.retryLimit.toNat s.src)
          (fun c => [(rd, (c : Int))]) s := by
  have hbits : bits.toNat ≠ 0 := fun h0 => hbits (BitVec.eq_of_toNat_eq h0)
  rw [exec, execNtGenprime, transact_of_no_payload h, if_neg hbits,
    (bitsBeyond_eq_false_iff _ _).mpr hbound]
  rfl

/-- A number of no more bits than the bound fits. -/
theorem within_of_lt_two_pow {cfg : Config} {v w : Nat} (hv : v < 2 ^ w)
    (hbound : ∀ b, cfg.ntBits = some b → w ≤ b) : Within cfg v :=
  fun b hb => hv.trans_le (Nat.pow_le_pow_right two_pos (hbound b hb))

section
variable {s : State} (h : s.pay = []) {bits : BitVec 16} (hbits : bits ≠ 0#16)
  (hbound : ∀ b, s.cfg.ntBits = some b → bits.toNat ≤ b)
include h hbits hbound

theorem exec_ntGenprime_found (rd : NReg) {n k k' : Nat} (hn : n < s.retryLimit.toNat)
    (hfail : TriesFail s.src bits.toNat (Rejected s.src) n k)
    (ht : Tested s.src (candidate s.src bits.toNat k) (k + 1) k') :
    exec (.ntGenprime rd bits) s = okNext { s with
      n := s.n.set rd (candidate s.src bits.toNat k : Int)
      src := s.src.after k' } := by
  have hw : 1 ≤ bits.toNat := Nat.one_le_iff_ne_zero.mpr fun h0 => hbits (BitVec.eq_of_toNat_eq h0)
  obtain ⟨-, hlt, -⟩ := candidate_spec hw s.src k
  rw [exec_ntGenprime h hbits hbound, retry_of_found (accept := fun c => mr c genRounds)
    (fun _ _ _ => mr_of_tested) (fun _ _ _ => mr_of_rejected) hn hfail ht,
    generated_of_within (within_of_lt_two_pow hlt hbound)]

theorem exec_ntGenprime_failed (rd : NReg) {k : Nat}
    (hfail : TriesFail s.src bits.toNat (Rejected s.src) s.retryLimit.toNat k) :
    exec (.ntGenprime rd bits) s = genfailNext { s with src := s.src.after k } := by
  rw [exec_ntGenprime h hbits hbound, retry_of_all_fail (accept := fun c => mr c genRounds)
    (fun _ _ _ => mr_of_rejected) hfail, generated_none]

end

/-- The one candidate of 1 bit is 1. -/
theorem candidate_one (src : Source) (k : Nat) : candidate src 1 k = 1 := by
  obtain ⟨hlo, hhi, -⟩ := candidate_spec le_rfl src k
  omega

/-- The one candidate of 2 bits is 3. -/
theorem candidate_two (src : Source) (k : Nat) : candidate src 2 k = 3 := by
  obtain ⟨hlo, hhi, hodd⟩ := candidate_spec one_le_two src k
  omega

/-- Settles O56: the retry frame runs through the failing tries to the first that passes, or through all. -/
theorem ntGenprimeResults : Obligations.NtGenprimeResults := by
  refine fun rd bits s h => ⟨?_, fun hbits hbound => ⟨fun n k k' => ?_, fun k => ?_, ?_, fun k => ?_⟩,
    ?_, ?_⟩
  · rintro rfl
    exact transact_of_no_payload h _
  · exact exec_ntGenprime_found h hbits hbound rd
  · exact exec_ntGenprime_failed h hbits hbound rd
  · exact tries_complete (tested_or_rejected s.src) _
  · exact candidate_spec (Nat.one_le_iff_ne_zero.mpr fun h0 => hbits (BitVec.eq_of_toNat_eq h0)) s.src k
  · rintro rfl hbound hlimit
    have hfound := exec_ntGenprime_found (bits := 2#16) h (by decide) hbound rd hlimit (triesFail_zero _ _ _)
      (.inl ⟨.inr (candidate_two s.src 0), rfl⟩)
    rwa [show candidate s.src (2#16).toNat 0 = 3 from candidate_two s.src 0] at hfound
  · rintro rfl hbound
    refine exec_ntGenprime_failed (bits := 1#16) h (by decide) hbound rd
      ⟨id, rfl, rfl, fun i _ => .inl ⟨.inl ?_, rfl⟩⟩
    exact (candidate_one s.src i).trans_lt one_lt_two

/-! ## NT.GENSAFE (45_nt_primes.md R228) -/

theorem exec_ntGensafe {s : State} (h : s.pay = []) {rp rq : NReg} (hne : rp ≠ rq) {bits : BitVec 16}
    (hbits : 3 ≤ bits.toNat) (hbound : ∀ b, s.cfg.ntBits = some b → bits.toNat ≤ b) :
    exec (.ntGensafe rp rq bits) s
      = generated (retry (cand (bits.toNat - 1)) safeAccept s.retryLimit.toNat s.src)
          (fun q => [(rp, 2 * (q : Int) + 1), (rq, (q : Int))]) s := by
  rw [exec, execNtGensafe, if_neg hne, transact_of_no_payload h, if_neg hbits.not_gt,
    (bitsBeyond_eq_false_iff _ _).mpr hbound]
  rfl

theorem exec_ntGensafe_few_bits {s : State} (h : s.pay = []) {rp rq : NReg} (hne : rp ≠ rq)
    {bits : BitVec 16} (hbits : bits.toNat < 3) : exec (.ntGensafe rp rq bits) s = precondNext s := by
  rw [exec, execNtGensafe, if_neg hne, transact_of_no_payload h, if_pos hbits, raise_precond]

/-- Twice a candidate and 1 has one bit more. -/
theorem two_mul_candidate_spec {bits : Nat} (hbits : 3 ≤ bits) (src : Source) (k : Nat) :
    2 ^ (bits - 1) ≤ 2 * candidate src (bits - 1) k + 1
      ∧ 2 * candidate src (bits - 1) k + 1 < 2 ^ bits := by
  obtain ⟨hlo, hhi, -⟩ := candidate_spec (w := bits - 1) (by omega) src k
  have hpow : 2 ^ bits = 2 ^ (bits - 1) * 2 := by rw [← pow_succ, Nat.sub_add_cancel (by omega)]
  have hpow' : 2 ^ (bits - 1) = 2 ^ (bits - 1 - 1) * 2 := by rw [← pow_succ, Nat.sub_add_cancel (by omega)]
  omega

section
variable {s : State} (h : s.pay = []) {rp rq : NReg} (hne : rp ≠ rq) {bits : BitVec 16}
  (hbits : 3 ≤ bits.toNat) (hbound : ∀ b, s.cfg.ntBits = some b → bits.toNat ≤ b)
include h hne hbits hbound

theorem exec_ntGensafe_found {n k k' : Nat} (hn : n < s.retryLimit.toNat)
    (hfail : TriesFail s.src (bits.toNat - 1) (SafeRejected s.src) n k)
    (ht : SafeTested s.src (candidate s.src (bits.toNat - 1) k) (k + 1) k') :
    exec (.ntGensafe rp rq bits) s = okNext { s with
      n := (s.n.set rp (2 * (candidate s.src (bits.toNat - 1) k : Int) + 1)).set rq
        (candidate s.src (bits.toNat - 1) k : Int)
      src := s.src.after k' } := by
  have hp : Within s.cfg (2 * (candidate s.src (bits.toNat - 1) k : Int) + 1) := by
    exact_mod_cast within_of_lt_two_pow (two_mul_candidate_spec hbits s.src k).2 hbound
  have hq : Within s.cfg (candidate s.src (bits.toNat - 1) k) := within_of_natAbs_le hp (by omega)
  rw [exec_ntGensafe h hne hbits hbound, retry_of_found (accept := safeAccept)
    (fun _ _ _ => safeAccept_of_tested) (fun _ _ _ => safeAccept_of_rejected) hn hfail ht, generated_some]
  exact writeBack_of_fits (by simpa [fits_iff_within] using ⟨hp, hq⟩)

theorem exec_ntGensafe_failed {k : Nat}
    (hfail : TriesFail s.src (bits.toNat - 1) (SafeRejected s.src) s.retryLimit.toNat k) :
    exec (.ntGensafe rp rq bits) s = genfailNext { s with src := s.src.after k } := by
  rw [exec_ntGensafe h hne hbits hbound,
    retry_of_all_fail (accept := safeAccept) (fun _ _ _ => safeAccept_of_rejected) hfail, generated_none]

end

/-- 3 passes without an answer and 7 on any 128. -/
theorem safeTested_three (src : Source) (k : Nat) : SafeTested src 3 k (k + genRounds) :=
  ⟨k, .inl ⟨.inr rfl, rfl⟩, tested_of_prime (by decide) (by decide)⟩

/-- Settles O57: the retry frame runs through the failing tries to the first whose two tests pass, or
through all. -/
theorem ntGensafeResults : Obligations.NtGensafeResults := by
  refine fun rp rq bits s hne h => ⟨exec_ntGensafe_few_bits h hne,
    fun hbits hbound => ⟨fun n k k' => ?_, fun k => ?_, ?_, ?_⟩, fun hbits hbound hlimit => ?_⟩
  · exact exec_ntGensafe_found h hne hbits hbound
  · exact exec_ntGensafe_failed h hne hbits hbound
  · exact tries_complete (safeTested_or_rejected s.src) _
  · exact two_mul_candidate_spec hbits s.src
  · have hthree : candidate s.src (bits.toNat - 1) 0 = 3 := by rw [hbits]; exact candidate_two s.src 0
    have hfound := exec_ntGensafe_found h hne hbits.ge (by rwa [hbits]) hlimit (triesFail_zero _ _ _)
      (by rw [hthree]; exact safeTested_three s.src 1)
    rwa [hthree] at hfound

/-! ## NT.FINDGEN (45_nt_primes.md R230) -/

theorem exec_ntFindgen {s : State} (h : s.pay = []) {rp rq : NReg} (hp : 3 ≤ s.n[rp])
    (hodd : s.n[rp] % 2 = 1) (hq : 1 ≤ s.n[rq]) (hdvd : (s.n[rp] - 1) % s.n[rq] = 0) (rd : NReg) :
    exec (.ntFindgen rd rp rq) s
      = generated (retry (draw 0 (s.n[rp].toNat - 1)) (genAccept s.n[rp].toNat s.n[rq].toNat)
          s.retryLimit.toNat s.src) (fun a => [(rd, (a : Int))]) s := by
  have hx : s.x rp = s.n[rp] := rfl
  have hy : s.x rq = s.n[rq] := rfl
  rw [exec, execNtFindgen, transact_of_no_payload h, hx, hy, if_neg (by omega),
    if_neg (not_or.mpr ⟨hq.not_gt, not_not.mpr hdvd⟩)]

theorem exec_ntFindgen_precond {s : State} (h : s.pay = []) {rp rq : NReg}
    (hdom : ¬ (3 ≤ s.n[rp] ∧ s.n[rp] % 2 = 1 ∧ 1 ≤ s.n[rq] ∧ (s.n[rp] - 1) % s.n[rq] = 0)) (rd : NReg) :
    exec (.ntFindgen rd rp rq) s = precondNext s := by
  have hx : s.x rp = s.n[rp] := rfl
  have hy : s.x rq = s.n[rq] := rfl
  rw [exec, execNtFindgen, transact_of_no_payload h, hx, hy]
  by_cases hp : s.n[rp] < 3 ∨ s.n[rp] % 2 = 0
  · rw [if_pos hp, raise_precond]
  · rw [if_neg hp, if_pos ?_, raise_precond]
    by_contra hq
    push Not at hq
    exact hdom ⟨by omega, by omega, hq.1, hq.2⟩

/-- The number `a` meets both inequalities of R230. -/
def IsGenerator (p q a : Nat) : Prop := a ^ ((p - 1) / 2) % p ≠ 1 ∧ a ^ ((p - 1) / q) % p ≠ 1

theorem genAccept_iff {p : Nat} (hp : 1 ≤ p) (q a : Nat) (src : Source) :
    (genAccept p q a src).1 = true ↔ IsGenerator p q a := by
  simp [genAccept, IsGenerator, modpow_nat _ _ hp]

theorem draw_after (hi : Nat) (src : Source) (k : Nat) :
    draw 0 hi (src.after k) = (answer src k 0 hi, src.after (k + 1)) := by
  rw [draw_eq, answer_after, Source.after_after]
  rfl

section
variable {src : Source} {p q limit : Nat} (hp : 1 ≤ p)
include hp

theorem retry_genAccept_found {n : Nat} (hn : n < limit)
    (hreject : ∀ i < n, ¬ IsGenerator p q (answer src i 0 (p - 1)))
    (haccept : IsGenerator p q (answer src n 0 (p - 1))) :
    retry (draw 0 (p - 1)) (genAccept p q) limit src
      = (some (answer src n 0 (p - 1)), src.after (n + 1)) := by
  rw [retry_accepted_draws (fun _ => by rw [draw_eq]) (fun _ _ => rfl) hn (fun i hi => ?_) ?_, draw_after]
  · rw [draw_after, genAccept_iff hp]
    exact haccept
  · rw [draw_after, ← Bool.not_eq_true, genAccept_iff hp]
    exact hreject i hi

theorem retry_genAccept_failed (hreject : ∀ i < limit, ¬ IsGenerator p q (answer src i 0 (p - 1))) :
    retry (draw 0 (p - 1)) (genAccept p q) limit src = (none, src.after limit) := by
  refine retry_exhausted_draws (fun _ => by rw [draw_eq]) (fun _ _ => rfl) fun i hi => ?_
  rw [draw_after, ← Bool.not_eq_true, genAccept_iff hp]
  exact hreject i hi

end

/-- An answer below the modulus fits where the modulus does. -/
theorem within_answer {cfg : Config} {p : Int} (hp : 3 ≤ p) (hw : Within cfg p) (src : Source) (k : Nat) :
    answer src k 0 (p.toNat - 1) < p.toNat ∧ Within cfg (answer src k 0 (p.toNat - 1)) := by
  have hle := (answerIn_mem (Nat.zero_le (p.toNat - 1)) (src.rawAt k)).2
  have hlt : answer src k 0 (p.toNat - 1) < p.toNat := by rw [answer]; omega
  exact ⟨hlt, within_of_natAbs_le hw (by omega)⟩

section
variable {s : State} (h : s.pay = []) {rp rq : NReg}
  (hdom : 3 ≤ s.n[rp] ∧ s.n[rp] % 2 = 1 ∧ 1 ≤ s.n[rq] ∧ (s.n[rp] - 1) % s.n[rq] = 0)
include h hdom

theorem exec_ntFindgen_found (hw : Within s.cfg s.n[rp]) (rd : NReg) {n : Nat} (hn : n < s.retryLimit.toNat)
    (hreject : ∀ i < n, ¬ IsGenerator s.n[rp].toNat s.n[rq].toNat (answer s.src i 0 (s.n[rp].toNat - 1)))
    (haccept : IsGenerator s.n[rp].toNat s.n[rq].toNat (answer s.src n 0 (s.n[rp].toNat - 1))) :
    exec (.ntFindgen rd rp rq) s = okNext { s with
      n := s.n.set rd (answer s.src n 0 (s.n[rp].toNat - 1) : Int)
      src := s.src.after (n + 1) } := by
  obtain ⟨hp, hodd, hq, hdvd⟩ := hdom
  rw [exec_ntFindgen h hp hodd hq hdvd, retry_genAccept_found (by omega) hn hreject haccept,
    generated_of_within (within_answer hp hw s.src n).2]

theorem exec_ntFindgen_failed (rd : NReg) (hreject : ∀ i < s.retryLimit.toNat,
      ¬ IsGenerator s.n[rp].toNat s.n[rq].toNat (answer s.src i 0 (s.n[rp].toNat - 1))) :
    exec (.ntFindgen rd rp rq) s = genfailNext { s with src := s.src.after s.retryLimit.toNat } := by
  obtain ⟨hp, hodd, hq, hdvd⟩ := hdom
  rw [exec_ntFindgen h hp hodd hq hdvd, retry_genAccept_failed (by omega) hreject, generated_none]

end

/-- Settles O58: each try uses up one answer, and the first that meets both inequalities is written. -/
theorem ntFindgenResults : Obligations.NtFindgenResults := by
  refine fun rd rp rq s h => ⟨fun hdom => exec_ntFindgen_precond h hdom rd, fun hdom hw => ?_,
    fun hdom hw n => exec_ntFindgen_found h hdom hw rd, fun hdom _ => exec_ntFindgen_failed h hdom rd⟩
  by_cases hex : ∃ n, n < s.retryLimit.toNat
      ∧ IsGenerator s.n[rp].toNat s.n[rq].toNat (answer s.src n 0 (s.n[rp].toNat - 1))
  · classical
    obtain ⟨hn, haccept⟩ := Nat.find_spec hex
    refine ⟨_, hn, .inr ⟨_, (within_answer hdom.1 hw s.src _).1, haccept, ?_⟩⟩
    exact exec_ntFindgen_found h hdom hw rd hn
      (fun i hi hgen => Nat.find_min hex hi ⟨hi.trans hn, hgen⟩) haccept
  · exact ⟨_, le_rfl, .inl (exec_ntFindgen_failed h hdom rd fun i hi hgen => hex ⟨i, hi, hgen⟩)⟩

/-! ## Limits (45_nt_primes.md R225, R226, R228) -/

/-- Settles O59: a budget of 0 tries ends the retry frame before its first candidate. -/
theorem zeroBudgetFailsAtOnce : Obligations.ZeroBudgetFailsAtOnce := by
  intro s h hlimit
  have hzero : s.retryLimit.toNat = 0 := by rw [hlimit]; rfl
  refine ⟨fun rd bits hbits hbound => ?_, fun rp rq bits hne hbits hbound => ?_,
    fun rd rp rq hp hodd hq hdvd => ?_⟩
  · rw [exec_ntGenprime h hbits hbound, hzero]
    rfl
  · rw [exec_ntGensafe h hne hbits hbound, hzero]
    rfl
  · rw [exec_ntFindgen h hp hodd hq hdvd, hzero]
    rfl

/-- Settles O60: the check of the bit length stands between the domain checks and the first draw. -/
theorem bitLengthBeyondBound : Obligations.BitLengthBeyondBound := by
  intro bits s b h hb hlt
  have hbeyond : bitsBeyond s.cfg bits.toNat = true := by simpa [bitsBeyond, hb] using hlt
  refine ⟨fun rd => ?_, fun rp rq hne hbits => ?_, fun rp rq hne => exec_ntGensafe_few_bits h hne⟩
  · rw [exec, execNtGenprime, transact_of_no_payload h, if_neg (by omega), if_pos hbeyond, raise_range]
  · rw [exec, execNtGensafe, if_neg hne, transact_of_no_payload h, if_neg hbits.not_gt, if_pos hbeyond,
      raise_range]

end Sys2Proof.NtPrimes
end
